-- ==== Sys2Proof/Word.lean ====
section
/-! DEFINITION. The word types of the HCB: bytes, 32-bit registers, bit sequences, and tables of 256 entries
indexed by a symbol. -/

namespace Sys2Proof

/-- One byte: a symbol (R20) or one byte of a buffer (R57). -/
abbrev Byte := BitVec 8

/-- A 32-bit register or bus value (R23). -/
abbrev Word := BitVec 32

/-- A bit sequence, first bit first (R15). -/
abbrev Bits := List Bool

/-- A table with one entry per symbol, 0 to 255 (R9: `ALPHABET`). -/
abbrev Table (α : Type) := Vector α 256

end Sys2Proof
end

