-- ==== Sys2Proof/Syntax.lean ====
section
/-! DEFINITION. The commands of the HCB (one constructor per row of spec/opcode_table.json) and the events that
drive it: host bus accesses, ENGINE turns and the power-on reset. -/

namespace Sys2Proof

/-- The ten commands (R75). No command carries an operand (R73). -/
inductive Instr where
  | nop
  | count
  | build
  | genCodes
  | serialize
  | deserialize
  | pack
  | unpack
  | encode
  | decode
deriving DecidableEq, Repr

/-- The width of a host bus access (R61): 8 and 32 bits are carried; 16 and 64 are not supported. -/
inductive Width where
  | w8
  | w16
  | w32
  | w64
deriving DecidableEq, Repr

/-- What a host bus access does. The data of a write narrower than 64 bits stands in its low bits. -/
inductive BusOp where
  | read
  | write (data : BitVec 64)
deriving DecidableEq, Repr

/-- One host bus access at a platform byte address (R13, R61). -/
structure BusAccess where
  addr  : Nat
  width : Width
  op    : BusOp
deriving DecidableEq, Repr

/-- One event of the schedule (R13, R142): a HOST step, a turn of the ENGINE, or the reset input. -/
inductive Input where
  | host (a : BusAccess)
  | engine
  | powerOn
deriving DecidableEq, Repr

end Sys2Proof
end

