-- ==== Sys2Proof/Config.lean ====
section
/-! DEFINITION. What an implementation fixes (the capacities of R11, the base address of R56) and the free values
of R19: constants with no body, so that no proof can see what they are. -/

namespace Sys2Proof

/-- The buffer capacities MAX_IN, MAX_PAY and MAX_OUT (R11). They are parameters of the implementation; State
carries them, and no step changes them (log entry 1). -/
structure Caps where
  maxIn  : Nat
  maxPay : Nat
  maxOut : Nat
deriving DecidableEq, Repr

/-- The defaults of R11. -/
def Caps.default : Caps := { maxIn := 65536, maxPay := 65537, maxOut := 65536 }

/-- HCB_BASE, the platform's base address of the window (R56): an OPEN parameter (log entry 2). -/
opaque Config.hcbBase : Nat

/-- The byte that draw number `n` put at window offset `a` (R19, R65): any value, per byte, fixed until it is
written (log entries 7 and 8). -/
opaque Config.freeByte (n a : Nat) : Byte

/-- The value that draw number `n` gives a host read during BUSY (R19, R55): any value, per read (log entry 9). -/
opaque Config.freeWord (n : Nat) : Word

end Sys2Proof
end

