-- ==== Sys2Proof/WellFormed.lean ====
section
/-! DEFINITION. The checks on terms: the capacities of R11, the data width of a bus write, and the commands, which
carry no operand and so are all well formed. -/

namespace Sys2Proof

/-- The constraints of R11 on the capacities. -/
def Caps.wf (c : Caps) : Bool :=
  decide (1 ≤ c.maxIn) && decide (c.maxIn ≤ 2 ^ 24 - 1) &&
  decide (c.maxIn + 1 ≤ c.maxPay) && decide (c.maxPay ≤ 2 ^ 24) &&
  decide (c.maxIn ≤ c.maxOut) && decide (c.maxOut ≤ 2 ^ 24)

/-- A command has no operand, so there is nothing to check (R73). -/
def Instr.wf (_ : Instr) : Bool := true

/-- The number of bits an access carries. -/
def Width.bits : Width → Nat
  | .w8  => 8
  | .w16 => 16
  | .w32 => 32
  | .w64 => 64

/-- The data of a write fits the width of the access. -/
def BusAccess.wf (a : BusAccess) : Bool :=
  match a.op with
  | .read => true
  | .write d => decide (d.toNat < 2 ^ a.width.bits)

/-- An event of the schedule is well formed when its bus access is. -/
def Input.wf : Input → Bool
  | .host a  => a.wf
  | .engine  => true
  | .powerOn => true

end Sys2Proof
end

