-- ==== Sys2Proof/Decode.lean ====
section
/-! DEFINITION. The command word (R72, R75, R76): decoding, total on 32-bit words and rejecting by name, and the
encoder, written from the same table. -/

namespace Sys2Proof

/-- Why a command word is illegal (R76). -/
inductive IllegalWord where
  /-- OPCODE in 0x0A..0xFF: ILLEGAL_CMD detail 1. -/
  | unknownOpcode
  /-- A defined OPCODE with RSV not 0: ILLEGAL_CMD detail 2. -/
  | reservedBits
deriving DecidableEq, Repr

/-- OPCODE, bits 7:0 of the command word (R72). -/
def opcodeField (w : Word) : Byte := w.extractLsb' 0 8

/-- RSV, bits 31:8 of the command word (R72). -/
def reservedField (w : Word) : BitVec 24 := w.extractLsb' 8 24

/-- The opcode table (R75), read by opcode. -/
def instrOfOpcode (op : Byte) : Option Instr :=
  match op.toNat with
  | 0x00 => some .nop
  | 0x01 => some .count
  | 0x02 => some .build
  | 0x03 => some .genCodes
  | 0x04 => some .serialize
  | 0x05 => some .deserialize
  | 0x06 => some .pack
  | 0x07 => some .unpack
  | 0x08 => some .encode
  | 0x09 => some .decode
  | _    => none

/-- Decoding a command word; an unknown opcode is found before reserved bits (R128). -/
def decode (w : Word) : Except IllegalWord Instr :=
  match instrOfOpcode (opcodeField w) with
  | none   => .error .unknownOpcode
  | some i => if reservedField w = 0 then .ok i else .error .reservedBits

/-- The opcode table (R75), read by command. -/
def opcode : Instr → Byte
  | .nop         => 0x00
  | .count       => 0x01
  | .build       => 0x02
  | .genCodes    => 0x03
  | .serialize   => 0x04
  | .deserialize => 0x05
  | .pack        => 0x06
  | .unpack      => 0x07
  | .encode      => 0x08
  | .decode      => 0x09

/-- The one command word of a command: its opcode with RSV = 0 (R72). -/
def encode (i : Instr) : Word := 0#24 ++ opcode i

/-- The command word that the low `nbits` bits of `w` spell, the bits above them 0; none where a word is longer
than a command word, which is always 32 bits (R72). -/
def tableWord (nbits w : Nat) : Option Word :=
  if w % 2 ^ nbits < 2 ^ 32 then some (BitVec.ofNat 32 (w % 2 ^ nbits)) else none

/-- The command the decoder reads from a word numbered as the opcode table numbers it. -/
def decodeTableWord (nbits w : Nat) : Option Instr :=
  match tableWord nbits w with
  | none   => none
  | some v => (decode v).toOption

end Sys2Proof
end

