-- ==== Sys2Proof/Machine/State.lean ====
section
/-! DEFINITION. The state of the HCB (10_state.md): registers, tables, TREE, hidden state and buffers, as plain data,
with the state after power-on reset. -/

namespace Sys2Proof.Machine

/-- A Huffman tree (R16): strict, so every internal node has exactly two children (R49). -/
inductive HuffTree where
  | leaf (s : Byte)
  | node (l r : HuffTree)
deriving DecidableEq, Repr

/-- What the tree register holds (R48). -/
inductive TreeReg where
  | none
  | absent
  | present (t : HuffTree)
deriving DecidableEq, Repr

/-- The four byte buffers (R57). -/
inductive Buffer where
  | treeBuf
  | inBuf
  | payBuf
  | outBuf
deriving DecidableEq, Repr

/-- The stored fields of STATUS (R28). TREE_STATE has no storage of its own: it shows TREE. -/
structure Status where
  busy       : Bool
  err        : Bool
  overrun    : Bool
  busyAccess : Bool
  codesValid : Bool
  lastOp     : Byte
deriving DecidableEq, Repr

/-- The fields of ERROR (R29). -/
structure ErrorReg where
  code   : Byte
  detail : Byte
  stage  : Byte
deriving DecidableEq, Repr

/-- Buffer contents: pairs of window offset and byte, offsets strictly rising. An offset that is not listed has not
been written since its buffer was last drawn; it holds a free value (R65; log entries 7 and 18). -/
abbrev Memory := List Host.Cell

/-- The model's own bookkeeping of draws (R19; log entry 8): the number of the next draw, and for each buffer the
number of the draw its unwritten bytes come from. -/
structure Draws where
  next    : Nat
  treeBuf : Nat
  inBuf   : Nat
  payBuf  : Nat
  outBuf  : Nat
deriving DecidableEq, Repr

/-- The state of the block, the model's draw counters, the host's last read and the schedule. -/
structure State where
  /-- MAX_IN, MAX_PAY, MAX_OUT, read through CAP_IN, CAP_PAY, CAP_OUT (R11, R44). -/
  caps        : Caps
  /-- CTRL.IRQ_EN (R26). -/
  irqEn       : Bool
  /-- STATUS (R28). -/
  status      : Status
  /-- ERROR (R29). -/
  error       : ErrorReg
  /-- ERR_POS (R30). -/
  errPos      : Word
  /-- INT_STATUS.DONE (R31). -/
  done        : Bool
  /-- IN_LEN (R32). -/
  inLen       : Word
  /-- TREE_LEN (R33). -/
  treeLen     : Word
  /-- PAY_LEN (R34). -/
  payLen      : Word
  /-- OUT_LEN (R35). -/
  outLen      : Word
  /-- PAD_COUNT bits 2:0 (R36). -/
  padCount    : BitVec 3
  /-- TOTAL_BITS (R37). -/
  totalBits   : Word
  /-- LEAF_COUNT bits 8:0 (R38). -/
  leafCount   : BitVec 9
  /-- NODE_COUNT bits 9:0 (R38). -/
  nodeCount   : BitVec 10
  /-- TREE_USED bits 9:0 (R39). -/
  treeUsed    : BitVec 10
  /-- MAX_DEPTH bits 7:0 (R40). -/
  maxDepth    : BitVec 8
  /-- CODE_SEL bits 7:0 (R41). -/
  codeSel     : Byte
  /-- FREQ (R45). -/
  freq        : Table Word
  /-- CT_BITS; CT_LEN[s] is the length of CT_BITS[s] (R46; log entry 14). -/
  codes       : Table Bits
  /-- TREE (R48). -/
  tree        : TreeReg
  /-- PENDING_WORD (R50). -/
  pendingWord : Word
  /-- TREE_BUF, IN_BUF, PAY_BUF and OUT_BUF (R57). -/
  mem         : Memory
  /-- The model's draw counters. -/
  draws       : Draws
  /-- The value the last host read returned (log entry 15). -/
  readData    : Word
  /-- The schedule, the next event first (R13; log entry 3). -/
  inputs      : List Input
deriving DecidableEq, Repr

/-- The block never stops with a fault: a failing command completes with an error recorded in ERROR (R125, R131), and
"nothing in the block is undefined behaviour" (93_implementation_defined.md). So there is no constructor
(log entry 20). -/
inductive Fault where
deriving DecidableEq, Repr

/-- Why the model gives no next state. -/
inductive Refusal where
  /-- Raised by a refused arm of `exec` for a command without a meaning yet; safe. No arm raises it. -/
  | notModelled (mnemonic : String)
deriving DecidableEq, Repr

/-- The state after power-on reset (R144), with the default capacities of R11, PENDING_WORD 0 (no meaning; log entry
6), nothing written in any buffer, and an empty schedule. -/
def State.reset : State where
  caps        := Caps.default
  irqEn       := false
  status      := { busy := false, err := false, overrun := false, busyAccess := false,
                   codesValid := false, lastOp := 0 }
  error       := { code := 0, detail := 0, stage := 0 }
  errPos      := 0
  done        := false
  inLen       := 0
  treeLen     := 0
  payLen      := 0
  outLen      := 0
  padCount    := 0
  totalBits   := 0
  leafCount   := 0
  nodeCount   := 0
  treeUsed    := 0
  maxDepth    := 0
  codeSel     := 0
  freq        := Vector.replicate 256 0
  codes       := Vector.replicate 256 []
  tree        := .none
  pendingWord := 0
  mem         := []
  draws       := { next := 1, treeBuf := 0, inBuf := 0, payBuf := 0, outBuf := 0 }
  readData    := 0
  inputs      := []

end Sys2Proof.Machine
end

