-- ==== Sys2Proof/Machine/Ops.lean ====
section
/-! DEFINITION. The shared operations: the buffers' places in the window, memory in its canonical form, reading and
writing buffer bytes, draws, table entries, and the life of a command: issue (R123), completion and the recording of
an error (R125, R131). -/

namespace Sys2Proof.Machine

/-! ### The window map (R57) -/

/-- The size of the host window, 64 MiB (R56). -/
def windowSize : Nat := 2 ^ 26

/-- TREE_BUF_SIZE (R9). -/
def treeBufSize : Nat := 768

/-- TREE_BASE, IN_BASE, PAY_BASE and OUT_BASE (R57). -/
def Buffer.base : Buffer → Nat
  | .treeBuf => 0x1000
  | .inBuf   => 0x01000000
  | .payBuf  => 0x02000000
  | .outBuf  => 0x03000000

/-- The number of bytes a buffer holds (R9, R11, R57). -/
def Buffer.cap (c : Caps) : Buffer → Nat
  | .treeBuf => treeBufSize
  | .inBuf   => c.maxIn
  | .payBuf  => c.maxPay
  | .outBuf  => c.maxOut

/-! ### Memory -/

/-- The byte listed at an offset, if one is. -/
def Memory.get? : Memory → Nat → Option Byte
  | [], _ => none
  | (k, v) :: m, a => if k = a then some v else Memory.get? m a

/-- Writing one byte, keeping the offsets rising. -/
def Memory.set : Memory → Nat → Byte → Memory
  | [], a, b => [(a, b)]
  | (k, v) :: m, a, b =>
    if a < k then (a, b) :: (k, v) :: m
    else if a = k then (a, b) :: m
    else (k, v) :: Memory.set m a b

/-- Forgetting what is listed at offsets `lo` to `lo + n - 1`. -/
def Memory.forget (m : Memory) (lo n : Nat) : Memory :=
  m.filter fun c => decide (c.1 < lo ∨ lo + n ≤ c.1)

/-- Whether an offset is that of a byte of one of the four buffers (R57). -/
def isBufferOffset (c : Caps) (a : Nat) : Bool :=
  [Buffer.treeBuf, .inBuf, .payBuf, .outBuf].any fun b => decide (b.base ≤ a ∧ a < b.base + b.cap c)

/-- The canonical form: offsets strictly rising, each that of a buffer byte. -/
def Memory.wf (c : Caps) (m : Memory) : Bool :=
  decide ((m.map Prod.fst).Pairwise (· < ·)) && m.all fun cell => isBufferOffset c cell.1

/-! ### Draws (R19) -/

/-- The draw a buffer's unwritten bytes come from. -/
def Draws.of (d : Draws) : Buffer → Nat
  | .treeBuf => d.treeBuf
  | .inBuf   => d.inBuf
  | .payBuf  => d.payBuf
  | .outBuf  => d.outBuf

/-- A new draw for a buffer's unwritten bytes. -/
def Draws.renew (d : Draws) : Buffer → Draws
  | .treeBuf => { d with treeBuf := d.next, next := d.next + 1 }
  | .inBuf   => { d with inBuf := d.next, next := d.next + 1 }
  | .payBuf  => { d with payBuf := d.next, next := d.next + 1 }
  | .outBuf  => { d with outBuf := d.next, next := d.next + 1 }

/-! ### Buffer bytes -/

/-- X[i] (R17): what was written there, or else the free value of the buffer's draw (R65). -/
def State.bufByte (s : State) (b : Buffer) (i : Nat) : Byte :=
  (Memory.get? s.mem (b.base + i)).getD (Config.freeByte (s.draws.of b) (b.base + i))

/-- X[i] <- v (R17). -/
def State.setBuf (s : State) (b : Buffer) (i : Nat) (v : Byte) : State :=
  { s with mem := Memory.set s.mem (b.base + i) v }

/-- X[i] <- v0, X[i+1] <- v1, ... -/
def State.writeBuf (s : State) (b : Buffer) (i : Nat) : List Byte → State
  | []      => s
  | v :: vs => State.writeBuf (s.setBuf b i v) b (i + 1) vs

/-- X[0], ..., X[n-1]. -/
def State.readBuf (s : State) (b : Buffer) (n : Nat) : List Byte :=
  (List.range n).map (s.bufByte b)

/-- Every byte of the buffer becomes a draw (R110, R143). -/
def State.redraw (s : State) (b : Buffer) : State :=
  { s with mem := Memory.forget s.mem b.base (b.cap s.caps), draws := s.draws.renew b }

/-! ### Tables indexed by a symbol (R17) -/

/-- Entry `b` of a table. -/
def tableGet {α : Type} (t : Table α) (b : Byte) : α := t[b.toNat]'b.isLt

/-- The table with entry `b` replaced. -/
def tableSet {α : Type} (t : Table α) (b : Byte) (x : α) : Table α := t.set b.toNat x b.isLt

/-- The symbols 0 to 255, ascending (R9). -/
def allSymbols : List Byte := (List.finRange 256).map BitVec.ofFin

/-! ### Issue, errors and completion -/

/-- The error kinds of R127. -/
inductive ErrorKind where
  | illegalCmd
  | lengthRange
  | noTree
  | noCodes
  | malformedTree
  | truncatedPayload
  | badPadding
  | symbolNotInTable
  | payloadOverflow
  | outputOverflow
deriving DecidableEq, Repr

/-- The codes of R127. -/
def ErrorKind.code : ErrorKind → Byte
  | .illegalCmd       => 0x01
  | .lengthRange      => 0x02
  | .noTree           => 0x03
  | .noCodes          => 0x04
  | .malformedTree    => 0x05
  | .truncatedPayload => 0x06
  | .badPadding       => 0x07
  | .symbolNotInTable => 0x08
  | .payloadOverflow  => 0x09
  | .outputOverflow   => 0x0A

/-- `raise E(detail, pos)` (R18), with the stage that R125 records. -/
structure Raise where
  kind   : ErrorKind
  detail : Byte
  pos    : Nat
  stage  : Byte
deriving DecidableEq, Repr

/-- How the pseudocode of a command ends (R18), with the state it has written. -/
inductive CmdResult where
  | complete (s : State)
  | raised (s : State) (r : Raise)
deriving DecidableEq, Repr

/-- An accepted issue of the word `v` (R123, the branch for BUSY = 0). -/
def accept (v : Word) (s : State) : State :=
  { s with
    pendingWord := v
    status := { s.status with busy := true, err := false, overrun := false, busyAccess := false,
                              lastOp := opcodeField v }
    error := { code := 0, detail := 0, stage := 0 }
    errPos := 0 }

/-- A host write of `v` to CMD (R123). A return from an error is this and nothing more: the next accepted issue clears
the error (R132). -/
def issue (v : Word) (s : State) : State :=
  if s.status.busy then { s with status := { s.status with overrun := true } } else accept v s

/-- What an error leaves (R125, R131): ERR, ERROR and ERR_POS. -/
def recordError (r : Raise) (s : State) : State :=
  { s with
    status := { s.status with err := true }
    error := { code := r.kind.code, detail := r.detail, stage := r.stage }
    errPos := BitVec.ofNat 32 r.pos }

/-- The end of every command (R125): BUSY <- 0, DONE <- 1. -/
def idle (s : State) : State :=
  { s with status := { s.status with busy := false }, done := true }

/-- Completion (R125): the one place where a command's error is taken. -/
def finish : CmdResult → State
  | .complete s => idle s
  | .raised s r => idle (recordError r s)

end Sys2Proof.Machine
end

