-- ==== Sys2Proof/Machine/Flags.lean ====
section
/-! DEFINITION. The flags (R54) and the register words made of fields: CTRL, STATUS, ERROR, INT_STATUS, the words of
the selected code, and the interrupt line. -/

namespace Sys2Proof.Machine

/-- TREE_STATE: 0 NONE, 1 ABSENT, 2 PRESENT (R28). -/
def TreeReg.code : TreeReg → Nat
  | .none      => 0
  | .absent    => 1
  | .present _ => 2

/-- CTRL as read: IRQ_EN in bit 0; SOFT_RESET reads 0 (R26). -/
def ctrlWord (s : State) : Word := BitVec.ofNat 32 s.irqEn.toNat

/-- STATUS with a given TREE_STATE and CODES_VALID (R28). -/
def statusWordOf (st : Status) (treeState : Nat) (codesValid : Bool) : Word :=
  BitVec.ofNat 32 (st.busy.toNat + 2 * st.err.toNat + 4 * st.overrun.toNat + 8 * st.busyAccess.toNat +
    16 * treeState + 64 * codesValid.toNat + 256 * st.lastOp.toNat)

/-- STATUS as read (R28). -/
def statusWord (s : State) : Word := statusWordOf s.status s.tree.code s.status.codesValid

/-- ERROR as read (R29). -/
def errorWord (s : State) : Word :=
  BitVec.ofNat 32 (s.error.code.toNat + 2 ^ 8 * s.error.detail.toNat + 2 ^ 16 * s.error.stage.toNat)

/-- INT_STATUS as read (R31). -/
def intStatusWord (s : State) : Word := BitVec.ofNat 32 s.done.toNat

/-- The interrupt output `hcb_irq` (R134). -/
def irq (s : State) : Bool := s.done && s.irqEn

/-- CT_BITS of the symbol CODE_SEL selects (R42, R43). -/
def selectedCode (s : State) : Bits := tableGet s.codes s.codeSel

/-- CODE_LEN as read: CT_LEN[CODE_SEL] in bits 7:0 (R42). -/
def codeLenWord (s : State) : Word := BitVec.ofNat 32 ((selectedCode s).length % 2 ^ 8)

/-- Thirty-two bits to a word, the first bit the most significant, missing bits 0 (R43). -/
def wordOfBits (c : Bits) : Word :=
  BitVec.ofNat 32 ((List.range 32).foldl (fun acc m => 2 * acc + (c.getD m false).toNat) 0)

/-- CODE_WORDk as read: the selected code's bits 32k to 32k + 31 (R43). -/
def codeWord (s : State) (k : Nat) : Word := wordOfBits ((selectedCode s).drop (32 * k))

end Sys2Proof.Machine
end

