-- ==== Sys2Proof/Machine/Reset.lean ====
section
/-! DEFINITION. The write sets of the commands (R126) and the two resets (70_reset_and_hazards.md). -/

namespace Sys2Proof.Machine

/-- The primitive steps of a command: ENCODE and DECODE are their step lists (R118, R119), a primitive is itself. -/
def primitives : Instr → List Instr
  | .encode => [.count, .build, .genCodes, .serialize, .pack]
  | .decode => [.deserialize, .unpack]
  | i       => [i]

/-- The command PENDING_WORD selects, if it is legal (R50, R124). -/
def pendingInstr (s : State) : Option Instr := (decode s.pendingWord).toOption

/-- Whether a buffer is in a primitive's write set (R126). -/
def primitiveWritesBuffer : Instr → Buffer → Bool
  | .serialize, .treeBuf => true
  | .pack, .payBuf       => true
  | .unpack, .outBuf     => true
  | _, _                 => false

/-- Whether a buffer is in the pending command's write set; an illegal word writes none (R126). -/
def pendingWritesBuffer (s : State) (b : Buffer) : Bool :=
  match pendingInstr s with
  | none   => false
  | some i => (primitives i).any fun j => primitiveWritesBuffer j b

/-- Every register and hidden state at its value of R144; the capacities, the buffers, the draw counters, the host's
last read and the schedule keep theirs. -/
def resetRegisters (s : State) : State :=
  { State.reset with
    caps := s.caps, mem := s.mem, draws := s.draws, readData := s.readData, inputs := s.inputs }

/-- A draw for every byte of each listed buffer. -/
def redrawAll : List Buffer → State → State
  | [], s      => s
  | b :: bs, s => redrawAll bs (s.redraw b)

/-- The buffers a soft reset turns into draws: those of the aborted command's write set (R143). -/
def abortedBuffers (s : State) : List Buffer :=
  if s.status.busy then
    [Buffer.treeBuf, .inBuf, .payBuf, .outBuf].filter fun b => pendingWritesBuffer s b
  else []

/-- Soft reset (R143). -/
def softReset (s : State) : State := redrawAll (abortedBuffers s) (resetRegisters s)

/-- Power-on reset (R142): the registers of R144 and a draw for every buffer byte (R65). -/
def powerOn (s : State) : State :=
  redrawAll [.treeBuf, .inBuf, .payBuf, .outBuf] (resetRegisters s)

end Sys2Proof.Machine
end

