-- ==== Sys2Proof/Machine/Registers.lean ====
section
/-! DEFINITION. The register window (R23): which register stands at an offset, what it reads as, and what a host write
does to it. -/

namespace Sys2Proof.Machine

/-- The registers of the map (R23). -/
inductive Reg where
  | id
  | version
  | ctrl
  | cmd
  | status
  | error
  | errPos
  | intStatus
  | inLen
  | treeLen
  | payLen
  | outLen
  | padCount
  | totalBits
  | leafCount
  | nodeCount
  | treeUsed
  | maxDepth
  | codeSel
  | codeLen
  | codeWord (k : Fin 8)
  | capIn
  | capPay
  | capOut
  | freq (s : Byte)
deriving DecidableEq, Repr

/-- The register at a word-aligned offset of the register window; none where the offset is reserved (R23). -/
def regAt (off : Nat) : Option Reg :=
  if off = 0x000 then some .id
  else if off = 0x004 then some .version
  else if off = 0x008 then some .ctrl
  else if off = 0x00C then some .cmd
  else if off = 0x010 then some .status
  else if off = 0x014 then some .error
  else if off = 0x018 then some .errPos
  else if off = 0x01C then some .intStatus
  else if off = 0x020 then some .inLen
  else if off = 0x024 then some .treeLen
  else if off = 0x028 then some .payLen
  else if off = 0x02C then some .outLen
  else if off = 0x030 then some .padCount
  else if off = 0x034 then some .totalBits
  else if off = 0x038 then some .leafCount
  else if off = 0x03C then some .nodeCount
  else if off = 0x040 then some .treeUsed
  else if off = 0x044 then some .maxDepth
  else if off = 0x048 then some .codeSel
  else if off = 0x04C then some .codeLen
  else if 0x050 ≤ off ∧ off < 0x070 then some (.codeWord (Fin.ofNat 8 ((off - 0x050) / 4)))
  else if off = 0x070 then some .capIn
  else if off = 0x074 then some .capPay
  else if off = 0x078 then some .capOut
  else if 0x400 ≤ off ∧ off < 0x800 then some (.freq (BitVec.ofNat 8 ((off - 0x400) / 4)))
  else none

/-- The current value of a register (R23 to R45). -/
def readReg (s : State) : Reg → Word
  | .id         => 0x48434200
  | .version    => 0x00000001
  | .ctrl       => ctrlWord s
  | .cmd        => 0
  | .status     => statusWord s
  | .error      => errorWord s
  | .errPos     => s.errPos
  | .intStatus  => intStatusWord s
  | .inLen      => s.inLen
  | .treeLen    => s.treeLen
  | .payLen     => s.payLen
  | .outLen     => s.outLen
  | .padCount   => s.padCount.setWidth 32
  | .totalBits  => s.totalBits
  | .leafCount  => s.leafCount.setWidth 32
  | .nodeCount  => s.nodeCount.setWidth 32
  | .treeUsed   => s.treeUsed.setWidth 32
  | .maxDepth   => s.maxDepth.setWidth 32
  | .codeSel    => s.codeSel.setWidth 32
  | .codeLen    => codeLenWord s
  | .codeWord k => codeWord s k.val
  | .capIn      => BitVec.ofNat 32 s.caps.maxIn
  | .capPay     => BitVec.ofNat 32 s.caps.maxPay
  | .capOut     => BitVec.ofNat 32 s.caps.maxOut
  | .freq b     => tableGet s.freq b

/-! ### Reads during BUSY (R55, R126) -/

/-- Whether a register is in a primitive's write set, ERROR and ERR_POS apart; of STATUS only fields are, see
`primitiveWritesTreeState` and `primitiveWritesCodesValid` (R126). -/
def primitiveWritesReg : Instr → Reg → Bool
  | .count, .freq _           => true
  | .build, .leafCount        => true
  | .build, .nodeCount        => true
  | .genCodes, .codeLen       => true
  | .genCodes, .codeWord _    => true
  | .genCodes, .maxDepth      => true
  | .serialize, .treeLen      => true
  | .deserialize, .leafCount  => true
  | .deserialize, .nodeCount  => true
  | .deserialize, .treeUsed   => true
  | .pack, .payLen            => true
  | .pack, .padCount          => true
  | .pack, .totalBits         => true
  | .unpack, .outLen          => true
  | .unpack, .padCount        => true
  | .unpack, .totalBits       => true
  | _, _                      => false

/-- Whether STATUS.TREE_STATE is in a primitive's write set (R126). -/
def primitiveWritesTreeState : Instr → Bool
  | .build       => true
  | .deserialize => true
  | _            => false

/-- Whether STATUS.CODES_VALID is in a primitive's write set (R126). -/
def primitiveWritesCodesValid : Instr → Bool
  | .build       => true
  | .genCodes    => true
  | .deserialize => true
  | _            => false

/-- Whether some primitive of the pending command has a property; an illegal word has none (R126). -/
def pendingAny (s : State) (p : Instr → Bool) : Bool :=
  match pendingInstr s with
  | none   => false
  | some i => (primitives i).any p

/-- Whether a register is in the write set of the pending command; ERROR and ERR_POS always are (R126). -/
def pendingWritesReg (s : State) : Reg → Bool
  | .error  => true
  | .errPos => true
  | r       => pendingAny s fun i => primitiveWritesReg i r

/-- The bits a register of a write set implements; its other bits are reserved and read 0 (R23, R29, R36 to R42). -/
def implementedBits : Reg → Word
  | .error     => 0x00FFFFFF
  | .padCount  => 0x00000007
  | .leafCount => 0x000001FF
  | .nodeCount => 0x000003FF
  | .treeUsed  => 0x000003FF
  | .maxDepth  => 0x000000FF
  | .codeLen   => 0x000000FF
  | _          => 0xFFFFFFFF

/-- STATUS as read during BUSY from the drawn value `d`. TREE_STATE and CODES_VALID are drawn where the pending command's
write set has them (R126, which R73 names as the set R55 uses; log entry 24), TREE_STATE never as 3 (R28; log entry 9);
every other field reads exactly (R126). -/
def busyStatusWord (d : Word) (s : State) : Word :=
  statusWordOf s.status
    (if pendingAny s primitiveWritesTreeState then d.toNat % 3 else s.tree.code)
    (if pendingAny s primitiveWritesCodesValid then d.getLsbD 31 else s.status.codesValid)

/-- A register as the host reads it (R55): its current value, but for the locations of the pending command's write
set while BUSY, which read as the drawn value `d` (log entry 9). -/
def hostReadReg (d : Word) (s : State) (r : Reg) : Word :=
  if s.status.busy then
    if r = .status then busyStatusWord d s
    else if pendingWritesReg s r then d &&& implementedBits r
    else readReg s r
  else readReg s r

/-! ### Host writes -/

/-- A host write dropped because BUSY = 1 (R55). -/
def dropWrite (s : State) : State := { s with status := { s.status with busyAccess := true } }

/-- A host write to CTRL (R26, R143). -/
def writeCtrl (v : Word) (s : State) : State :=
  if v.getLsbD 1 then softReset s else { s with irqEn := v.getLsbD 0 }

/-- A host write to INT_STATUS (R31). -/
def writeIntStatus (v : Word) (s : State) : State :=
  if v.getLsbD 0 then { s with done := false } else s

/-- A host write to a register that BUSY protects, while BUSY = 0: the RW registers store it, and a read-only register
ignores it (R23, R32 to R34, R41). -/
def storeReg (r : Reg) (v : Word) (s : State) : State :=
  match r with
  | .inLen   => { s with inLen := v }
  | .treeLen => { s with treeLen := v }
  | .payLen  => { s with payLen := v }
  | .codeSel => { s with codeSel := v.extractLsb' 0 8 }
  | _        => s

/-- A host write to a register (R55, R123; log entry 10). -/
def hostWriteReg (r : Reg) (v : Word) (s : State) : State :=
  match r with
  | .ctrl      => writeCtrl v s
  | .intStatus => writeIntStatus v s
  | .cmd       => issue v s
  | _          => if s.status.busy then dropWrite s else storeReg r v s

end Sys2Proof.Machine
end

