-- ==== Sys2Proof/Machine/Bus.lean ====
section
/-! DEFINITION. The host window (20_memory.md): which location an access reaches, and what a read returns and a write
does there. -/

namespace Sys2Proof.Machine

/-- The window offset of a platform address; none outside the 64 MiB window (R56, R58). -/
def windowOffset (addr : Nat) : Option Nat :=
  if Config.hcbBase ≤ addr ∧ addr < Config.hcbBase + windowSize then some (addr - Config.hcbBase) else none

/-- What an access reaches (R57, R61). -/
inductive Target where
  /-- An aligned 32-bit access to a register of the map. -/
  | reg (r : Reg)
  /-- An accepted access to `n` bytes of a buffer window from byte index `i` on. -/
  | buffer (b : Buffer) (i n : Nat)
  /-- Reserved space, or an access that is not accepted: reads 0, ignored on write, no side effect. -/
  | none
deriving DecidableEq, Repr

/-- The buffer window at an offset, with the byte index in it (R57). -/
def bufferAt (off : Nat) : Option (Buffer × Nat) :=
  if 0x1000 ≤ off ∧ off < 0x1300 then some (.treeBuf, off - 0x1000)
  else if 0x01000000 ≤ off ∧ off < 0x02000000 then some (.inBuf, off - 0x01000000)
  else if 0x02000000 ≤ off ∧ off < 0x03000000 then some (.payBuf, off - 0x02000000)
  else if 0x03000000 ≤ off ∧ off < 0x04000000 then some (.outBuf, off - 0x03000000)
  else none

/-- The bytes an accepted buffer access moves: 8-bit at any offset, 32-bit at a multiple of 4 (R61). -/
def bufferBytes (width : Width) (off : Nat) : Option Nat :=
  match width with
  | .w8  => some 1
  | .w32 => if off % 4 = 0 then some 4 else none
  | .w16 => none
  | .w64 => none

/-- What an access of a width at a window offset reaches (R57, R61). -/
def target (off : Nat) (width : Width) : Target :=
  if off < 0x1000 then
    if width = .w32 ∧ off % 4 = 0 then
      match regAt off with
      | some r => .reg r
      | none   => .none
    else .none
  else
    match bufferAt off, bufferBytes width off with
    | some (b, i), some n => .buffer b i n
    | _, _                => .none

/-- Little-endian: byte `j` of a value (R59). -/
def byteOf (v : Word) (j : Nat) : Byte := v.extractLsb' (8 * j) 8

/-- Little-endian: bytes to a value, the first byte the least significant (R59). -/
def wordOfBytes : List Byte → Nat
  | []      => 0
  | b :: bs => b.toNat + 256 * wordOfBytes bs

/-! ### Reads -/

/-- Whether a buffer reads as a draw: it is in the write set of the pending command (R55, R126). -/
def bufferDrawn (s : State) (b : Buffer) : Bool := s.status.busy && pendingWritesBuffer s b

/-- Byte `j` of an access to a buffer from index `i` on, with `d` the drawn value: 0 at or past the capacity (R61). -/
def hostReadByte (d : Word) (s : State) (b : Buffer) (i j : Nat) : Byte :=
  if i + j < b.cap s.caps then
    if bufferDrawn s b then byteOf d j else s.bufByte b (i + j)
  else 0

/-- The value a read returns, with `d` the value drawn for it (R55, R59, R61). -/
def readValue (d : Word) (s : State) : Target → Word
  | .reg r        => hostReadReg d s r
  | .buffer b i n => BitVec.ofNat 32 (wordOfBytes ((List.range n).map (hostReadByte d s b i)))
  | .none         => 0

/-- Whether a read draws: it is during BUSY, and the draw number must not serve a second read. -/
def readDraws (s : State) : Bool := s.status.busy

/-- A host read: the value goes to the host, and nothing in the block changes (R63). -/
def hostRead (t : Target) (s : State) : State :=
  { s with
    readData := readValue (Config.freeWord s.draws.next) s t
    draws := if readDraws s then { s.draws with next := s.draws.next + 1 } else s.draws }

/-! ### Writes -/

/-- Byte `j` of an accepted write to a buffer from index `i` on: stored below the capacity, ignored from it on
(R61). -/
def hostWriteByte (b : Buffer) (i : Nat) (v : Word) (s : State) (j : Nat) : State :=
  if i + j < b.cap s.caps then s.setBuf b (i + j) (byteOf v j) else s

/-- An accepted write to a buffer window: dropped while BUSY where it reaches a buffer byte (R55), ignored by OUT_BUF
(R57), else stored (R61; log entry 10). -/
def hostWriteBuffer (b : Buffer) (i n : Nat) (v : Word) (s : State) : State :=
  if s.status.busy then
    if i < b.cap s.caps then dropWrite s else s
  else if b = .outBuf then s
  else (List.range n).foldl (hostWriteByte b i v) s

/-- A host write. -/
def hostWrite (t : Target) (v : Word) (s : State) : State :=
  match t with
  | .reg r        => hostWriteReg r v s
  | .buffer b i n => hostWriteBuffer b i n v s
  | .none         => s

/-- A host access at a window offset. -/
def windowAccess (off : Nat) (width : Width) (op : BusOp) (s : State) : State :=
  match op with
  | .read    => hostRead (target off width) s
  | .write d => hostWrite (target off width) (d.setWidth 32) s

/-- One HOST step: an access outside the window does not reach the block (R58; log entry 2). -/
def hostStep (a : BusAccess) (s : State) : State :=
  match windowOffset a.addr with
  | some off => windowAccess off a.width a.op s
  | none     => s

end Sys2Proof.Machine
end

