-- ==== Sys2Proof/Machine/Operands.lean ====
section
/-! DEFINITION. The implicit operands of the commands (R73) and the layout of the payload's bits (R80, R81, R108). -/

namespace Sys2Proof.Machine

/-- IN_BUF[0 .. IN_LEN-1], the operand of COUNT and PACK (R84, R109). -/
def inBytes (s : State) : List Byte := s.readBuf .inBuf s.inLen.toNat

/-- TREE_BUF[0 .. TREE_LEN-1], the operand of DESERIALIZE (R102). -/
def treeBytes (s : State) : List Byte := s.readBuf .treeBuf s.treeLen.toNat

/-- byte(b0 .. b7) of R108: the first bit is the most significant. -/
def byteOfBits (b0 b1 b2 b3 b4 b5 b6 b7 : Bool) : Byte :=
  BitVec.ofNat 8 (b0.toNat * 2 ^ 7 + b1.toNat * 2 ^ 6 + b2.toNat * 2 ^ 5 + b3.toNat * 2 ^ 4 +
    b4.toNat * 2 ^ 3 + b5.toNat * 2 ^ 2 + b6.toNat * 2 ^ 1 + b7.toNat * 2 ^ 0)

/-- Eight bits to a byte, from the first bit on (R108); fewer than eight bits left over make no byte. -/
def packBytes : Bits → List Byte
  | b0 :: b1 :: b2 :: b3 :: b4 :: b5 :: b6 :: b7 :: rest =>
    byteOfBits b0 b1 b2 b3 b4 b5 b6 b7 :: packBytes rest
  | _ => []

/-- The Padding Count of `n` data bits (R81). -/
def padOf (n : Nat) : Nat := (8 - n % 8) % 8

/-- bit(j) of R108: data bit `j` of the payload in PAY_BUF. -/
def payloadBit (s : State) (j : Nat) : Bool := (s.bufByte .payBuf (1 + j / 8)).getLsbD (7 - j % 8)

/-- The first `n` data bits of the payload in PAY_BUF. -/
def payloadBits (s : State) (n : Nat) : Bits := (List.range n).map (payloadBit s)

end Sys2Proof.Machine
end

