-- ==== Sys2Proof/Machine/BitPacker.lean ====
section
/-! DEFINITION. The bit packer and unpacker: PACK and UNPACK (44_bit_packer.md). -/

namespace Sys2Proof.Machine

/-- `raise E(0, i)` of PACK's loop (R109). -/
structure PackFail where
  kind : ErrorKind
  pos  : Nat
deriving DecidableEq, Repr

/-- The loop of PACK (R109) from input index `i` on, with the data bits so far and the capacity in bits. -/
def packLoop (codes : Table Bits) (capacity : Nat) : Nat → Bits → List Byte → Except PackFail Bits
  | _, acc, []      => .ok acc
  | i, acc, b :: bs =>
    if (tableGet codes b).length = 0 then .error { kind := .symbolNotInTable, pos := i }
    else if capacity < (acc ++ tableGet codes b).length then .error { kind := .payloadOverflow, pos := i }
    else packLoop codes capacity (i + 1) (acc ++ tableGet codes b) bs

/-- The payload of the data bits `bits` (R80, R109): the Padding Count, then the bits with their filler. -/
def payloadOf (bits : Bits) : List Byte :=
  BitVec.ofNat 8 (padOf bits.length) :: packBytes (bits ++ List.replicate (padOf bits.length) false)

/-- What a successful PACK writes (R109). -/
def writePayload (bits : Bits) (s : State) : State :=
  { s.writeBuf .payBuf 0 (payloadOf bits) with
    payLen := BitVec.ofNat 32 (payloadOf bits).length
    padCount := BitVec.ofNat 3 (padOf bits.length)
    totalBits := BitVec.ofNat 32 bits.length }

/-- What PACK leaves when its loop raises (R110): PAY_LEN = 0 and every byte of PAY_BUF a draw. -/
def spoilPayload (s : State) : State := { s.redraw .payBuf with payLen := 0 }

/-- The pseudocode of PACK (R109). -/
def runPack (s : State) : CmdResult :=
  if s.status.codesValid = false then
    .raised s { kind := .noCodes, detail := 0, pos := 0, stage := opcode .pack }
  else if s.caps.maxIn < s.inLen.toNat then
    .raised s { kind := .lengthRange, detail := 1, pos := s.inLen.toNat, stage := opcode .pack }
  else
    match packLoop s.codes (8 * (s.caps.maxPay - 1)) 0 [] (inBytes s) with
    | .ok bits => .complete (writePayload bits s)
    | .error e => .raised (spoilPayload s) { kind := e.kind, detail := 0, pos := e.pos, stage := opcode .pack }

/-- PACK (R109, R125). -/
def execPack (s : State) : Host.Outcome State Fault Refusal := .next (finish (runPack s))

/-- subtree(t, q) of R112, where it is defined. -/
def subtree : HuffTree → Bits → Option HuffTree
  | t, []                 => some t
  | .leaf _, _ :: _       => none
  | .node l _, false :: q => subtree l q
  | .node _ r, true :: q  => subtree r q

/-- The symbol due after the bit that ends the walk `q` (R112): the root's own for a single-leaf tree, whose walk
never leaves the root (R113), and else that of the leaf reached, if one is. -/
def symbolDue (t : HuffTree) (q : Bits) : Option Byte :=
  match t with
  | .leaf s   => some s
  | .node _ _ =>
    match subtree t q with
    | some (.leaf s) => some s
    | _              => none

/-- How UNPACK's walk ends: the symbols decoded, and the walk position or the bit at which OUT_BUF was full. -/
inductive WalkEnd where
  | atBit (out : List Byte) (q : Bits)
  | full (out : List Byte) (j : Nat)
deriving DecidableEq, Repr

/-- The loop of UNPACK (R112) from data bit `j` on, with the walk position `q` and the symbols decoded. -/
def walk (t : HuffTree) (maxOut : Nat) : Nat → Bits → List Byte → Bits → WalkEnd
  | _, q, out, []      => .atBit out q
  | j, q, out, b :: bs =>
    match symbolDue t (q ++ [b]) with
    | some s => if out.length = maxOut then .full out j else walk t maxOut (j + 1) [] (out ++ [s]) bs
    | none   => walk t maxOut (j + 1) (q ++ [b]) out bs

/-- UNPACK's output: OUT_BUF[0 ..] and OUT_LEN, with the PAD_COUNT and TOTAL_BITS of this payload (R112). -/
def writeOutput (pad dataBits : Nat) (out : List Byte) (s : State) : State :=
  { s.writeBuf .outBuf 0 out with
    outLen := BitVec.ofNat 32 out.length
    padCount := BitVec.ofNat 3 pad
    totalBits := BitVec.ofNat 32 dataBits }

/-- UNPACK of a payload that passed its checks: `pad` filler bits and `dataBits` data bits (R112). -/
def unpackWalk (t : HuffTree) (pad dataBits : Nat) (s : State) : CmdResult :=
  match walk t s.caps.maxOut 0 [] [] (payloadBits s dataBits) with
  | .full out j =>
    .raised (writeOutput pad dataBits out s)
      { kind := .outputOverflow, detail := 0, pos := j, stage := opcode .unpack }
  | .atBit out [] => .complete (writeOutput pad dataBits out s)
  | .atBit out (_ :: _) =>
    .raised (writeOutput pad dataBits out s)
      { kind := .truncatedPayload, detail := 1, pos := dataBits, stage := opcode .unpack }

/-- The Padding Count checks of UNPACK, then the walk (R112); `p` is PAY_BUF[0] and `room` the bits after it. -/
def unpackChecked (t : HuffTree) (p room : Nat) (s : State) : CmdResult :=
  if 7 < p then
    .raised { s with outLen := 0 } { kind := .badPadding, detail := 1, pos := 0, stage := opcode .unpack }
  else if room < p then
    .raised { s with outLen := 0 } { kind := .badPadding, detail := 2, pos := 0, stage := opcode .unpack }
  else unpackWalk t p (room - p) s

/-- UNPACK with a tree register that is not NONE and a PAY_LEN in range (R112). -/
def unpackLoaded (t : TreeReg) (s : State) : CmdResult :=
  if s.payLen.toNat = 0 then
    .raised { s with outLen := 0 } { kind := .truncatedPayload, detail := 2, pos := 0, stage := opcode .unpack }
  else
    match t with
    | .present t => unpackChecked t (s.bufByte .payBuf 0).toNat (8 * (s.payLen.toNat - 1)) s
    | _          => .complete { s with outLen := 0 }

/-- The pseudocode of UNPACK (R112). -/
def runUnpack (s : State) : CmdResult :=
  if s.tree = .none then
    .raised s { kind := .noTree, detail := 0, pos := 0, stage := opcode .unpack }
  else if s.caps.maxPay < s.payLen.toNat then
    .raised s { kind := .lengthRange, detail := 3, pos := s.payLen.toNat, stage := opcode .unpack }
  else unpackLoaded s.tree s

/-- UNPACK (R112, R125). -/
def execUnpack (s : State) : Host.Outcome State Fault Refusal := .next (finish (runUnpack s))

end Sys2Proof.Machine
end

