-- ==== Sys2Proof/Machine/CodeTable.lean ====
section
/-! DEFINITION. The code table generator: GEN_CODES (42_code_table.md). -/

namespace Sys2Proof.Machine

/-- The code table as `visit` fills it, with MAX_DEPTH beside it (R96). -/
structure CodeGen where
  codes    : Table Bits
  maxDepth : Nat
deriving DecidableEq, Repr

/-- visit (R96): a leaf writes its code; descent left appends 0, descent right appends 1; left before right. -/
def visit : HuffTree → Bits → CodeGen → CodeGen
  | .leaf s, p, g   => { codes := tableSet g.codes s p, maxDepth := max g.maxDepth p.length }
  | .node l r, p, g => visit r (p ++ [true]) (visit l (p ++ [false]) g)

/-- The empty table (R46, R96). -/
def emptyGen : CodeGen := { codes := Vector.replicate 256 [], maxDepth := 0 }

/-- The table of a tree; a single leaf gets the one-bit code "0" (R95, R96). -/
def genOfTree : HuffTree → CodeGen
  | .leaf s   => { codes := tableSet emptyGen.codes s [false], maxDepth := 1 }
  | .node l r => visit (.node l r) [] emptyGen

/-- What GEN_CODES writes (R96; for MAX_DEPTH, which R40 says otherwise of a repeated symbol, log entry 11). -/
def writeCodes (g : CodeGen) (s : State) : State :=
  { s with
    codes := g.codes
    maxDepth := BitVec.ofNat 8 g.maxDepth
    status := { s.status with codesValid := true } }

/-- The pseudocode of GEN_CODES (R96). -/
def runGenCodes (s : State) : CmdResult :=
  match s.tree with
  | .none      => .raised s { kind := .noTree, detail := 0, pos := 0, stage := opcode .genCodes }
  | .absent    => .complete (writeCodes emptyGen s)
  | .present t => .complete (writeCodes (genOfTree t) s)

/-- GEN_CODES (R96, R125). -/
def execGenCodes (s : State) : Host.Outcome State Fault Refusal := .next (finish (runGenCodes s))

end Sys2Proof.Machine
end

