-- ==== Sys2Proof/Machine/Frequency.lean ====
section
/-! DEFINITION. The frequency analyzer: COUNT (40_frequency.md). -/

namespace Sys2Proof.Machine

/-- F[b] <- F[b] + 1 (R84). -/
def countByte (f : Table Word) (b : Byte) : Table Word := tableSet f b (tableGet f b + 1)

/-- The counts of a byte sequence (R84). -/
def countTable (bs : List Byte) : Table Word := bs.foldl countByte (Vector.replicate 256 0)

/-- The pseudocode of COUNT (R84). -/
def runCount (s : State) : CmdResult :=
  if s.caps.maxIn < s.inLen.toNat then
    .raised s { kind := .lengthRange, detail := 1, pos := s.inLen.toNat, stage := opcode .count }
  else
    .complete { s with freq := countTable (inBytes s) }

/-- COUNT (R84, R125). -/
def execCount (s : State) : Host.Outcome State Fault Refusal := .next (finish (runCount s))

end Sys2Proof.Machine
end

