-- ==== Sys2Proof/Machine/TreeBuilder.lean ====
section
/-! DEFINITION. The tree builder: BUILD (41_tree_builder.md). -/

namespace Sys2Proof.Machine

/-- An element of the priority queue: its key (weight, seq) and the node it stands for (R86, R88), a tree value here
and an arena index in Machine/Arena.lean. -/
structure QueueItem (α : Type) where
  weight : Nat
  seq    : Nat
  node   : α
deriving DecidableEq, Repr

/-- Keys compare lexicographically (R86). -/
def QueueItem.keyLt {α : Type} (x y : QueueItem α) : Bool :=
  decide (x.weight < y.weight) || (decide (x.weight = y.weight) && decide (x.seq < y.seq))

/-- The queue is held in rising key order, so that its first element is `min_key` (R52: the layout cannot be
observed). -/
def enqueue {α : Type} (x : QueueItem α) : List (QueueItem α) → List (QueueItem α)
  | []      => [x]
  | y :: ys => if x.keyLt y then x :: y :: ys else y :: enqueue x ys

/-- The symbols present, ascending (R88: `S`). -/
def presentSymbols (f : Table Word) : List Byte := allSymbols.filter fun b => tableGet f b ≠ 0

/-- The queue element of a symbol's leaf (R86, R88). -/
def leafItem (f : Table Word) (b : Byte) : QueueItem HuffTree :=
  { weight := (tableGet f b).toNat, seq := b.toNat, node := .leaf b }

/-- The queue before the first merge (R88). -/
def initialQueue (f : Table Word) : List (QueueItem HuffTree) :=
  (presentSymbols f).foldl (fun q b => enqueue (leafItem f b) q) []

/-- Merge number `k` of the first extracted `x` and the second extracted `y`: `y` becomes the left child, `x` the
right (R86, R87). -/
def mergeItems (k : Nat) (x y : QueueItem HuffTree) : QueueItem HuffTree :=
  { weight := x.weight + y.weight, seq := 256 + k, node := .node y.node x.node }

/-- The merge loop of R88: at most `fuel` merges, numbered from `k`. -/
def mergeLoop : Nat → Nat → List (QueueItem HuffTree) → List (QueueItem HuffTree)
  | fuel + 1, k, x :: y :: q => mergeLoop fuel (k + 1) (enqueue (mergeItems k x y) q)
  | _, _, q => q

/-- What BUILD leaves in TREE (R88): n symbols take n - 1 merges. -/
def buildTree (f : Table Word) : TreeReg :=
  match mergeLoop (presentSymbols f).length 0 (initialQueue f) with
  | []     => .absent
  | x :: _ => .present x.node

/-- The pseudocode of BUILD (R88). -/
def runBuild (s : State) : CmdResult :=
  .complete { s with
    status := { s.status with codesValid := false }
    tree := buildTree s.freq
    leafCount := BitVec.ofNat 9 (presentSymbols s.freq).length
    nodeCount := BitVec.ofNat 10 (2 * (presentSymbols s.freq).length - 1) }

/-- BUILD (R88, R125). -/
def execBuild (s : State) : Host.Outcome State Fault Refusal := .next (finish (runBuild s))

end Sys2Proof.Machine
end

