-- ==== Sys2Proof/Machine/TreeCodec.lean ====
section
/-! DEFINITION. The tree codec: SERIALIZE and DESERIALIZE (43_tree_codec.md), with the equivalent iterative scan of
R103. -/

namespace Sys2Proof.Machine

/-- LEAF_MARK, ASCII '1' (R9, R78). -/
def leafMark : Byte := 0x31

/-- INT_MARK, ASCII '0' (R9, R78). -/
def intMark : Byte := 0x30

/-- ser (R101): pre-order, no escape. -/
def ser : HuffTree → List Byte
  | .leaf s   => [leafMark, s]
  | .node l r => intMark :: (ser l ++ ser r)

/-- The number of leaves of a tree (R38). -/
def HuffTree.numLeaves : HuffTree → Nat
  | .leaf _   => 1
  | .node l r => l.numLeaves + r.numLeaves

/-- The number of nodes of a tree (R38). -/
def HuffTree.numNodes : HuffTree → Nat
  | .leaf _   => 1
  | .node l r => l.numNodes + r.numNodes + 1

/-- The pseudocode of SERIALIZE (R101). -/
def runSerialize (s : State) : CmdResult :=
  match s.tree with
  | .none      => .raised s { kind := .noTree, detail := 0, pos := 0, stage := opcode .serialize }
  | .absent    => .complete { s with treeLen := 0 }
  | .present t => .complete { s.writeBuf .treeBuf 0 (ser t) with treeLen := BitVec.ofNat 32 (ser t).length }

/-- SERIALIZE (R101, R125). -/
def execSerialize (s : State) : Host.Outcome State Fault Refusal := .next (finish (runSerialize s))

/-- `fail(d, q)` of R102. -/
structure ParseFail where
  detail : Byte
  pos    : Nat
deriving DecidableEq, Repr

/-- parse (R102) on the bytes not yet consumed of a stream of `len` bytes, so that `pos` is `len` less their number.
Answers the tree and the bytes left. A fuel of the number of bytes left is enough: each call consumes a byte. -/
def parse (len : Nat) : Nat → List Byte → Except ParseFail (HuffTree × List Byte)
  | fuel + 1, m :: rest =>
    if m = leafMark then
      match rest with
      | []         => .error { detail := 1, pos := len }
      | s :: rest' => .ok (.leaf s, rest')
    else if m = intMark then
      match parse len fuel rest with
      | .error e         => .error e
      | .ok (l, restL) =>
        match parse len fuel restL with
        | .error e       => .error e
        | .ok (r, restR) => .ok (.node l r, restR)
    else .error { detail := 2, pos := len - (rest.length + 1) }
  | _, _ => .error { detail := 1, pos := len }

/-- parse from the first byte of a stream (R102). -/
def parseStream (bs : List Byte) : Except ParseFail (HuffTree × List Byte) := parse bs.length bs.length bs

/-- What DESERIALIZE writes when it ends with the given tree register, leaf count, node count and bytes used; in
every such case CODES_VALID <- 0 (R102). -/
def loadTree (t : TreeReg) (leaves nodes used : Nat) (s : State) : State :=
  { s with
    status := { s.status with codesValid := false }
    tree := t
    leafCount := BitVec.ofNat 9 leaves
    nodeCount := BitVec.ofNat 10 nodes
    treeUsed := BitVec.ofNat 10 used }

/-- The pseudocode of DESERIALIZE (R102). -/
def runDeserialize (s : State) : CmdResult :=
  if treeBufSize < s.treeLen.toNat then
    .raised s { kind := .lengthRange, detail := 2, pos := s.treeLen.toNat, stage := opcode .deserialize }
  else if s.treeLen.toNat = 0 then
    .complete (loadTree .absent 0 0 0 s)
  else
    match parseStream (treeBytes s) with
    | .ok (t, rest) =>
      .complete (loadTree (.present t) t.numLeaves t.numNodes (s.treeLen.toNat - rest.length) s)
    | .error e =>
      .raised (loadTree .none 0 0 0 s)
        { kind := .malformedTree, detail := e.detail, pos := e.pos, stage := opcode .deserialize }

/-- DESERIALIZE (R102, R125). -/
def execDeserialize (s : State) : Host.Outcome State Fault Refusal := .next (finish (runDeserialize s))

/-- The counter of R103: `need` subtrees are still to be parsed from the bytes left of a stream of `len` bytes.
Answers the number of bytes used, or the failure. -/
def needScan (len : Nat) : Nat → List Byte → Except ParseFail Nat
  | 0, rest => .ok (len - rest.length)
  | _ + 1, [] => .error { detail := 1, pos := len }
  | need + 1, m :: rest =>
    if m = leafMark then
      match rest with
      | []         => .error { detail := 1, pos := len }
      | _ :: rest' => needScan len need rest'
    else if m = intMark then needScan len (need + 2) rest
    else .error { detail := 2, pos := len - (rest.length + 1) }

end Sys2Proof.Machine
end

