-- ==== Sys2Proof/Machine/Sequences.lean ====
section
/-! DEFINITION. NOP, the sequencing commands ENCODE and DECODE (45_sequences_system.md), and the completion of an
illegal command word (R128). -/

namespace Sys2Proof.Machine

/-- The pseudocode of NOP (R117). -/
def runNop (s : State) : CmdResult := .complete s

/-- NOP (R117, R125). -/
def execNop (s : State) : Host.Outcome State Fault Refusal := .next (finish (runNop s))

/-- The step list of R118 and R119: each step sees what the steps before it wrote, and the first error ends it. The
stage an error names is the failing step's own opcode. -/
def runSteps : List (State → CmdResult) → State → CmdResult
  | [], s => .complete s
  | f :: fs, s =>
    match f s with
    | .complete s' => runSteps fs s'
    | .raised s' r => .raised s' r

/-- The pseudocode of ENCODE (R118). -/
def runEncode (s : State) : CmdResult :=
  runSteps [runCount, runBuild, runGenCodes, runSerialize, runPack] s

/-- ENCODE (R118, R125). -/
def execEncode (s : State) : Host.Outcome State Fault Refusal := .next (finish (runEncode s))

/-- The pseudocode of DECODE (R119). -/
def runDecode (s : State) : CmdResult := runSteps [runDeserialize, runUnpack] s

/-- DECODE (R119, R125). -/
def execDecode (s : State) : Host.Outcome State Fault Refusal := .next (finish (runDecode s))

/-- The detail of ILLEGAL_CMD (R76, R127). -/
def illegalDetail : IllegalWord → Byte
  | .unknownOpcode => 1
  | .reservedBits  => 2

/-- The completion of an illegal command word (R128): nothing changes but the completion state. -/
def illegalCommand (e : IllegalWord) (s : State) : State :=
  finish (.raised s { kind := .illegalCmd, detail := illegalDetail e, pos := 0,
                      stage := opcodeField s.pendingWord })

end Sys2Proof.Machine
end

