-- ==== Sys2Proof/Machine/Step.lean ====
section
/-! DEFINITION. One step of the machine: the next event of the schedule (R13), and how a command word is placed so that
the next step runs it. -/

namespace Sys2Proof.Machine

/-- The ENGINE step (R124): the illegal-word check first (R128), then the command PENDING_WORD selects. -/
def engineStep (s : State) : Host.Outcome State Fault Refusal :=
  match decode s.pendingWord with
  | .ok i    => exec i s
  | .error e => .next (illegalCommand e s)

/-- A turn of the ENGINE: its step is enabled exactly when BUSY = 1 (R124); an idle block waits (R145). -/
def engineTurn (s : State) : Host.Outcome State Fault Refusal :=
  if s.status.busy then engineStep s else .next s

/-- One step (R13, R142): the next event of the schedule; with none left, a turn of the ENGINE (R147; log entry 3). -/
def step (s : State) : Host.Outcome State Fault Refusal :=
  match s.inputs with
  | []                => engineTurn s
  | .engine :: rest   => engineTurn { s with inputs := rest }
  | .host a :: rest   => .next (hostStep a { s with inputs := rest })
  | .powerOn :: rest  => .next (powerOn { s with inputs := rest })

/-- The state in which the command word that the low `nbits` bits of `w` spell has just been issued (R123) and the
ENGINE's turn is next, so that the very next step runs it (log entry 16). -/
def State.withFetchWord (s : State) (nbits w : Nat) : State :=
  { accept (BitVec.ofNat 32 (w % 2 ^ nbits)) s with inputs := .engine :: s.inputs }

end Sys2Proof.Machine
end

