-- ==== Sys2Proof/Machine/Arena.lean ====
section
/-! DEFINITION. The node arena of R51, R52 and R89 (informative): how BUILD and DESERIALIZE place a tree's nodes, and the
tree value an arena represents. State holds the value alone, as R51 allows (log entry 12); no step reads this file. -/

namespace Sys2Proof.Machine

/-- One entry of the arena (R51). WEIGHT is written by BUILD only. -/
inductive ArenaNode where
  | leaf (sym : Byte) (weight : Option Word)
  | internal (left right : BitVec 9) (weight : Option Word)
deriving DecidableEq, Repr

/-- The arena's entries in use and ROOT (R51). -/
structure Arena where
  nodes : List ArenaNode
  root  : BitVec 9
deriving DecidableEq, Repr

/-- The tree below an index, found by a walk of at most `fuel` levels. -/
def treeAt (nodes : List ArenaNode) : Nat → Nat → Option HuffTree
  | 0, _ => none
  | fuel + 1, i =>
    match nodes[i]? with
    | none                    => none
    | some (.leaf s _)        => some (.leaf s)
    | some (.internal l r _)  =>
      match treeAt nodes fuel l.toNat, treeAt nodes fuel r.toNat with
      | some tl, some tr => some (.node tl tr)
      | _, _             => none

/-- The tree an arena represents. -/
def Arena.tree (a : Arena) : Option HuffTree := treeAt a.nodes a.nodes.length a.root.toNat

/-- Leaf S[j] in NODE[j] (R89). -/
def leafNode (f : Table Word) (b : Byte) : ArenaNode := .leaf b (some (tableGet f b))

/-- The heap's first contents: the indices of the leaves (R89). -/
def initialHeap (f : Table Word) : List (QueueItem Nat) :=
  (presentSymbols f).zipIdx.foldl
    (fun q bj => enqueue { weight := (tableGet f bj.1).toNat, seq := bj.1.toNat, node := bj.2 } q) []

/-- The merges of R88 on arena indices: the node of merge `k` goes to NODE[n + k] (R89). -/
def arenaLoop (n : Nat) : Nat → Nat → List (QueueItem Nat) → List ArenaNode → List ArenaNode
  | fuel + 1, k, x :: y :: q, nodes =>
    arenaLoop n fuel (k + 1) (enqueue { weight := x.weight + y.weight, seq := 256 + k, node := n + k } q)
      (nodes ++ [.internal (BitVec.ofNat 9 y.node) (BitVec.ofNat 9 x.node)
        (some (BitVec.ofNat 32 (x.weight + y.weight)))])
  | _, _, _, nodes => nodes

/-- The arena BUILD leaves (R89). -/
def buildArena (f : Table Word) : Arena :=
  { nodes := arenaLoop (presentSymbols f).length (presentSymbols f).length 0 (initialHeap f)
      ((presentSymbols f).map (leafNode f))
    root := BitVec.ofNat 9 (if (presentSymbols f).length ≤ 1 then 0 else 2 * (presentSymbols f).length - 2) }

/-- Pre-order placement from index `i` on (R51). -/
def placePreorder : HuffTree → Nat → List ArenaNode
  | .leaf s, _   => [.leaf s none]
  | .node l r, i =>
    .internal (BitVec.ofNat 9 (i + 1)) (BitVec.ofNat 9 (i + 1 + l.numNodes)) none ::
      (placePreorder l (i + 1) ++ placePreorder r (i + 1 + l.numNodes))

/-- The arena DESERIALIZE leaves, the root at index 0 (R51). -/
def preorderArena (t : HuffTree) : Arena := { nodes := placePreorder t 0, root := 0 }

end Sys2Proof.Machine
end

