-- ==== Sys2Proof/Machine/HostProgram.lean ====
section
/-! DEFINITION. The host program notation of R82 and R83, as events of the schedule. A WAIT loop of `n` polls is `n` reads
of STATUS; where the ENGINE takes its turn among them is the schedule's choice (R13, R148). -/

namespace Sys2Proof.Machine

/-- `WR32 off, v` (R82). -/
def wr32 (off : Nat) (v : Word) : Input :=
  .host { addr := Config.hcbBase + off, width := .w32, op := .write (v.setWidth 64) }

/-- `WR8 off, v` (R82). -/
def wr8 (off : Nat) (v : Byte) : Input :=
  .host { addr := Config.hcbBase + off, width := .w8, op := .write (v.setWidth 64) }

/-- `RD32 off` (R82). -/
def rd32 (off : Nat) : Input := .host { addr := Config.hcbBase + off, width := .w32, op := .read }

/-- `RD8 off` (R82). -/
def rd8 (off : Nat) : Input := .host { addr := Config.hcbBase + off, width := .w8, op := .read }

/-- `WBUF X, i, b0 b1 ...` (R82). -/
def wbuf (b : Buffer) (i : Nat) : List Byte → List Input
  | []      => []
  | v :: vs => wr8 (b.base + i) v :: wbuf b (i + 1) vs

/-- `CMD M` (R82). -/
def cmd (i : Instr) : Input := wr32 0x00C (encode i)

/-- `WAIT` with the ENGINE's turn before the poll that sees BUSY = 0, after `polls` polls that see BUSY = 1 (R82). -/
def wait (polls : Nat) : List Input := List.replicate polls (rd32 0x010) ++ [.engine, rd32 0x010]

/-- `RUN M` (R83). -/
def run (i : Instr) (polls : Nat) : List Input := cmd i :: wait polls

/-- `CLRDONE` (R83). -/
def clrDone : Input := wr32 0x01C 1

/-- `SRESET` (R83). -/
def sreset : Input := wr32 0x008 2

/-- `LOADIN b0 b1 ...` (R83). -/
def loadIn (bs : List Byte) : List Input := wbuf .inBuf 0 bs ++ [wr32 0x020 (BitVec.ofNat 32 bs.length)]

/-- `LOADTREE ...` (R83). -/
def loadTreeBuf (bs : List Byte) : List Input := wbuf .treeBuf 0 bs ++ [wr32 0x024 (BitVec.ofNat 32 bs.length)]

/-- `LOADPAY ...` (R83). -/
def loadPay (bs : List Byte) : List Input := wbuf .payBuf 0 bs ++ [wr32 0x028 (BitVec.ofNat 32 bs.length)]

end Sys2Proof.Machine
end

