-- ==== Sys2Proof/Safety.lean ====
section
/-! DEFINITION. The terms in which claims are stated: what a tree's leaves, paths and costs are, how a command ends, and
the invariant that every step keeps. -/

namespace Sys2Proof.Machine

/-! ### Trees -/

/-- The leaves' symbols in pre-order (R16). -/
def HuffTree.leaves : HuffTree → List Byte
  | .leaf s   => [s]
  | .node l r => l.leaves ++ r.leaves

/-- The depth of the deepest leaf; the root has depth 0 (R16). -/
def HuffTree.depth : HuffTree → Nat
  | .leaf _   => 0
  | .node l r => max l.depth r.depth + 1

/-- Each leaf's symbol with its path from the root, in pre-order; left is 0 and right is 1 (R20: Code Table). -/
def HuffTree.paths : HuffTree → List (Byte × Bits)
  | .leaf s   => [(s, [])]
  | .node l r => l.paths.map (fun c => (c.1, false :: c.2)) ++ r.paths.map (fun c => (c.1, true :: c.2))

/-- The path of the leaf of `b` that stands last in pre-order (R99); none where no leaf has the symbol. -/
def HuffTree.lastPath (t : HuffTree) (b : Byte) : Option Bits :=
  (t.paths.reverse.find? fun c => decide (c.1 = b)).map Prod.snd

/-- The weighted path length Σ FREQ[s] * depth(s) of a tree (R92). -/
def HuffTree.cost (f : Table Word) (t : HuffTree) : Nat :=
  (t.paths.map fun c => (tableGet f c.1).toNat * c.2.length).sum

/-- The leaves and nodes LEAF_COUNT and NODE_COUNT count: 0 for NONE and ABSENT (R38). -/
def TreeReg.leafTotal : TreeReg → Nat
  | .present t => t.numLeaves
  | _          => 0

/-- See `TreeReg.leafTotal`. -/
def TreeReg.nodeTotal : TreeReg → Nat
  | .present t => t.numNodes
  | _          => 0

/-- The code table GEN_CODES derives from a tree register (R47, R96). -/
def TreeReg.codeTable : TreeReg → Table Bits
  | .present t => (genOfTree t).codes
  | _          => Vector.replicate 256 []

/-- The sum of all counts (R85). -/
def freqTotal (f : Table Word) : Nat := (allSymbols.map fun b => (tableGet f b).toNat).sum

/-- The data bits that a code table and a byte sequence give (R109). -/
def encodedBits (codes : Table Bits) (bs : List Byte) : Bits := bs.flatMap (tableGet codes)

/-! ### The greedy merge, as R86 to R88 say it -/

/-- One merge, number `k`: `x` has the least key of the queue and `y` the least of the rest; the new node has `y` left and
`x` right (R87, R88). The queue has no order of its own. -/
def MergesOnce (k : Nat) (q q' : List (QueueItem HuffTree)) : Prop :=
  ∃ x y rest, q.Perm (x :: y :: rest) ∧ (∀ z ∈ y :: rest, x.keyLt z = true) ∧ (∀ z ∈ rest, y.keyLt z = true) ∧
    q'.Perm ({ weight := x.weight + y.weight, seq := 256 + k, node := .node y.node x.node } :: rest)

/-- Merging from number `k` on until one element, of tree `t`, is left (R88). -/
inductive MergesTo : Nat → List (QueueItem HuffTree) → HuffTree → Prop where
  | done {k : Nat} (x : QueueItem HuffTree) : MergesTo k [x] x.node
  | more {k : Nat} {q q' : List (QueueItem HuffTree)} {t : HuffTree} :
      MergesOnce k q q' → MergesTo (k + 1) q' t → MergesTo k q t

/-! ### Payloads -/

/-- PAY_LEN and byte 0 of the payload pass UNPACK's checks (R112), and there are `n` data bits (R80). -/
def HeaderOk (s : State) (n : Nat) : Prop :=
  0 < s.payLen.toNat ∧ s.payLen.toNat ≤ s.caps.maxPay ∧ (s.bufByte .payBuf 0).toNat ≤ 7 ∧
    n + (s.bufByte .payBuf 0).toNat = 8 * (s.payLen.toNat - 1)

/-! ### How a command ends (R125, R131) -/

/-- A success: BUSY is 0 and DONE is 1; ERR, ERROR and ERR_POS stay as the issue left them. -/
def endsWell (s : State) : State := { s with status := { s.status with busy := false }, done := true }

/-- An error with the given ERR_CODE, ERR_DETAIL, ERR_STAGE and ERR_POS. -/
def endsInError (code detail stage : Byte) (pos : Nat) (s : State) : State :=
  { s with
    status := { s.status with busy := false, err := true }
    error := { code := code, detail := detail, stage := stage }
    errPos := BitVec.ofNat 32 pos
    done := true }

/-! ### The schedule -/

/-- An event that resets the block: the reset input, or a host write to CTRL with bit 1 set (R142). -/
def resetsBlock : Input → Prop
  | .engine  => False
  | .powerOn => True
  | .host a  => ∃ d, a.op = .write d ∧ a.width = .w32 ∧ a.addr = Config.hcbBase + 0x008 ∧ d.getLsbD 1 = true

/-- A mapped register that BUSY protects: any but CTRL, CMD and INT_STATUS (R55). -/
def busyProtects (r : Reg) : Prop := r ≠ .ctrl ∧ r ≠ .cmd ∧ r ≠ .intStatus

/-- The buffers in the write set of a command (R126), as its table lists them. -/
def writtenBuffers : Instr → List Buffer
  | .serialize => [.treeBuf]
  | .pack      => [.payBuf]
  | .unpack    => [.outBuf]
  | .encode    => [.treeBuf, .payBuf]
  | .decode    => [.outBuf]
  | _          => []

/-- The registers in the write set of a command besides ERROR, ERR_POS and STATUS (R126), as its table lists them. -/
def writtenRegs : Instr → List Reg
  | .count       => allSymbols.map .freq
  | .build       => [.leafCount, .nodeCount]
  | .genCodes    => [.codeLen, .maxDepth] ++ (List.finRange 8).map .codeWord
  | .serialize   => [.treeLen]
  | .deserialize => [.leafCount, .nodeCount, .treeUsed]
  | .pack        => [.payLen, .padCount, .totalBits]
  | .unpack      => [.outLen, .padCount, .totalBits]
  | .encode      => allSymbols.map .freq ++ [.leafCount, .nodeCount] ++ [.codeLen, .maxDepth] ++
      (List.finRange 8).map .codeWord ++ [.treeLen] ++ [.payLen, .padCount, .totalBits]
  | .decode      => [.leafCount, .nodeCount, .treeUsed] ++ [.outLen, .padCount, .totalBits]
  | .nop         => []

/-- The commands whose write set has STATUS.TREE_STATE (R126). -/
def treeStateWriters : List Instr := [.build, .deserialize, .encode, .decode]

/-- The commands whose write set has STATUS.CODES_VALID (R126). -/
def codesValidWriters : List Instr := [.build, .genCodes, .deserialize, .encode, .decode]

/-- No command of the list is pending: the block is idle, or PENDING_WORD is the word of none of them. -/
def nonePending (s : State) (is : List Instr) : Prop :=
  s.status.busy = false ∨ ∀ i ∈ is, decode s.pendingWord ≠ .ok i

/-- The next event is a turn of the ENGINE: the schedule names it, or is empty (log entry 3). -/
def engineNext (s : State) : Prop := s.inputs = [] ∨ ∃ rest, s.inputs = .engine :: rest

/-! ### The invariant -/

/-- What holds after reset and after every step. -/
structure Inv (s : State) : Prop where
  /-- The capacities meet R11. -/
  caps_wf : s.caps.wf = true
  /-- Memory is in its canonical form and lists buffer bytes only (R57, R64). -/
  mem_wf : Memory.wf s.caps s.mem = true
  /-- A tree has at most 256 leaves (R48, R98). -/
  tree_small : s.tree.leafTotal ≤ 256
  /-- LEAF_COUNT and NODE_COUNT count the tree in TREE (R38). -/
  leaf_count : s.leafCount.toNat = s.tree.leafTotal
  node_count : s.nodeCount.toNat = s.tree.nodeTotal
  /-- Whenever TREE = NONE, CODES_VALID = 0 (R97). -/
  none_no_codes : s.tree = .none → s.status.codesValid = false
  /-- Whenever CODES_VALID = 1, the code table is that of the current TREE (R97). -/
  codes_of_tree : s.status.codesValid = true → s.codes = s.tree.codeTable
  /-- Every code has at most 255 bits (R98). -/
  code_length : ∀ b, (tableGet s.codes b).length ≤ 255
  /-- The counts sum to at most MAX_IN (R90). -/
  freq_total : freqTotal s.freq ≤ s.caps.maxIn
  /-- While BUSY = 1, ERR = 0 (R126). -/
  busy_no_err : s.status.busy = true → s.status.err = false
  /-- Without an error, ERROR and ERR_POS are 0 (R29, R30). -/
  no_err_zero : s.status.err = false → s.error = { code := 0, detail := 0, stage := 0 } ∧ s.errPos = 0
  /-- With an error, ERR_CODE is one of R127's codes. -/
  err_code : s.status.err = true → 0x01 ≤ s.error.code.toNat ∧ s.error.code.toNat ≤ 0x0A
  /-- While BUSY = 1, LAST_OP is the opcode byte of PENDING_WORD (R50). -/
  last_op : s.status.busy = true → s.status.lastOp = opcodeField s.pendingWord
  /-- OUT_LEN never passes the capacity of OUT_BUF (R112). -/
  out_len : s.outLen.toNat ≤ s.caps.maxOut
  /-- The draws the buffers use are older than the next draw (log entry 8). -/
  draws_old : ∀ b, s.draws.of b < s.draws.next

end Sys2Proof.Machine
end

