-- ==== Sys2Proof/Certificates/Slice0/Obligations.lean ====
section
/-! DEFINITION. The statements for the provers. Each docstring names the rules of the spec it formalises; OBLIGATIONS.json
lists the same statements. -/

open Sys2Proof Sys2Proof.Machine

/-! ### The command word -/

/-- R75, R72: decoding the word of a command gives the command back; every command is well formed (R73: no operand). -/
def Obligations.DecodeOfEncode : Prop := ∀ i : Instr, decode (encode i) = .ok i ∧ i.wf = true

/-- R75: the ten words of the opcode table, written out, decode to their commands. -/
def Obligations.OpcodeTableWords : Prop :=
  decode 0x00000000#32 = .ok .nop ∧ decode 0x00000001#32 = .ok .count ∧ decode 0x00000002#32 = .ok .build ∧
  decode 0x00000003#32 = .ok .genCodes ∧ decode 0x00000004#32 = .ok .serialize ∧
  decode 0x00000005#32 = .ok .deserialize ∧ decode 0x00000006#32 = .ok .pack ∧ decode 0x00000007#32 = .ok .unpack ∧
  decode 0x00000008#32 = .ok .encode ∧ decode 0x00000009#32 = .ok .decode

/-- R75: a word selects a command exactly when bits 7:0 are its opcode, 0x00 to 0x09 in the table's order, and bits 31:8
are 0. -/
def Obligations.WordSelectsCommandExactly : Prop :=
  ∀ w : Word,
    (∀ i : Instr, decode w = .ok i ↔ w.toNat % 2 ^ 8 = (opcode i).toNat ∧ w.toNat / 2 ^ 8 = 0) ∧
    (opcode .nop).toNat = 0x00 ∧ (opcode .count).toNat = 0x01 ∧ (opcode .build).toNat = 0x02 ∧
    (opcode .genCodes).toNat = 0x03 ∧ (opcode .serialize).toNat = 0x04 ∧ (opcode .deserialize).toNat = 0x05 ∧
    (opcode .pack).toNat = 0x06 ∧ (opcode .unpack).toNat = 0x07 ∧ (opcode .encode).toNat = 0x08 ∧
    (opcode .decode).toNat = 0x09

/-- R76: every other word is illegal, detail 1 for an opcode above 0x09, detail 2 for a defined opcode with RSV not 0. -/
def Obligations.OtherWordsIllegal : Prop :=
  ∀ w : Word,
    (decode w = .error .unknownOpcode ↔ 0x0A ≤ w.toNat % 2 ^ 8) ∧
    (decode w = .error .reservedBits ↔ w.toNat % 2 ^ 8 ≤ 0x09 ∧ w.toNat / 2 ^ 8 ≠ 0) ∧
    illegalDetail .unknownOpcode = 1 ∧ illegalDetail .reservedBits = 2

/-! ### The step -/

/-- R124, R13: while BUSY, a turn of the ENGINE runs the command that PENDING_WORD selects, on the schedule's rest. -/
def Obligations.StepRunsPendingCommand : Prop :=
  ∀ (s : State) (i : Instr) (rest : List Input), s.status.busy = true → decode s.pendingWord = .ok i →
    i.wf = true →
    (s.inputs = [] → step s = exec i s) ∧
    (s.inputs = .engine :: rest → step s = exec i { s with inputs := rest })

/-- R128: an illegal word changes nothing but the completion state: ILLEGAL_CMD, detail 1 or 2, stage the opcode byte. (That
the ENGINE takes its turn with an empty schedule is the model's choice, log entry 3.) -/
def Obligations.IllegalWordOnlyCompletes : Prop :=
  ∀ (s : State) (rest : List Input), s.status.busy = true →
    (s.inputs = .engine :: rest ∨ s.inputs = [] ∧ rest = []) →
    (0x0A ≤ s.pendingWord.toNat % 2 ^ 8 →
      step s = .next (endsInError 0x01 1 (s.pendingWord.setWidth 8) 0 { s with inputs := rest })) ∧
    (s.pendingWord.toNat % 2 ^ 8 ≤ 0x09 → s.pendingWord.toNat / 2 ^ 8 ≠ 0 →
      step s = .next (endsInError 0x01 2 (s.pendingWord.setWidth 8) 0 { s with inputs := rest }))

/-- Log entries 3 and 20, after R145 and R147: the machine never stops, and an idle block with an empty schedule waits as it
is. -/
def Obligations.StepNeverStops : Prop :=
  (∀ s : State, ∃ t, step s = .next t) ∧
  (∀ s : State, s.status.busy = false → s.inputs = [] → step s = .next s)

/-- R147 (with the schedule of log entry 3): a pending command completes, where no reset comes first. -/
def Obligations.PendingCommandCompletes : Prop :=
  ∀ s : State, s.status.busy = true → (∀ e ∈ s.inputs, ¬ resetsBlock e) →
    ∃ k t, k ≤ s.inputs.length + 1 ∧ Host.Core.run Sys2Proof.core k s = .next t ∧
      t.status.busy = false ∧ t.done = true

/-! ### Issue and completion -/

/-- R123: a CMD write while idle issues the word. -/
def Obligations.IdleCmdWriteIssues : Prop :=
  ∀ (s : State) (v : Word) (rest : List Input), s.status.busy = false → s.inputs = wr32 0x00C v :: rest →
    step s = .next { s with
      pendingWord := v
      status := { busy := true, err := false, overrun := false, busyAccess := false,
                  codesValid := s.status.codesValid, lastOp := v.setWidth 8 }
      error := { code := 0, detail := 0, stage := 0 }
      errPos := 0
      inputs := rest }

/-- R123, R133, R150: a CMD write while BUSY is dropped and sets OVERRUN, and nothing else. -/
def Obligations.BusyCmdWriteDropped : Prop :=
  ∀ (s : State) (v : Word) (rest : List Input), s.status.busy = true → s.inputs = wr32 0x00C v :: rest →
    step s = .next { s with status := { s.status with overrun := true }, inputs := rest }

/-- R125, R127: every command completes with BUSY = 0 and DONE = 1, and either leaves ERR, ERROR and ERR_POS as the issue
left them or sets ERR and one of the codes 0x01 to 0x0A. OVERRUN, BUSY_ACCESS and LAST_OP are unchanged. -/
def Obligations.EveryCommandCompletesOnce : Prop :=
  ∀ (i : Instr) (s : State), ∃ t, exec i s = .next t ∧ t.status.busy = false ∧ t.done = true ∧
    t.status.overrun = s.status.overrun ∧ t.status.busyAccess = s.status.busyAccess ∧
    t.status.lastOp = s.status.lastOp ∧
    ((t.status.err = s.status.err ∧ t.error = s.error ∧ t.errPos = s.errPos) ∨
      (t.status.err = true ∧ 0x01 ≤ t.error.code.toNat ∧ t.error.code.toNat ≤ 0x0A))

/-- R32, R73, R126: no command changes IN_LEN, IN_BUF, CODE_SEL, IRQ_EN, the capacities, PENDING_WORD, the host's data or the
schedule. -/
def Obligations.CommandsLeaveHostOperands : Prop :=
  ∀ (i : Instr) (s t : State), Inv s → exec i s = .next t →
    t.inLen = s.inLen ∧ t.codeSel = s.codeSel ∧ t.irqEn = s.irqEn ∧ t.caps = s.caps ∧
    t.pendingWord = s.pendingWord ∧ t.readData = s.readData ∧ t.inputs = s.inputs ∧
    ∀ j, j < s.caps.maxIn → t.bufByte .inBuf j = s.bufByte .inBuf j

/-- R45: FREQ changes only in an ENGINE turn that runs COUNT or ENCODE, or to all zeros by a reset event. (The schedule is
log entry 3.) -/
def Obligations.OnlyCountWritesFreq : Prop :=
  ∀ s t : State, step s = .next t → t.freq ≠ s.freq →
    (engineNext s ∧ s.status.busy = true ∧
      (decode s.pendingWord = .ok .count ∨ decode s.pendingWord = .ok .encode)) ∨
    (∃ e rest, s.inputs = e :: rest ∧ resetsBlock e ∧ ∀ b, tableGet t.freq b = 0)

/-! ### The invariant -/

/-- R144: the reset state meets the invariant. -/
def Obligations.ResetMeetsInvariant : Prop := Inv State.reset

/-- R38, R48, R90, R97, R98, R126 and the memory's canonical form: every step, from every state that meets the invariant,
gives a state that meets it. -/
def Obligations.StepKeepsInvariant : Prop := ∀ s t : State, Inv s → step s = .next t → Inv t

/-! ### Host accesses -/

/-- R63: a host read changes the host's data and the model's draw counter (log entry 8), and nothing else. -/
def Obligations.ReadsHaveNoSideEffect : Prop :=
  ∀ (s : State) (a : BusAccess) (rest : List Input), a.op = .read → s.inputs = .host a :: rest →
    ∃ t, step s = .next t ∧
      t = { s with inputs := rest, readData := t.readData, draws := t.draws } ∧
      ∀ b i, t.bufByte b i = s.bufByte b i

/-- R23 to R27, R29 to R45: what a 32-bit read of each register returns while the block is idle. -/
def Obligations.IdleRegisterReads : Prop :=
  ∀ (s : State) (off : Nat) (rest : List Input), s.status.busy = false → s.inputs = rd32 off :: rest →
    ∃ t, step s = .next t ∧
      (off = 0x000 → t.readData = 0x48434200) ∧
      (off = 0x004 → t.readData = 0x00000001) ∧
      (off = 0x008 → t.readData.toNat = s.irqEn.toNat) ∧
      (off = 0x00C → t.readData = 0) ∧
      (off = 0x014 → t.readData.extractLsb' 0 8 = s.error.code ∧ t.readData.extractLsb' 8 8 = s.error.detail ∧
        t.readData.extractLsb' 16 8 = s.error.stage ∧ t.readData.extractLsb' 24 8 = 0) ∧
      (off = 0x018 → t.readData = s.errPos) ∧
      (off = 0x01C → t.readData.toNat = s.done.toNat) ∧
      (off = 0x020 → t.readData = s.inLen) ∧
      (off = 0x024 → t.readData = s.treeLen) ∧
      (off = 0x028 → t.readData = s.payLen) ∧
      (off = 0x02C → t.readData = s.outLen) ∧
      (off = 0x030 → t.readData.toNat = s.padCount.toNat) ∧
      (off = 0x034 → t.readData = s.totalBits) ∧
      (off = 0x038 → t.readData.toNat = s.leafCount.toNat) ∧
      (off = 0x03C → t.readData.toNat = s.nodeCount.toNat) ∧
      (off = 0x040 → t.readData.toNat = s.treeUsed.toNat) ∧
      (off = 0x044 → t.readData.toNat = s.maxDepth.toNat) ∧
      (off = 0x048 → t.readData.toNat = s.codeSel.toNat) ∧
      (off = 0x070 → s.caps.wf = true → t.readData.toNat = s.caps.maxIn) ∧
      (off = 0x074 → s.caps.wf = true → t.readData.toNat = s.caps.maxPay) ∧
      (off = 0x078 → s.caps.wf = true → t.readData.toNat = s.caps.maxOut) ∧
      (∀ b : Byte, off = 0x400 + 4 * b.toNat → t.readData = tableGet s.freq b) ∧
      (0x07C ≤ off ∧ off < 0x400 ∨ 0x800 ≤ off ∧ off < 0x1000 → t.readData = 0)

/-- R28, R55, R126: STATUS as read. BUSY, ERR, OVERRUN, BUSY_ACCESS and LAST_OP read exactly at all times, the reserved bits
read 0 and TREE_STATE is never 3; TREE_STATE and CODES_VALID read exactly while the block is idle and while the pending
word's write set lacks them. (That a drawn TREE_STATE is never 3 is log entry 9.) -/
def Obligations.StatusReads : Prop :=
  ∀ (s : State) (rest : List Input), s.inputs = rd32 0x010 :: rest →
    ∃ t, step s = .next t ∧
      t.readData.getLsbD 0 = s.status.busy ∧ t.readData.getLsbD 1 = s.status.err ∧
      t.readData.getLsbD 2 = s.status.overrun ∧ t.readData.getLsbD 3 = s.status.busyAccess ∧
      t.readData.getLsbD 7 = false ∧ t.readData.extractLsb' 8 8 = s.status.lastOp ∧
      t.readData.extractLsb' 16 16 = 0 ∧ t.readData.extractLsb' 4 2 ≠ 3 ∧
      (nonePending s codesValidWriters → t.readData.getLsbD 6 = s.status.codesValid) ∧
      (nonePending s treeStateWriters →
        (s.tree = .none → t.readData.extractLsb' 4 2 = 0) ∧ (s.tree = .absent → t.readData.extractLsb' 4 2 = 1) ∧
        (∀ h, s.tree = .present h → t.readData.extractLsb' 4 2 = 2))

/-- R42, R43: CODE_LEN and CODE_WORD0..7 show the selected symbol's code, its first bit at the top of CODE_WORD0. -/
def Obligations.CodeReadback : Prop :=
  ∀ (s : State) (rest : List Input), Inv s → s.status.busy = false →
    (s.inputs = rd32 0x04C :: rest →
      ∃ t, step s = .next t ∧ t.readData.toNat = (tableGet s.codes s.codeSel).length) ∧
    (∀ k, k < 8 → s.inputs = rd32 (0x050 + 4 * k) :: rest →
      ∃ t, step s = .next t ∧
        ∀ m, m < 32 → t.readData.getLsbD (31 - m) = (tableGet s.codes s.codeSel).getD (32 * k + m) false)

/-- R55, R126: during BUSY a register or buffer byte outside the pending word's write set reads its current value. The write
sets are the lists `writtenRegs` and `writtenBuffers`, with ERROR and ERR_POS in every one; an illegal word has no
other. STATUS is in `StatusReads`. -/
def Obligations.BusyReadsOutsideWriteSetExact : Prop :=
  ∀ (s : State) (rest : List Input), s.status.busy = true → s.caps.wf = true →
    (∀ (off : Nat) (r : Reg), off < 0x1000 → off % 4 = 0 → regAt off = some r → r ≠ .status →
      r ≠ .error → r ≠ .errPos → (∀ j, decode s.pendingWord = .ok j → r ∉ writtenRegs j) →
      s.inputs = rd32 off :: rest → ∃ t, step s = .next t ∧ t.readData = readReg s r) ∧
    (∀ (b : Buffer) (i : Nat), i < b.cap s.caps → (∀ j, decode s.pendingWord = .ok j → b ∉ writtenBuffers j) →
      (s.inputs = rd8 (b.base + i) :: rest →
        ∃ t, step s = .next t ∧ t.readData.toNat = (s.bufByte b i).toNat) ∧
      (i % 4 = 0 → s.inputs = rd32 (b.base + i) :: rest →
        ∃ t, step s = .next t ∧ ∀ j, j < 4 →
          t.readData.extractLsb' (8 * j) 8 = if i + j < b.cap s.caps then s.bufByte b (i + j) else 0))

/-- R23, R36 to R40 (log entry 9: the model's reading of R19 beside them): the reserved bits of a register read 0 even where
the read is a draw. -/
def Obligations.DrawnReadsKeepReservedBitsZero : Prop :=
  ∀ (s : State) (off : Nat) (rest : List Input), s.inputs = rd32 off :: rest →
    ∃ t, step s = .next t ∧
      (off = 0x014 → t.readData.toNat < 2 ^ 24) ∧ (off = 0x030 → t.readData.toNat < 2 ^ 3) ∧
      (off = 0x038 → t.readData.toNat < 2 ^ 9) ∧ (off = 0x03C → t.readData.toNat < 2 ^ 10) ∧
      (off = 0x040 → t.readData.toNat < 2 ^ 10) ∧ (off = 0x044 → t.readData.toNat < 2 ^ 8) ∧
      (off = 0x04C → t.readData.toNat < 2 ^ 8)

/-- R61, R57, R23: an access that is not accepted, or that reaches reserved space, reads 0 and is ignored on write. (That such
a write leaves BUSY_ACCESS alone during BUSY is R61's for the register window and log entry 10 elsewhere; the draw
counter is log entry 8.) -/
def Obligations.RejectedAccessesDoNothing : Prop :=
  ∀ (s : State) (off : Nat) (w : Width) (op : BusOp) (rest : List Input),
    s.inputs = .host { addr := Config.hcbBase + off, width := w, op := op } :: rest → off < 2 ^ 26 →
    ((off < 0x1000 ∧ (w ≠ .w32 ∨ off % 4 ≠ 0)) ∨ (w = .w16 ∨ w = .w64) ∨ (w = .w32 ∧ off % 4 ≠ 0) ∨
      (0x07C ≤ off ∧ off < 0x400) ∨ (0x800 ≤ off ∧ off < 0x1000) ∨ (0x1300 ≤ off ∧ off < 0x1000000)) →
    ∃ t, step s = .next t ∧
      (op = .read → t = { s with inputs := rest, readData := 0, draws := t.draws }) ∧
      (∀ d, op = .write d → t = { s with inputs := rest })

/-- R59, R61: an accepted write to IN_BUF, TREE_BUF or PAY_BUF while idle stores its bytes, little-endian, below the buffer's
capacity, and changes nothing else. -/
def Obligations.IdleBufferWritesStoreBytes : Prop :=
  ∀ (s : State) (b : Buffer) (i : Nat) (rest : List Input), s.caps.wf = true → s.status.busy = false → b ≠ .outBuf →
    i < b.cap s.caps →
    (∀ v : Word, i % 4 = 0 → s.inputs = wr32 (b.base + i) v :: rest →
      ∃ t, step s = .next t ∧ t = { s with inputs := rest, mem := t.mem } ∧
        (∀ j, j < 4 → i + j < b.cap s.caps → t.bufByte b (i + j) = v.extractLsb' (8 * j) 8) ∧
        (∀ c j, j < c.cap s.caps → (c ≠ b ∨ j < i ∨ i + 4 ≤ j) → t.bufByte c j = s.bufByte c j)) ∧
    (∀ v : Byte, s.inputs = wr8 (b.base + i) v :: rest →
      ∃ t, step s = .next t ∧ t = { s with inputs := rest, mem := t.mem } ∧ t.bufByte b i = v ∧
        (∀ c j, j < c.cap s.caps → (c ≠ b ∨ j ≠ i) → t.bufByte c j = s.bufByte c j))

/-- R57, R61: OUT_BUF ignores host writes, and so does a buffer window at and past its capacity. -/
def Obligations.ReadOnlyBytesIgnoreWrites : Prop :=
  ∀ (s : State) (b : Buffer) (i : Nat) (rest : List Input), s.caps.wf = true → s.status.busy = false → i < 2 ^ 24 →
    (b = .outBuf ∨ b.cap s.caps ≤ i) → (b = .treeBuf → i < 0x1000000 - 0x1000) →
    (∀ v : Word, s.inputs = wr32 (b.base + i) v :: rest → step s = .next { s with inputs := rest }) ∧
    (∀ v : Byte, s.inputs = wr8 (b.base + i) v :: rest → step s = .next { s with inputs := rest })

/-- R57, R59, R61: an idle buffer read, anywhere in the buffer's window: 32 bits are little-endian, with 0 for each byte at or
past the capacity. The window of TREE_BUF counts with the reserved space above it. -/
def Obligations.IdleBufferReads : Prop :=
  ∀ (s : State) (b : Buffer) (i : Nat) (rest : List Input), s.caps.wf = true → s.status.busy = false →
    i < 2 ^ 24 → (b = .treeBuf → i < 0x1000000 - 0x1000) →
    (i % 4 = 0 → s.inputs = rd32 (b.base + i) :: rest →
      ∃ t, step s = .next t ∧ ∀ j, j < 4 →
        t.readData.extractLsb' (8 * j) 8 = if i + j < b.cap s.caps then s.bufByte b (i + j) else 0) ∧
    (s.inputs = rd8 (b.base + i) :: rest →
      ∃ t, step s = .next t ∧ t.readData.toNat = if i < b.cap s.caps then (s.bufByte b i).toNat else 0)

/-- R55, R149: during BUSY a write to a mapped register other than CTRL, CMD and INT_STATUS, or to a buffer byte, is dropped
and sets BUSY_ACCESS, and nothing else; a write that starts at or past a buffer's capacity in its window sets nothing.
(Which locations count is log entry 10.) -/
def Obligations.BusyWritesDropped : Prop :=
  ∀ (s : State) (rest : List Input), s.status.busy = true → s.caps.wf = true →
    (∀ (off : Nat) (r : Reg) (v : Word), off < 0x1000 → off % 4 = 0 → regAt off = some r → busyProtects r →
      s.inputs = wr32 off v :: rest →
      step s = .next { s with status := { s.status with busyAccess := true }, inputs := rest }) ∧
    (∀ (b : Buffer) (i : Nat) (v : Byte), i < b.cap s.caps → s.inputs = wr8 (b.base + i) v :: rest →
      step s = .next { s with status := { s.status with busyAccess := true }, inputs := rest }) ∧
    (∀ (b : Buffer) (i : Nat) (v : Word), i < b.cap s.caps → i % 4 = 0 → s.inputs = wr32 (b.base + i) v :: rest →
      step s = .next { s with status := { s.status with busyAccess := true }, inputs := rest }) ∧
    (∀ (b : Buffer) (i : Nat), b.cap s.caps ≤ i → i < 2 ^ 24 → (b = .treeBuf → i < 0x1000000 - 0x1000) →
      (∀ v : Byte, s.inputs = wr8 (b.base + i) v :: rest → step s = .next { s with inputs := rest }) ∧
      (∀ v : Word, s.inputs = wr32 (b.base + i) v :: rest → step s = .next { s with inputs := rest }))

/-- R23, R32 to R34, R41: an idle write stores into IN_LEN, TREE_LEN, PAY_LEN and CODE_SEL, and a read-only register ignores
it. -/
def Obligations.IdleRegisterWrites : Prop :=
  ∀ (s : State) (v : Word) (rest : List Input), s.status.busy = false →
    (s.inputs = wr32 0x020 v :: rest → step s = .next { s with inLen := v, inputs := rest }) ∧
    (s.inputs = wr32 0x024 v :: rest → step s = .next { s with treeLen := v, inputs := rest }) ∧
    (s.inputs = wr32 0x028 v :: rest → step s = .next { s with payLen := v, inputs := rest }) ∧
    (s.inputs = wr32 0x048 v :: rest → step s = .next { s with codeSel := v.setWidth 8, inputs := rest }) ∧
    (∀ off, off ∈ [0x000, 0x004, 0x010, 0x014, 0x018, 0x02C, 0x030, 0x034, 0x038, 0x03C, 0x040, 0x044, 0x04C, 0x050,
        0x054, 0x058, 0x05C, 0x060, 0x064, 0x068, 0x06C, 0x070, 0x074, 0x078] →
      s.inputs = wr32 off v :: rest → step s = .next { s with inputs := rest }) ∧
    (∀ b : Byte, s.inputs = wr32 (0x400 + 4 * b.toNat) v :: rest → step s = .next { s with inputs := rest })

/-- R26, R31, R134: whatever BUSY is, a CTRL write without bit 1 sets IRQ_EN, an INT_STATUS write clears DONE exactly when its
bit 0 is 1; `hcb_irq` is DONE AND IRQ_EN. -/
def Obligations.InterruptControl : Prop :=
  ∀ (s : State) (v : Word) (rest : List Input),
    (s.inputs = wr32 0x008 v :: rest → v.getLsbD 1 = false →
      step s = .next { s with irqEn := v.getLsbD 0, inputs := rest }) ∧
    (s.inputs = wr32 0x01C v :: rest →
      step s = .next { s with done := (if v.getLsbD 0 then false else s.done), inputs := rest }) ∧
    (irq s = true ↔ s.done = true ∧ s.irqEn = true)

/-! ### Reset -/

/-- R143, R144: a soft reset puts every register and table at its reset value, whatever BUSY is, and keeps every buffer byte
but those of the aborted command's write set, which become free values. (PENDING_WORD 0 is log entry 6; the numbering of
draws is log entry 8.) -/
def Obligations.SoftResetEffect : Prop :=
  ∀ (s : State) (v : Word) (rest : List Input), s.caps.wf = true → v.getLsbD 1 = true →
    s.inputs = wr32 0x008 v :: rest →
    ∃ t, step s = .next t ∧
      t = { State.reset with caps := s.caps, mem := t.mem, draws := t.draws, readData := s.readData, inputs := rest } ∧
      (∀ b i, i < b.cap s.caps →
        (s.status.busy = true → ∀ j, decode s.pendingWord = .ok j → b ∉ writtenBuffers j) →
        t.bufByte b i = s.bufByte b i) ∧
      ∀ b j, s.status.busy = true → decode s.pendingWord = .ok j → b ∈ writtenBuffers j →
        ∃ n, s.draws.next ≤ n ∧ ∀ i, i < b.cap s.caps → t.bufByte b i = Config.freeByte n (b.base + i)

/-- R142, R144, R65 (what power-on keeps of the model's own fields is log entry 17; the numbering of draws is log entry
8). -/
def Obligations.PowerOnEffect : Prop :=
  ∀ (s : State) (rest : List Input), s.inputs = .powerOn :: rest →
    ∃ t, step s = .next t ∧
      t = { State.reset with caps := s.caps, mem := t.mem, draws := t.draws, readData := s.readData, inputs := rest } ∧
      irq t = false ∧
      ∀ b, ∃ n, s.draws.next ≤ n ∧ ∀ i, i < b.cap s.caps → t.bufByte b i = Config.freeByte n (b.base + i)

/-- R144: what the registers read right after reset, with the default capacities of R11. -/
def Obligations.ResetRegisterReads : Prop :=
  ∀ (off : Nat) (rest : List Input), off < 0x1000 →
    ∃ t, step { State.reset with inputs := rd32 off :: rest } = .next t ∧
      t.readData = if off = 0x000 then 0x48434200 else if off = 0x004 then 1
        else if off = 0x070 then 65536 else if off = 0x074 then 65537 else if off = 0x078 then 65536 else 0

/-! ### NOP, COUNT -/

/-- R117: NOP, the word 0, completes without effect; issued while idle, it leaves ERR, OVERRUN and BUSY_ACCESS cleared and
DONE set. -/
def Obligations.NopOnlyCompletes : Prop :=
  decode 0x00000000#32 = .ok .nop ∧
  ∀ s : State, exec .nop s = .next (endsWell s) ∧
    ∀ rest, s.status.busy = false → s.inputs = wr32 0x00C 0x00000000 :: .engine :: rest →
      Host.Core.run Sys2Proof.core 2 s = .next { s with
        pendingWord := 0
        status := { busy := false, err := false, overrun := false, busyAccess := false,
                    codesValid := s.status.codesValid, lastOp := 0x00 }
        error := { code := 0, detail := 0, stage := 0 }
        errPos := 0
        done := true
        inputs := rest }

/-- R84, R85: COUNT with IN_LEN in range replaces FREQ by the number of times each byte value occurs in IN_BUF[0 .. IN_LEN-1],
summing to IN_LEN, and changes nothing else. -/
def Obligations.CountCountsOccurrences : Prop :=
  ∀ s : State, s.caps.wf = true → s.inLen.toNat ≤ s.caps.maxIn →
    ∃ t, exec .count s = .next t ∧ t = endsWell { s with freq := t.freq } ∧
      (∀ b, (tableGet t.freq b).toNat =
        (List.range s.inLen.toNat).countP fun i => decide (s.bufByte .inBuf i = b)) ∧
      freqTotal t.freq = s.inLen.toNat

/-! ### BUILD -/

/-- R88, R91: BUILD of an all-zero FREQ gives ABSENT; else it gives a tree whose leaves are the present symbols, each once,
with 2n - 1 nodes and depth at most n - 1. It clears CODES_VALID and changes nothing else. -/
def Obligations.BuildTreeShape : Prop :=
  ∀ s : State,
    ((∀ b, tableGet s.freq b = 0) →
      exec .build s = .next (endsWell { s with
        tree := .absent, leafCount := 0, nodeCount := 0, status := { s.status with codesValid := false } })) ∧
    ((∃ b, tableGet s.freq b ≠ 0) →
      ∃ t h, exec .build s = .next t ∧ t.tree = .present h ∧
        t = endsWell { s with tree := .present h, leafCount := t.leafCount, nodeCount := t.nodeCount,
                              status := { s.status with codesValid := false } } ∧
        h.leaves.Nodup ∧ (∀ b, b ∈ h.leaves ↔ tableGet s.freq b ≠ 0) ∧
        t.leafCount.toNat = h.leaves.length ∧ t.nodeCount.toNat = 2 * h.leaves.length - 1 ∧
        h.numNodes = 2 * h.leaves.length - 1 ∧ h.depth ≤ h.leaves.length - 1 ∧ h.leaves.length ≤ 256 ∧
        (2 ≤ h.leaves.length → ∀ c ∈ h.paths, 1 ≤ c.2.length))

/-- R86, R87, R88: BUILD's tree is reached from one leaf per present symbol, keyed by its count and itself, by merging, each
time, the two least keys, the first extracted to the right. -/
def Obligations.BuildMergesLeastKeys : Prop :=
  ∀ s : State, (∃ b, tableGet s.freq b ≠ 0) →
    ∃ t h, exec .build s = .next t ∧ t.tree = .present h ∧
      MergesTo 0 ((allSymbols.filter fun b => tableGet s.freq b ≠ 0).map fun b =>
        { weight := (tableGet s.freq b).toNat, seq := b.toNat, node := .leaf b }) h

/-- R92: BUILD's tree has the least weighted path length of all strict trees on the present symbols. -/
def Obligations.BuildIsOptimal : Prop :=
  ∀ (s t : State) (h u : HuffTree), exec .build s = .next t → t.tree = .present h → u.leaves.Nodup →
    (∀ b, b ∈ u.leaves ↔ tableGet s.freq b ≠ 0) → h.cost s.freq ≤ u.cost s.freq

/-- R93: after COUNT, BUILD and GEN_CODES over IN_BUF[0 .. IN_LEN-1], the data bits Σ FREQ[s] * CT_LEN[s] are at most
8 * IN_LEN. -/
def Obligations.CodeBitsAtMostEightPerByte : Prop :=
  ∀ s : State, s.caps.wf = true → s.inLen.toNat ≤ s.caps.maxIn →
    ∃ t u v, exec .count s = .next t ∧ exec .build t = .next u ∧ exec .genCodes u = .next v ∧
      (allSymbols.map fun b => (tableGet v.freq b).toNat * (tableGet v.codes b).length).sum ≤ 8 * s.inLen.toNat

/-- R51, R89: the arena placements of BUILD and of DESERIALIZE represent the tree, in 2n - 1 of the 511 entries, the root at
2n - 2 and at 0. The arena is no part of State (log entry 12); the second clause is about every tree of at most 256 leaves,
not about a run of DESERIALIZE. -/
def Obligations.ArenaRepresentsTree : Prop :=
  (∀ (s t : State) (h : HuffTree), exec .build s = .next t → t.tree = .present h →
    (buildArena s.freq).tree = some h ∧ (buildArena s.freq).nodes.length = 2 * h.leaves.length - 1 ∧
    (buildArena s.freq).nodes.length ≤ 511 ∧ (buildArena s.freq).root.toNat = 2 * h.leaves.length - 2) ∧
  (∀ h : HuffTree, h.leaves.length ≤ 256 →
    (preorderArena h).tree = some h ∧ (preorderArena h).nodes.length = 2 * h.leaves.length - 1 ∧
    (preorderArena h).root = 0)

/-! ### GEN_CODES -/

/-- R96, R99, R40: for a tree of two leaves or more, GEN_CODES gives each symbol the path of its last leaf in pre-order, and no
code where it has no leaf. MAX_DEPTH is the depth of the deepest leaf (R96), which no code length passes, and the greatest
code length in the table (R40) where no symbol is repeated (log entry 11). Nothing else changes. -/
def Obligations.CodesArePathsToLeaves : Prop :=
  ∀ (s : State) (l r : HuffTree), s.tree = .present (.node l r) → (HuffTree.node l r).leaves.length ≤ 256 →
    ∃ t, exec .genCodes s = .next t ∧
      t = endsWell { s with codes := t.codes, maxDepth := t.maxDepth,
                            status := { s.status with codesValid := true } } ∧
      (∀ b, tableGet t.codes b = ((HuffTree.node l r).lastPath b).getD []) ∧
      t.maxDepth.toNat = (HuffTree.node l r).depth ∧
      (∀ b, (tableGet t.codes b).length ≤ t.maxDepth.toNat) ∧
      ((HuffTree.node l r).leaves.Nodup → ∃ b, (tableGet t.codes b).length = t.maxDepth.toNat)

/-- R95, R96: a single-leaf tree gives its symbol the code "0" and MAX_DEPTH 1; the absent tree gives the empty table and
MAX_DEPTH 0. -/
def Obligations.SingleLeafAndAbsentCodes : Prop :=
  ∀ s : State,
    (∀ a, s.tree = .present (.leaf a) → ∃ t, exec .genCodes s = .next t ∧
      t = endsWell { s with codes := t.codes, maxDepth := 1, status := { s.status with codesValid := true } } ∧
      ∀ b, tableGet t.codes b = if b = a then [false] else []) ∧
    (s.tree = .absent → ∃ t, exec .genCodes s = .next t ∧
      t = endsWell { s with codes := t.codes, maxDepth := 0, status := { s.status with codesValid := true } } ∧
      ∀ b, tableGet t.codes b = [])

/-- R100: no code of the table of a tree BUILD produces is an initial segment of a different symbol's code. -/
def Obligations.BuiltCodesPrefixFree : Prop :=
  ∀ s t u : State, exec .build s = .next t → exec .genCodes t = .next u →
    ∀ a b : Byte, a ≠ b → tableGet u.codes a ≠ [] → tableGet u.codes b ≠ [] →
      ¬ tableGet u.codes a <+: tableGet u.codes b

/-! ### SERIALIZE, DESERIALIZE -/

/-- R101, R78: SERIALIZE writes the pre-order stream, 3n - 1 bytes, and TREE_LEN; for ABSENT it writes TREE_LEN = 0 only.
Every byte outside the stream keeps its value. -/
def Obligations.SerializeWritesPreorder : Prop :=
  ∀ s : State,
    (∀ h, s.tree = .present h → h.leaves.length ≤ 256 →
      ∃ t, exec .serialize s = .next t ∧
        t = endsWell { s with mem := t.mem, treeLen := t.treeLen } ∧
        t.treeLen.toNat = 3 * h.leaves.length - 1 ∧ t.readBuf .treeBuf t.treeLen.toNat = ser h ∧
        ∀ b i, b.base + i < Buffer.treeBuf.base ∨ Buffer.treeBuf.base + t.treeLen.toNat ≤ b.base + i →
          t.bufByte b i = s.bufByte b i) ∧
    (s.tree = .absent → exec .serialize s = .next (endsWell { s with treeLen := 0 }))

/-- R102, R105, R106: a stream of 1 to 768 bytes that starts with a serialized tree, whatever follows it, loads that tree; a
zero length loads ABSENT. CODES_VALID is cleared and nothing else changes. -/
def Obligations.DeserializeLoadsTree : Prop :=
  ∀ s : State,
    (∀ h after, s.treeLen.toNat ≤ 768 → s.readBuf .treeBuf s.treeLen.toNat = ser h ++ after →
      exec .deserialize s = .next (endsWell { s with
        tree := .present h, leafCount := BitVec.ofNat 9 h.leaves.length,
        nodeCount := BitVec.ofNat 10 (2 * h.leaves.length - 1),
        treeUsed := BitVec.ofNat 10 (3 * h.leaves.length - 1),
        status := { s.status with codesValid := false } }) ∧ h.leaves.length ≤ 256) ∧
    (s.treeLen = 0 →
      exec .deserialize s = .next (endsWell { s with
        tree := .absent, leafCount := 0, nodeCount := 0, treeUsed := 0,
        status := { s.status with codesValid := false } }))

/-- R102: any other stream of 1 to 768 bytes is MALFORMED_TREE and leaves TREE = NONE: EXHAUSTED at TREE_LEN where the stream
ends inside a tree, and else BAD_MARKER at the first byte that no tree can have there. -/
def Obligations.MalformedStreamsRejected : Prop :=
  ∀ s : State, 0 < s.treeLen.toNat → s.treeLen.toNat ≤ 768 →
    (∀ h after, s.readBuf .treeBuf s.treeLen.toNat ≠ ser h ++ after) →
    ∃ d pos, exec .deserialize s = .next (endsInError 0x05 d 0x05 pos { s with
        tree := .none, leafCount := 0, nodeCount := 0, treeUsed := 0,
        status := { s.status with codesValid := false } }) ∧
      ((d = 1 ∧ pos = s.treeLen.toNat ∧
          ∃ h more, more ≠ [] ∧ ser h = s.readBuf .treeBuf s.treeLen.toNat ++ more) ∨
        (d = 2 ∧ pos < s.treeLen.toNat ∧ s.bufByte .treeBuf pos ≠ 0x30 ∧ s.bufByte .treeBuf pos ≠ 0x31 ∧
          (∃ h more, ser h = s.readBuf .treeBuf pos ++ more) ∧
          ¬ ∃ h more, ser h = s.readBuf .treeBuf (pos + 1) ++ more))

/-- R103: the counter scan decides success, the bytes used, the error detail and its position as the parser does. -/
def Obligations.CounterScanAgreesWithParse : Prop :=
  ∀ bs : List Byte,
    needScan bs.length 1 bs =
      match parseStream bs with
      | .ok (_, rest) => .ok (bs.length - rest.length)
      | .error e      => .error e

/-- R107: SERIALIZE then DESERIALIZE gives the tree back, with TREE_USED = TREE_LEN, the absent tree included. -/
def Obligations.TreeRoundTrip : Prop :=
  ∀ s : State, Inv s → s.tree ≠ .none →
    ∃ t u, exec .serialize s = .next t ∧ exec .deserialize t = .next u ∧ u.tree = s.tree ∧
      u.treeUsed.toNat = u.treeLen.toNat ∧ u.leafCount = s.leafCount ∧ u.nodeCount = s.nodeCount

/-! ### PACK -/

/-- R109, R80, R81, R108: with a valid table, every input byte having a code and the codes fitting, PACK writes the Padding
Count, the codes in input order and 0 filler bits, PAY_LEN, PAD_COUNT and TOTAL_BITS, and nothing else. -/
def Obligations.PackWritesPayload : Prop :=
  ∀ s : State, s.caps.wf = true → s.status.codesValid = true → s.inLen.toNat ≤ s.caps.maxIn →
    (∀ i, i < s.inLen.toNat → tableGet s.codes (s.bufByte .inBuf i) ≠ []) →
    (encodedBits s.codes (s.readBuf .inBuf s.inLen.toNat)).length ≤ 8 * (s.caps.maxPay - 1) →
    ∃ t, exec .pack s = .next t ∧
      t = endsWell { s with mem := t.mem, payLen := t.payLen, padCount := t.padCount, totalBits := t.totalBits } ∧
      t.totalBits.toNat = (encodedBits s.codes (s.readBuf .inBuf s.inLen.toNat)).length ∧
      t.padCount.toNat = (8 - t.totalBits.toNat % 8) % 8 ∧
      8 * (t.payLen.toNat - 1) = t.totalBits.toNat + t.padCount.toNat ∧ 0 < t.payLen.toNat ∧
      (t.bufByte .payBuf 0).toNat = t.padCount.toNat ∧
      (∀ j, j < t.totalBits.toNat + t.padCount.toNat →
        (t.bufByte .payBuf (1 + j / 8)).getLsbD (7 - j % 8) =
          (encodedBits s.codes (s.readBuf .inBuf s.inLen.toNat)).getD j false) ∧
      ∀ b i, b.base + i < Buffer.payBuf.base ∨ Buffer.payBuf.base + t.payLen.toNat ≤ b.base + i →
        t.bufByte b i = s.bufByte b i

/-- R109, R110: the first input byte without a code raises SYMBOL_NOT_IN_TABLE at its index, and the first whose code passes the
capacity raises PAYLOAD_OVERFLOW at its index; PAY_LEN is 0, every byte of PAY_BUF is a free value, and every byte
outside it keeps its value. (The numbering of draws is log entry 8.) -/
def Obligations.PackRaisesAtFirstBadByte : Prop :=
  ∀ (s : State) (i : Nat), s.caps.wf = true → s.status.codesValid = true → s.inLen.toNat ≤ s.caps.maxIn →
    i < s.inLen.toNat → (∀ j, j < i → tableGet s.codes (s.bufByte .inBuf j) ≠ []) →
    (encodedBits s.codes (s.readBuf .inBuf i)).length ≤ 8 * (s.caps.maxPay - 1) →
    ∃ t, exec .pack s = .next t ∧
      (tableGet s.codes (s.bufByte .inBuf i) = [] →
        t = endsInError 0x08 0 0x06 i { s with mem := t.mem, draws := t.draws, payLen := 0 }) ∧
      (tableGet s.codes (s.bufByte .inBuf i) ≠ [] →
        8 * (s.caps.maxPay - 1) < (encodedBits s.codes (s.readBuf .inBuf (i + 1))).length →
        t = endsInError 0x09 0 0x06 i { s with mem := t.mem, draws := t.draws, payLen := 0 }) ∧
      (tableGet s.codes (s.bufByte .inBuf i) = [] ∨
          8 * (s.caps.maxPay - 1) < (encodedBits s.codes (s.readBuf .inBuf (i + 1))).length →
        (∃ n, s.draws.next ≤ n ∧ ∀ j, j < s.caps.maxPay →
          t.bufByte .payBuf j = Config.freeByte n (Buffer.payBuf.base + j)) ∧
        ∀ b j, b ≠ .payBuf → j < b.cap s.caps → t.bufByte b j = s.bufByte b j)

/-! ### UNPACK -/

/-- R112: where the data bits are the paths of a list of leaves that OUT_BUF can hold, UNPACK writes their symbols, OUT_LEN,
PAD_COUNT and TOTAL_BITS, and nothing else. -/
def Obligations.UnpackDecodesPaths : Prop :=
  ∀ (s : State) (l r : HuffTree) (n : Nat) (cs : List (Byte × Bits)), s.caps.wf = true →
    s.tree = .present (.node l r) → HeaderOk s n → (∀ c ∈ cs, c ∈ (HuffTree.node l r).paths) →
    payloadBits s n = cs.flatMap Prod.snd → cs.length ≤ s.caps.maxOut →
    ∃ t, exec .unpack s = .next t ∧
      t = endsWell { s with mem := t.mem, outLen := t.outLen, padCount := t.padCount, totalBits := t.totalBits } ∧
      t.outLen.toNat = cs.length ∧ t.readBuf .outBuf cs.length = cs.map Prod.fst ∧
      t.padCount.toNat = (s.bufByte .payBuf 0).toNat ∧ t.totalBits.toNat = n ∧
      ∀ b i, b.base + i < Buffer.outBuf.base ∨ Buffer.outBuf.base + cs.length ≤ b.base + i →
        t.bufByte b i = s.bufByte b i

/-- R112, R114: data bits that end inside the tree raise TRUNCATED_PAYLOAD detail 1 at DB, and a symbol due with OUT_BUF full
raises OUTPUT_OVERFLOW at its last bit; the symbols decoded before stay, and OUT_LEN is their count. -/
def Obligations.UnpackKeepsPartialOutput : Prop :=
  ∀ (s : State) (l r : HuffTree) (n : Nat) (cs : List (Byte × Bits)) (q more : Bits), s.caps.wf = true →
    s.tree = .present (.node l r) → HeaderOk s n → (∀ c ∈ cs, c ∈ (HuffTree.node l r).paths) →
    payloadBits s n = cs.flatMap Prod.snd ++ q ++ more → q ≠ [] →
    ∃ t, exec .unpack s = .next t ∧
      ((∃ u v, subtree (.node l r) q = some (.node u v)) → more = [] → cs.length ≤ s.caps.maxOut →
        t = endsInError 0x06 1 0x07 n
          { s with mem := t.mem, outLen := t.outLen, padCount := t.padCount, totalBits := t.totalBits } ∧
        t.outLen.toNat = cs.length ∧ t.readBuf .outBuf cs.length = cs.map Prod.fst ∧
        t.padCount.toNat = (s.bufByte .payBuf 0).toNat ∧ t.totalBits.toNat = n ∧
        ∀ b i, b.base + i < Buffer.outBuf.base ∨ Buffer.outBuf.base + cs.length ≤ b.base + i →
          t.bufByte b i = s.bufByte b i) ∧
      ((∃ a, subtree (.node l r) q = some (.leaf a)) → cs.length = s.caps.maxOut →
        t = endsInError 0x0A 0 0x07 ((cs.flatMap Prod.snd).length + q.length - 1)
          { s with mem := t.mem, outLen := t.outLen, padCount := t.padCount, totalBits := t.totalBits } ∧
        t.outLen.toNat = cs.length ∧ t.readBuf .outBuf cs.length = cs.map Prod.fst ∧
        t.padCount.toNat = (s.bufByte .payBuf 0).toNat ∧ t.totalBits.toNat = n ∧
        ∀ b i, b.base + i < Buffer.outBuf.base ∨ Buffer.outBuf.base + cs.length ≤ b.base + i →
          t.bufByte b i = s.bufByte b i)

/-- R113: a single-leaf tree decodes each data bit, whatever its value, to its symbol, as far as OUT_BUF holds; one bit more
raises OUTPUT_OVERFLOW. -/
def Obligations.SingleLeafDecodesEveryBit : Prop :=
  ∀ (s : State) (a : Byte) (n : Nat), s.caps.wf = true → s.tree = .present (.leaf a) → HeaderOk s n →
    ∃ t, exec .unpack s = .next t ∧ t.outLen.toNat = min n s.caps.maxOut ∧
      t.readBuf .outBuf (min n s.caps.maxOut) = List.replicate (min n s.caps.maxOut) a ∧
      (∀ b i, b.base + i < Buffer.outBuf.base ∨ Buffer.outBuf.base + min n s.caps.maxOut ≤ b.base + i →
        t.bufByte b i = s.bufByte b i) ∧
      (n ≤ s.caps.maxOut → t = endsWell
        { s with mem := t.mem, outLen := t.outLen, padCount := (s.bufByte .payBuf 0).setWidth 3,
                 totalBits := BitVec.ofNat 32 n }) ∧
      (s.caps.maxOut < n → t = endsInError 0x0A 0 0x07 s.caps.maxOut
        { s with mem := t.mem, outLen := t.outLen, padCount := (s.bufByte .payBuf 0).setWidth 3,
                 totalBits := BitVec.ofNat 32 n })

/-- R112: UNPACK's checks of PAY_LEN and of the Padding Count, and the absent tree, which needs no more than a Padding Count
byte; each writes OUT_LEN = 0 only. -/
def Obligations.UnpackHeaderChecks : Prop :=
  ∀ s : State, s.tree ≠ .none → s.payLen.toNat ≤ s.caps.maxPay →
    (s.payLen = 0 → exec .unpack s = .next (endsInError 0x06 2 0x07 0 { s with outLen := 0 })) ∧
    (0 < s.payLen.toNat → s.tree = .absent → exec .unpack s = .next (endsWell { s with outLen := 0 })) ∧
    (0 < s.payLen.toNat → s.tree ≠ .absent → 7 < (s.bufByte .payBuf 0).toNat →
      exec .unpack s = .next (endsInError 0x07 1 0x07 0 { s with outLen := 0 })) ∧
    (0 < s.payLen.toNat → s.tree ≠ .absent → (s.bufByte .payBuf 0).toNat ≤ 7 →
      8 * (s.payLen.toNat - 1) < (s.bufByte .payBuf 0).toNat →
      exec .unpack s = .next (endsInError 0x07 2 0x07 0 { s with outLen := 0 }))

/-- R115: two payloads that differ only in filler bits decode alike. -/
def Obligations.FillerBitsIgnored : Prop :=
  ∀ (s s' : State) (n : Nat), s.caps.wf = true → HeaderOk s n → s'.tree = s.tree → s'.payLen = s.payLen →
    s'.caps = s.caps → s'.bufByte .payBuf 0 = s.bufByte .payBuf 0 →
    (∀ j, j < n → payloadBit s' j = payloadBit s j) → s.tree ≠ .none →
    ∃ t t', exec .unpack s = .next t ∧ exec .unpack s' = .next t' ∧ t'.outLen = t.outLen ∧
      (∀ i, i < t.outLen.toNat → t'.bufByte .outBuf i = t.bufByte .outBuf i) ∧
      (s.status.err = false → s'.status.err = false → t'.status.err = t.status.err) ∧
      (s'.error = s.error → s'.errPos = s.errPos → t'.error = t.error ∧ t'.errPos = t.errPos) ∧
      (s'.padCount = s.padCount → s'.totalBits = s.totalBits →
        t'.padCount = t.padCount ∧ t'.totalBits = t.totalBits)

/-! ### Errors found before any write -/

/-- R84, R96, R101, R102, R109, R112, R118, R119, R127: the errors that change nothing but the completion state. -/
def Obligations.EarlyErrorsChangeNothing : Prop :=
  ∀ s : State,
    (s.caps.maxIn < s.inLen.toNat →
      exec .count s = .next (endsInError 0x02 1 0x01 s.inLen.toNat s) ∧
      exec .encode s = .next (endsInError 0x02 1 0x01 s.inLen.toNat s) ∧
      (s.status.codesValid = true → exec .pack s = .next (endsInError 0x02 1 0x06 s.inLen.toNat s))) ∧
    (s.tree = .none →
      exec .genCodes s = .next (endsInError 0x03 0 0x03 0 s) ∧
      exec .serialize s = .next (endsInError 0x03 0 0x04 0 s) ∧
      exec .unpack s = .next (endsInError 0x03 0 0x07 0 s)) ∧
    (768 < s.treeLen.toNat →
      exec .deserialize s = .next (endsInError 0x02 2 0x05 s.treeLen.toNat s) ∧
      exec .decode s = .next (endsInError 0x02 2 0x05 s.treeLen.toNat s)) ∧
    (s.status.codesValid = false → exec .pack s = .next (endsInError 0x04 0 0x06 0 s)) ∧
    (s.tree ≠ .none → s.caps.maxPay < s.payLen.toNat →
      exec .unpack s = .next (endsInError 0x02 3 0x07 s.payLen.toNat s))

/-! ### ENCODE, DECODE -/

/-- R140, R118: ENCODE of an input in range leaves what COUNT, BUILD, GEN_CODES, SERIALIZE and PACK leave, run one after the
other. -/
def Obligations.EncodeIsItsFiveSteps : Prop :=
  ∀ s : State, s.inLen.toNat ≤ s.caps.maxIn →
    ∃ t1 t2 t3 t4 t5, exec .count s = .next t1 ∧ exec .build t1 = .next t2 ∧ exec .genCodes t2 = .next t3 ∧
      exec .serialize t3 = .next t4 ∧ exec .pack t4 = .next t5 ∧ exec .encode s = .next t5

/-- R118, R111: ENCODE of every input in range succeeds: the tree's stream is in TREE_BUF, the payload in PAY_BUF is the input's
codes, in order, with their padding, PAY_LEN is at most IN_LEN + 1, IN_LEN = 0 gives the absent tree, and nothing outside
the steps' results changes. -/
def Obligations.EncodeSucceeds : Prop :=
  ∀ s : State, s.caps.wf = true → s.inLen.toNat ≤ s.caps.maxIn →
    ∃ t, exec .encode s = .next t ∧
      t = endsWell { s with
        freq := t.freq, tree := t.tree, leafCount := t.leafCount, nodeCount := t.nodeCount, codes := t.tree.codeTable,
        maxDepth := t.maxDepth, treeLen := t.treeLen, payLen := t.payLen, padCount := t.padCount,
        totalBits := t.totalBits, mem := t.mem, status := { s.status with codesValid := true } } ∧
      (s.inLen = 0 → t.tree = .absent ∧ t.treeLen = 0 ∧ t.payLen = 1) ∧
      (s.inLen ≠ 0 → ∃ h, t.tree = .present h ∧ t.treeLen.toNat = 3 * h.leaves.length - 1 ∧
        t.readBuf .treeBuf t.treeLen.toNat = ser h) ∧
      0 < t.payLen.toNat ∧ t.payLen.toNat ≤ s.inLen.toNat + 1 ∧
      t.totalBits.toNat = (encodedBits t.codes (s.readBuf .inBuf s.inLen.toNat)).length ∧
      (∀ j, j < t.totalBits.toNat + (t.bufByte .payBuf 0).toNat →
        payloadBit t j = (encodedBits t.codes (s.readBuf .inBuf s.inLen.toNat)).getD j false) ∧
      8 * (t.payLen.toNat - 1) = t.totalBits.toNat + (t.bufByte .payBuf 0).toNat ∧
      (t.bufByte .payBuf 0).toNat ≤ 7 ∧
      ∀ b i, (b.base + i < Buffer.treeBuf.base ∨ Buffer.treeBuf.base + t.treeLen.toNat ≤ b.base + i) →
        (b.base + i < Buffer.payBuf.base ∨ Buffer.payBuf.base + t.payLen.toNat ≤ b.base + i) →
        t.bufByte b i = s.bufByte b i

/-- R122: ENCODE of the same input bytes gives byte-identical artifacts. -/
def Obligations.EncodeIsDeterministic : Prop :=
  ∀ s s' : State, s.caps.wf = true → s'.caps = s.caps → s'.inLen = s.inLen → s.inLen.toNat ≤ s.caps.maxIn →
    (∀ i, i < s.inLen.toNat → s'.bufByte .inBuf i = s.bufByte .inBuf i) →
    ∃ t t', exec .encode s = .next t ∧ exec .encode s' = .next t' ∧
      t'.treeLen = t.treeLen ∧ t'.payLen = t.payLen ∧
      (∀ i, i < t.treeLen.toNat → t'.bufByte .treeBuf i = t.bufByte .treeBuf i) ∧
      (∀ i, i < t.payLen.toNat → t'.bufByte .payBuf i = t.bufByte .payBuf i)

/-- R119: where DESERIALIZE succeeds, DECODE leaves what DESERIALIZE and then UNPACK leave; where it fails, DECODE leaves what
DESERIALIZE leaves, and UNPACK does not run. -/
def Obligations.DecodeIsItsTwoSteps : Prop :=
  ∀ s : State, s.status.err = false →
    ∃ t u, exec .deserialize s = .next t ∧ exec .unpack t = .next u ∧
      (t.status.err = false → exec .decode s = .next u) ∧
      (t.status.err = true → exec .decode s = .next t)

/-- R119, R102, R112, R113: with a stream in TREE_BUF that starts with a tree of two leaves or more, and data bits that are the
paths of a list of its leaves that OUT_BUF can hold, DECODE succeeds with their symbols; with one that starts with a
single leaf, it gives its symbol for each data bit, as many as OUT_BUF can hold, and one more raises OUTPUT_OVERFLOW; a
zero TREE_LEN decodes any payload of one byte or more to the empty output. -/
def Obligations.DecodeSucceeds : Prop :=
  ∀ s : State, s.caps.wf = true →
    (∀ (l r : HuffTree) (after : List Byte) (n : Nat) (cs : List (Byte × Bits)), s.treeLen.toNat ≤ 768 →
      s.readBuf .treeBuf s.treeLen.toNat = ser (.node l r) ++ after → HeaderOk s n →
      (∀ c ∈ cs, c ∈ (HuffTree.node l r).paths) → payloadBits s n = cs.flatMap Prod.snd →
      cs.length ≤ s.caps.maxOut →
      ∃ t, exec .decode s = .next t ∧
        t = endsWell { s with
          tree := .present (.node l r), leafCount := t.leafCount, nodeCount := t.nodeCount, treeUsed := t.treeUsed,
          mem := t.mem, outLen := t.outLen, padCount := t.padCount, totalBits := t.totalBits,
          status := { s.status with codesValid := false } } ∧
        t.outLen.toNat = cs.length ∧ t.readBuf .outBuf cs.length = cs.map Prod.fst ∧
        ∀ b i, b.base + i < Buffer.outBuf.base ∨ Buffer.outBuf.base + cs.length ≤ b.base + i →
          t.bufByte b i = s.bufByte b i) ∧
    (∀ (a : Byte) (after : List Byte) (n : Nat), s.treeLen.toNat ≤ 768 →
      s.readBuf .treeBuf s.treeLen.toNat = ser (.leaf a) ++ after → HeaderOk s n →
      ∃ t u, exec .decode s = .next t ∧
        u = { s with
          tree := .present (.leaf a), leafCount := 1, nodeCount := 1, treeUsed := 2, mem := t.mem, outLen := t.outLen,
          padCount := (s.bufByte .payBuf 0).setWidth 3, totalBits := BitVec.ofNat 32 n,
          status := { s.status with codesValid := false } } ∧
        (n ≤ s.caps.maxOut → t = endsWell u) ∧
        (s.caps.maxOut < n → t = endsInError 0x0A 0 0x07 s.caps.maxOut u) ∧
        t.outLen.toNat = min n s.caps.maxOut ∧
        t.readBuf .outBuf (min n s.caps.maxOut) = List.replicate (min n s.caps.maxOut) a ∧
        ∀ b i, b.base + i < Buffer.outBuf.base ∨ Buffer.outBuf.base + min n s.caps.maxOut ≤ b.base + i →
          t.bufByte b i = s.bufByte b i) ∧
    (s.treeLen = 0 → 0 < s.payLen.toNat → s.payLen.toNat ≤ s.caps.maxPay →
      exec .decode s = .next (endsWell { s with
        tree := .absent, leafCount := 0, nodeCount := 0, treeUsed := 0, outLen := 0,
        status := { s.status with codesValid := false } }))

/-- R121: ENCODE then DECODE, with no host write in between, gives every input back, and so does DECODE on any other block
that holds the two artifacts and has the same capacities. -/
def Obligations.EncodeDecodeRoundTrip : Prop :=
  ∀ (s : State) (rest : List Input), s.caps.wf = true → s.inLen.toNat ≤ s.caps.maxIn → s.status.busy = false →
    s.inputs = cmd .encode :: .engine :: cmd .decode :: .engine :: rest →
    ∃ t u, Host.Core.run Sys2Proof.core 2 s = .next t ∧ Host.Core.run Sys2Proof.core 2 t = .next u ∧
      t.status.err = false ∧ u.status.err = false ∧ u.outLen = s.inLen ∧
      (∀ i, i < s.inLen.toNat → u.bufByte .outBuf i = s.bufByte .inBuf i) ∧
      ∀ v : State, v.caps = s.caps → v.treeLen = t.treeLen → v.payLen = t.payLen → v.status.err = false →
        (∀ i, i < t.treeLen.toNat → v.bufByte .treeBuf i = t.bufByte .treeBuf i) →
        (∀ i, i < t.payLen.toNat → v.bufByte .payBuf i = t.bufByte .payBuf i) →
        ∃ w, exec .decode v = .next w ∧ w.status.err = false ∧ w.outLen = s.inLen ∧
          ∀ i, i < s.inLen.toNat → w.bufByte .outBuf i = s.bufByte .inBuf i
end

