-- ==== Sys2Proof/Laws/Tables.lean ====
section
/-! SUPPORT. Tables indexed by a symbol, and what COUNT's loop computes. -/

namespace Sys2Proof.Machine

theorem tableGet_tableSet {α : Type} (t : Table α) (a b : Byte) (x : α) :
    tableGet (tableSet t a x) b = if a = b then x else tableGet t b := by
  simp only [tableGet, tableSet, Vector.getElem_set]
  by_cases h : a = b
  · simp [h]
  · rw [if_neg h, if_neg (fun e => h (BitVec.eq_of_toNat_eq e))]

@[simp] theorem tableGet_replicate {α : Type} (x : α) (b : Byte) : tableGet (Vector.replicate 256 x) b = x := by
  simp [tableGet]

theorem table_ext {α : Type} {t u : Table α} (h : ∀ b, tableGet t b = tableGet u b) : t = u := by
  apply Vector.ext
  intro i hi
  have := h (BitVec.ofNat 8 i)
  simpa [tableGet, Nat.mod_eq_of_lt hi] using this

@[simp] theorem mem_allSymbols (b : Byte) : b ∈ allSymbols := by
  simp only [allSymbols, List.mem_map, List.mem_finRange, true_and]
  exact ⟨b.toFin, rfl⟩

theorem allSymbols_nodup : allSymbols.Nodup := by
  refine List.Nodup.map (fun a b h => ?_) (List.nodup_finRange 256)
  exact congrArg BitVec.toFin h

@[simp] theorem allSymbols_length : allSymbols.length = 256 := by simp [allSymbols]

theorem countTable_get_from (f : Table Word) (bs : List Byte) (b : Byte) :
    tableGet (bs.foldl countByte f) b = tableGet f b + BitVec.ofNat 32 (bs.count b) := by
  induction bs generalizing f with
  | nil => simp
  | cons a bs ih =>
    rw [List.foldl_cons, ih, countByte, tableGet_tableSet, List.count_cons]
    by_cases h : a = b
    · subst h
      simp only [if_true, BEq.rfl, BitVec.ofNat_add]
      rw [BitVec.add_assoc, BitVec.add_comm 1]
      rfl
    · simp [h]

/-- COUNT's loop counts each byte value (R84). -/
theorem countTable_get (bs : List Byte) (b : Byte) :
    tableGet (countTable bs) b = BitVec.ofNat 32 (bs.count b) := by
  simp [countTable, countTable_get_from]

/-- A count does not overflow where the input is shorter than 2^32 (R84). -/
theorem countTable_toNat (bs : List Byte) (h : bs.length < 2 ^ 32) (b : Byte) :
    (tableGet (countTable bs) b).toNat = bs.count b := by
  rw [countTable_get, BitVec.toNat_ofNat, Nat.mod_eq_of_lt]
  exact lt_of_le_of_lt List.count_le_length h

/-- In a list without repeats, exactly one entry is a member that occurs in it. -/
theorem sum_indicator (l : List Byte) (a : Byte) (hl : l.Nodup) (ha : a ∈ l) :
    (l.map fun b => if a = b then 1 else 0).sum = 1 := by
  induction l with
  | nil => simp at ha
  | cons c l ih =>
    rw [List.nodup_cons] at hl
    by_cases h : a = c
    · subst h
      have : (l.map fun b => if a = b then 1 else 0).sum = 0 := by
        apply List.sum_eq_zero
        simp only [List.mem_map]
        rintro x ⟨b, hb, rfl⟩
        rw [if_neg (fun e : a = b => hl.1 (e ▸ hb))]
      simp [this]
    · have hal : a ∈ l := by simpa [h] using ha
      simp [h, ih hl.2 hal]

theorem sum_counts (bs : List Byte) : (allSymbols.map fun b => bs.count b).sum = bs.length := by
  induction bs with
  | nil =>
    apply List.sum_eq_zero
    simp only [List.mem_map]
    rintro x ⟨b, _, rfl⟩
    rfl
  | cons a bs ih =>
    have hcons : (allSymbols.map fun b => (a :: bs).count b) =
        allSymbols.map fun b => bs.count b + if a = b then 1 else 0 := by
      apply List.map_congr_left
      intro b _
      rw [List.count_cons]
      simp
    rw [hcons, List.sum_map_add, ih, sum_indicator allSymbols a allSymbols_nodup (mem_allSymbols a),
      List.length_cons]

/-- The counts sum to the input's length (R85). -/
theorem freqTotal_countTable (bs : List Byte) (h : bs.length < 2 ^ 32) :
    freqTotal (countTable bs) = bs.length := by
  rw [freqTotal, ← sum_counts bs]
  congr 1
  apply List.map_congr_left
  intro b _
  exact countTable_toNat bs h b

theorem freqTotal_zero : freqTotal (Vector.replicate 256 0) = 0 := by
  apply List.sum_eq_zero
  simp only [List.mem_map]
  rintro x ⟨b, _, rfl⟩
  simp

end Sys2Proof.Machine
end

