-- ==== Sys2Proof/Laws/Trees.lean ====
section
/-! SUPPORT. Trees: counts of leaves and nodes, paths and subtrees. -/

namespace Sys2Proof.Machine

theorem numLeaves_pos (t : HuffTree) : 0 < t.numLeaves := by
  induction t with
  | leaf s => simp [HuffTree.numLeaves]
  | node l r ihl ihr => simp only [HuffTree.numLeaves]; omega

@[simp] theorem leaves_length (t : HuffTree) : t.leaves.length = t.numLeaves := by
  induction t with
  | leaf s => rfl
  | node l r ihl ihr => simp [HuffTree.leaves, HuffTree.numLeaves, ihl, ihr]

/-- A strict tree of n leaves has 2n - 1 nodes (R10). -/
theorem numNodes_eq (t : HuffTree) : t.numNodes = 2 * t.numLeaves - 1 := by
  induction t with
  | leaf s => rfl
  | node l r ihl ihr =>
    have := numLeaves_pos l
    have := numLeaves_pos r
    simp only [HuffTree.numNodes, HuffTree.numLeaves]; omega

theorem depth_lt_numLeaves (t : HuffTree) : t.depth < t.numLeaves := by
  induction t with
  | leaf s => simp [HuffTree.depth, HuffTree.numLeaves]
  | node l r ihl ihr =>
    have := numLeaves_pos l
    have := numLeaves_pos r
    simp only [HuffTree.depth, HuffTree.numLeaves]; omega

theorem paths_leaves (t : HuffTree) : t.paths.map Prod.fst = t.leaves := by
  induction t with
  | leaf s => rfl
  | node l r ihl ihr => simp [HuffTree.paths, HuffTree.leaves, ← ihl, ← ihr, Function.comp_def]

theorem paths_length_le_depth (t : HuffTree) : ∀ c ∈ t.paths, c.2.length ≤ t.depth := by
  induction t with
  | leaf s => simp [HuffTree.paths]
  | node l r ihl ihr =>
    simp only [HuffTree.paths, HuffTree.depth, List.mem_append, List.mem_map]
    rintro c (⟨d, hd, rfl⟩ | ⟨d, hd, rfl⟩)
    · have := ihl d hd; simp; omega
    · have := ihr d hd; simp; omega

theorem subtree_append (t : HuffTree) (p q : Bits) :
    subtree t (p ++ q) = (subtree t p).bind fun u => subtree u q := by
  induction p generalizing t with
  | nil => simp [subtree]
  | cons b p ih =>
    cases t with
    | leaf s => simp [subtree]
    | node l r => cases b <;> simp [subtree, ih]

/-- The paths of a tree are the walks that end at a leaf (R112). -/
theorem mem_paths_iff (t : HuffTree) (s : Byte) (q : Bits) :
    (s, q) ∈ t.paths ↔ subtree t q = some (.leaf s) := by
  induction t generalizing q with
  | leaf s' =>
    cases q with
    | nil => simp [HuffTree.paths, subtree]; tauto
    | cons b q => simp [HuffTree.paths, subtree]
  | node l r ihl ihr =>
    cases q with
    | nil => simp [HuffTree.paths, subtree]
    | cons b q => cases b <;> simp [HuffTree.paths, subtree, ← ihl, ← ihr]

/-- A walk that stops short of a leaf stands at an internal node. -/
theorem subtree_of_longer (t : HuffTree) (p : Bits) (b : Bool) (q : Bits) (u : HuffTree)
    (h : subtree t (p ++ b :: q) = some u) : ∃ l r, subtree t p = some (.node l r) := by
  rw [subtree_append] at h
  cases hp : subtree t p with
  | none => simp [hp] at h
  | some v =>
    cases v with
    | leaf s => simp [hp, subtree] at h
    | node l r => exact ⟨l, r, rfl⟩

end Sys2Proof.Machine
end

