-- ==== Sys2Proof/Laws/Builder.lean ====
section
/-! SUPPORT. The priority queue and the merge loop of BUILD. -/

namespace Sys2Proof.Machine

/-- The queue is in rising key order. -/
abbrev Rising {α : Type} (q : List (QueueItem α)) : Prop := q.Pairwise fun x y => x.keyLt y = true

theorem keyLt_iff {α : Type} (x y : QueueItem α) :
    x.keyLt y = true ↔ x.weight < y.weight ∨ (x.weight = y.weight ∧ x.seq < y.seq) := by
  simp [QueueItem.keyLt]

theorem keyLt_trans {α : Type} {x y z : QueueItem α} (h1 : x.keyLt y = true) (h2 : y.keyLt z = true) :
    x.keyLt z = true := by
  rw [keyLt_iff] at *; omega

/-- Keys with different seq never tie (R86). -/
theorem keyLt_total {α : Type} {x y : QueueItem α} (hs : x.seq ≠ y.seq) (h : ¬ x.keyLt y = true) :
    y.keyLt x = true := by
  rw [keyLt_iff] at *; omega

theorem enqueue_perm {α : Type} (x : QueueItem α) (q : List (QueueItem α)) : (enqueue x q).Perm (x :: q) := by
  induction q with
  | nil => exact .refl _
  | cons y ys ih =>
    simp only [enqueue]
    split
    · exact .refl _
    · exact (ih.cons y).trans (.swap x y ys)

/-- Enqueuing keeps the queue in rising key order, where the new key's seq is new (R86). -/
theorem enqueue_rising {α : Type} (x : QueueItem α) (q : List (QueueItem α)) (hq : Rising q)
    (hx : ∀ y ∈ q, x.seq ≠ y.seq) : Rising (enqueue x q) := by
  induction q with
  | nil => simp [enqueue]
  | cons y ys ih =>
    rw [Rising, List.pairwise_cons] at hq
    simp only [enqueue]
    split
    · next h =>
      rw [Rising, List.pairwise_cons]
      refine ⟨fun z hz => ?_, List.pairwise_cons.2 hq⟩
      rcases List.mem_cons.1 hz with rfl | hz
      · exact h
      · exact keyLt_trans h (hq.1 z hz)
    · next h =>
      rw [Rising, List.pairwise_cons]
      refine ⟨fun z hz => ?_, ih hq.2 (fun z hz => hx z (List.mem_cons_of_mem y hz))⟩
      rcases List.mem_cons.1 ((enqueue_perm x ys).mem_iff.1 hz) with rfl | hz
      · exact keyLt_total (hx y List.mem_cons_self) h
      · exact hq.1 z hz

theorem foldl_enqueue_perm {α β : Type} (g : β → QueueItem α) (l : List β) (q : List (QueueItem α)) :
    (l.foldl (fun q b => enqueue (g b) q) q).Perm (l.map g ++ q) := by
  induction l generalizing q with
  | nil => exact .refl _
  | cons b l ih =>
    refine (ih (enqueue (g b) q)).trans ?_
    refine ((enqueue_perm (g b) q).append_left (l.map g)).trans ?_
    simp [List.perm_middle]

theorem foldl_enqueue_rising {α β : Type} (g : β → QueueItem α) (l : List β) (q : List (QueueItem α))
    (hq : Rising q) (hn : (l.map fun b => (g b).seq).Nodup)
    (hd : ∀ b ∈ l, ∀ y ∈ q, (g b).seq ≠ y.seq) :
    Rising (l.foldl (fun q b => enqueue (g b) q) q) := by
  induction l generalizing q with
  | nil => exact hq
  | cons b l ih =>
    rw [List.map_cons, List.nodup_cons] at hn
    refine ih _ (enqueue_rising (g b) q hq (hd b List.mem_cons_self)) hn.2 ?_
    intro c hc y hy
    rcases List.mem_cons.1 ((enqueue_perm (g b) q).mem_iff.1 hy) with rfl | hy
    · intro e; exact hn.1 (e ▸ List.mem_map_of_mem hc)
    · exact hd c (List.mem_cons_of_mem b hc) y hy

theorem presentSymbols_nodup (f : Table Word) : (presentSymbols f).Nodup := allSymbols_nodup.filter _

@[simp] theorem mem_presentSymbols (f : Table Word) (b : Byte) : b ∈ presentSymbols f ↔ tableGet f b ≠ 0 := by
  simp [presentSymbols]

/-- At most 256 symbols are present (R10). -/
theorem presentSymbols_length_le (f : Table Word) : (presentSymbols f).length ≤ 256 := by
  have := List.length_filter_le (fun b => decide (tableGet f b ≠ 0)) allSymbols
  rw [allSymbols_length] at this
  exact this

theorem initialQueue_perm (f : Table Word) :
    (initialQueue f).Perm ((presentSymbols f).map (leafItem f)) := by
  simpa [initialQueue] using foldl_enqueue_perm (leafItem f) (presentSymbols f) []

theorem initialQueue_rising (f : Table Word) : Rising (initialQueue f) := by
  refine foldl_enqueue_rising (leafItem f) (presentSymbols f) [] .nil ?_ (by simp)
  have h : ((presentSymbols f).map fun b => (leafItem f b).seq) = (presentSymbols f).map BitVec.toNat := rfl
  rw [h]
  exact (presentSymbols_nodup f).map fun a b e => BitVec.eq_of_toNat_eq e

theorem initialQueue_seq (f : Table Word) : ∀ x ∈ initialQueue f, x.seq < 256 := by
  intro x hx
  obtain ⟨b, _, rfl⟩ := List.mem_map.1 ((initialQueue_perm f).mem_iff.1 hx)
  exact b.isLt

/-- A merge in rising order is a merge of the two least keys (R88), and leaves the queue rising with its seqs below the
next merge's. -/
theorem mergesOnce_of_rising (k : Nat) (x y : QueueItem HuffTree) (q : List (QueueItem HuffTree))
    (h : Rising (x :: y :: q)) : MergesOnce k (x :: y :: q) (enqueue (mergeItems k x y) q) := by
  simp only [Rising, List.pairwise_cons] at h
  exact ⟨x, y, q, .refl _, h.1, h.2.1, enqueue_perm _ _⟩

/-- The merge loop runs until one element is left, each time merging the two least keys (R88). -/
theorem mergeLoop_mergesTo (fuel k : Nat) (q : List (QueueItem HuffTree)) (hq : Rising q)
    (hs : ∀ x ∈ q, x.seq < 256 + k) (h0 : q ≠ []) (hf : q.length ≤ fuel + 1) :
    ∃ x, mergeLoop fuel k q = [x] ∧ MergesTo k q x.node := by
  induction fuel generalizing k q with
  | zero =>
    match q, h0, hf with
    | [x], _, _ => exact ⟨x, rfl, .done x⟩
  | succ fuel ih =>
    match q, h0, hf with
    | [x], _, _ => exact ⟨x, rfl, .done x⟩
    | x :: y :: q, _, hf =>
      have hr := hq
      simp only [Rising, List.pairwise_cons] at hr
      have hlen : (enqueue (mergeItems k x y) q).length = q.length + 1 := by
        simpa using (enqueue_perm (mergeItems k x y) q).length_eq
      obtain ⟨z, hz, hm⟩ := ih (k + 1) (enqueue (mergeItems k x y) q)
        (enqueue_rising _ _ hr.2.2 (fun z hz => by
          have := hs z (by simp [hz]); simp only [mergeItems]; omega))
        (fun z hz => by
          rcases List.mem_cons.1 ((enqueue_perm _ q).mem_iff.1 hz) with rfl | hz
          · simp only [mergeItems]; omega
          · have := hs z (by simp [hz]); omega)
        (by intro e; simp [e] at hlen)
        (by simp only [List.length_cons] at hf; omega)
      exact ⟨z, hz, .more (mergesOnce_of_rising k x y q hq) hm⟩

/-- Merging takes a queue's order for nothing. -/
theorem mergesTo_perm {k : Nat} {q q' : List (QueueItem HuffTree)} {t : HuffTree} (h : MergesTo k q t)
    (hp : q'.Perm q) : MergesTo k q' t := by
  cases h with
  | done x => rw [List.perm_singleton.1 hp]; exact .done x
  | more h1 h2 =>
    obtain ⟨x, y, rest, h⟩ := h1
    exact .more ⟨x, y, rest, hp.trans h.1, h.2⟩ h2

/-- Merging keeps the leaves (R91). -/
theorem mergesTo_leaves {k : Nat} {q : List (QueueItem HuffTree)} {t : HuffTree} (h : MergesTo k q t) :
    t.leaves.Perm (q.flatMap fun x => x.node.leaves) := by
  induction h with
  | done x => simp
  | more h1 _ ih =>
    obtain ⟨x, y, rest, hp, _, _, hp'⟩ := h1
    refine ih.trans ((hp'.flatMap_right _).trans ?_)
    refine List.Perm.trans ?_ (hp.flatMap_right _).symm
    simp only [List.flatMap_cons, HuffTree.leaves, ← List.append_assoc]
    exact List.perm_append_comm.append_right _

theorem buildTree_nil (f : Table Word) (h : presentSymbols f = []) : buildTree f = .absent := by
  have : initialQueue f = [] := by simpa [h] using initialQueue_perm f
  simp [buildTree, this, h, mergeLoop]

/-- BUILD's tree is reached by the greedy merge from one leaf per present symbol (R88). -/
theorem buildTree_present (f : Table Word) (h : presentSymbols f ≠ []) :
    ∃ t, buildTree f = .present t ∧ MergesTo 0 ((presentSymbols f).map (leafItem f)) t := by
  have hlen := (initialQueue_perm f).length_eq
  rw [List.length_map] at hlen
  obtain ⟨x, hx, hm⟩ := mergeLoop_mergesTo (presentSymbols f).length 0 (initialQueue f) (initialQueue_rising f)
    (fun x hx => initialQueue_seq f x hx)
    (by intro e; rw [e] at hlen; exact h (List.length_eq_zero_iff.1 hlen.symm)) (by omega)
  exact ⟨x.node, by simp [buildTree, hx], mergesTo_perm hm (initialQueue_perm f).symm⟩

/-- The leaves of BUILD's tree are the present symbols, each once (R91). -/
theorem buildTree_leaves (f : Table Word) (t : HuffTree) (h : buildTree f = .present t) :
    t.leaves.Perm (presentSymbols f) := by
  have h0 : presentSymbols f ≠ [] := fun e => by simp [buildTree_nil f e] at h
  obtain ⟨u, hu, hm⟩ := buildTree_present f h0
  obtain rfl : t = u := by rw [h] at hu; exact TreeReg.present.inj hu
  refine (mergesTo_leaves hm).trans (.of_eq ?_)
  generalize presentSymbols f = l
  induction l with
  | nil => rfl
  | cons b l ih => simp [leafItem, HuffTree.leaves, ih]

theorem buildTree_leafTotal (f : Table Word) : (buildTree f).leafTotal = (presentSymbols f).length := by
  by_cases h : presentSymbols f = []
  · rw [buildTree_nil f h, h]; rfl
  · obtain ⟨t, ht, _⟩ := buildTree_present f h
    rw [ht, ← (buildTree_leaves f t ht).length_eq]
    exact (leaves_length t).symm

theorem buildTree_ne_none (f : Table Word) : buildTree f ≠ .none := by
  by_cases h : presentSymbols f = []
  · simp [buildTree_nil f h]
  · obtain ⟨t, ht, _⟩ := buildTree_present f h
    simp [ht]

end Sys2Proof.Machine
end

