-- ==== Sys2Proof/Laws/State.lean ====
section
/-! SUPPORT. For each named update of the state, one lemma per field, so that no later proof unfolds a record update. -/

namespace Sys2Proof.Machine

/-! ### One byte of a buffer written -/

@[simp] theorem setBuf_caps (s : State) (b : Buffer) (i : Nat) (v : Byte) : (s.setBuf b i v).caps = s.caps := rfl
@[simp] theorem setBuf_irqEn (s : State) (b : Buffer) (i : Nat) (v : Byte) : (s.setBuf b i v).irqEn = s.irqEn := rfl
@[simp] theorem setBuf_status (s : State) (b : Buffer) (i : Nat) (v : Byte) : (s.setBuf b i v).status = s.status := rfl
@[simp] theorem setBuf_error (s : State) (b : Buffer) (i : Nat) (v : Byte) : (s.setBuf b i v).error = s.error := rfl
@[simp] theorem setBuf_errPos (s : State) (b : Buffer) (i : Nat) (v : Byte) : (s.setBuf b i v).errPos = s.errPos := rfl
@[simp] theorem setBuf_done (s : State) (b : Buffer) (i : Nat) (v : Byte) : (s.setBuf b i v).done = s.done := rfl
@[simp] theorem setBuf_inLen (s : State) (b : Buffer) (i : Nat) (v : Byte) : (s.setBuf b i v).inLen = s.inLen := rfl
@[simp] theorem setBuf_treeLen (s : State) (b : Buffer) (i : Nat) (v : Byte) : (s.setBuf b i v).treeLen = s.treeLen := rfl
@[simp] theorem setBuf_payLen (s : State) (b : Buffer) (i : Nat) (v : Byte) : (s.setBuf b i v).payLen = s.payLen := rfl
@[simp] theorem setBuf_outLen (s : State) (b : Buffer) (i : Nat) (v : Byte) : (s.setBuf b i v).outLen = s.outLen := rfl
@[simp] theorem setBuf_padCount (s : State) (b : Buffer) (i : Nat) (v : Byte) : (s.setBuf b i v).padCount = s.padCount := rfl
@[simp] theorem setBuf_totalBits (s : State) (b : Buffer) (i : Nat) (v : Byte) : (s.setBuf b i v).totalBits = s.totalBits := rfl
@[simp] theorem setBuf_leafCount (s : State) (b : Buffer) (i : Nat) (v : Byte) : (s.setBuf b i v).leafCount = s.leafCount := rfl
@[simp] theorem setBuf_nodeCount (s : State) (b : Buffer) (i : Nat) (v : Byte) : (s.setBuf b i v).nodeCount = s.nodeCount := rfl
@[simp] theorem setBuf_treeUsed (s : State) (b : Buffer) (i : Nat) (v : Byte) : (s.setBuf b i v).treeUsed = s.treeUsed := rfl
@[simp] theorem setBuf_maxDepth (s : State) (b : Buffer) (i : Nat) (v : Byte) : (s.setBuf b i v).maxDepth = s.maxDepth := rfl
@[simp] theorem setBuf_codeSel (s : State) (b : Buffer) (i : Nat) (v : Byte) : (s.setBuf b i v).codeSel = s.codeSel := rfl
@[simp] theorem setBuf_freq (s : State) (b : Buffer) (i : Nat) (v : Byte) : (s.setBuf b i v).freq = s.freq := rfl
@[simp] theorem setBuf_codes (s : State) (b : Buffer) (i : Nat) (v : Byte) : (s.setBuf b i v).codes = s.codes := rfl
@[simp] theorem setBuf_tree (s : State) (b : Buffer) (i : Nat) (v : Byte) : (s.setBuf b i v).tree = s.tree := rfl
@[simp] theorem setBuf_pendingWord (s : State) (b : Buffer) (i : Nat) (v : Byte) : (s.setBuf b i v).pendingWord = s.pendingWord := rfl
@[simp] theorem setBuf_mem (s : State) (b : Buffer) (i : Nat) (v : Byte) : (s.setBuf b i v).mem = Memory.set s.mem (b.base + i) v := rfl
@[simp] theorem setBuf_draws (s : State) (b : Buffer) (i : Nat) (v : Byte) : (s.setBuf b i v).draws = s.draws := rfl
@[simp] theorem setBuf_readData (s : State) (b : Buffer) (i : Nat) (v : Byte) : (s.setBuf b i v).readData = s.readData := rfl
@[simp] theorem setBuf_inputs (s : State) (b : Buffer) (i : Nat) (v : Byte) : (s.setBuf b i v).inputs = s.inputs := rfl

/-! ### A run of bytes written -/

/-- Writing bytes changes memory and nothing else. -/
theorem writeBuf_frame (s : State) (b : Buffer) (i : Nat) (vs : List Byte) :
    s.writeBuf b i vs = { s with mem := (s.writeBuf b i vs).mem } := by
  induction vs generalizing s i with
  | nil => rfl
  | cons v vs ih => exact ih (s.setBuf b i v) (i + 1)

@[simp] theorem writeBuf_caps (s : State) (b : Buffer) (i : Nat) (vs : List Byte) : (s.writeBuf b i vs).caps = s.caps := by rw [writeBuf_frame]
@[simp] theorem writeBuf_irqEn (s : State) (b : Buffer) (i : Nat) (vs : List Byte) : (s.writeBuf b i vs).irqEn = s.irqEn := by rw [writeBuf_frame]
@[simp] theorem writeBuf_status (s : State) (b : Buffer) (i : Nat) (vs : List Byte) : (s.writeBuf b i vs).status = s.status := by rw [writeBuf_frame]
@[simp] theorem writeBuf_error (s : State) (b : Buffer) (i : Nat) (vs : List Byte) : (s.writeBuf b i vs).error = s.error := by rw [writeBuf_frame]
@[simp] theorem writeBuf_errPos (s : State) (b : Buffer) (i : Nat) (vs : List Byte) : (s.writeBuf b i vs).errPos = s.errPos := by rw [writeBuf_frame]
@[simp] theorem writeBuf_done (s : State) (b : Buffer) (i : Nat) (vs : List Byte) : (s.writeBuf b i vs).done = s.done := by rw [writeBuf_frame]
@[simp] theorem writeBuf_inLen (s : State) (b : Buffer) (i : Nat) (vs : List Byte) : (s.writeBuf b i vs).inLen = s.inLen := by rw [writeBuf_frame]
@[simp] theorem writeBuf_treeLen (s : State) (b : Buffer) (i : Nat) (vs : List Byte) : (s.writeBuf b i vs).treeLen = s.treeLen := by rw [writeBuf_frame]
@[simp] theorem writeBuf_payLen (s : State) (b : Buffer) (i : Nat) (vs : List Byte) : (s.writeBuf b i vs).payLen = s.payLen := by rw [writeBuf_frame]
@[simp] theorem writeBuf_outLen (s : State) (b : Buffer) (i : Nat) (vs : List Byte) : (s.writeBuf b i vs).outLen = s.outLen := by rw [writeBuf_frame]
@[simp] theorem writeBuf_padCount (s : State) (b : Buffer) (i : Nat) (vs : List Byte) : (s.writeBuf b i vs).padCount = s.padCount := by rw [writeBuf_frame]
@[simp] theorem writeBuf_totalBits (s : State) (b : Buffer) (i : Nat) (vs : List Byte) : (s.writeBuf b i vs).totalBits = s.totalBits := by rw [writeBuf_frame]
@[simp] theorem writeBuf_leafCount (s : State) (b : Buffer) (i : Nat) (vs : List Byte) : (s.writeBuf b i vs).leafCount = s.leafCount := by rw [writeBuf_frame]
@[simp] theorem writeBuf_nodeCount (s : State) (b : Buffer) (i : Nat) (vs : List Byte) : (s.writeBuf b i vs).nodeCount = s.nodeCount := by rw [writeBuf_frame]
@[simp] theorem writeBuf_treeUsed (s : State) (b : Buffer) (i : Nat) (vs : List Byte) : (s.writeBuf b i vs).treeUsed = s.treeUsed := by rw [writeBuf_frame]
@[simp] theorem writeBuf_maxDepth (s : State) (b : Buffer) (i : Nat) (vs : List Byte) : (s.writeBuf b i vs).maxDepth = s.maxDepth := by rw [writeBuf_frame]
@[simp] theorem writeBuf_codeSel (s : State) (b : Buffer) (i : Nat) (vs : List Byte) : (s.writeBuf b i vs).codeSel = s.codeSel := by rw [writeBuf_frame]
@[simp] theorem writeBuf_freq (s : State) (b : Buffer) (i : Nat) (vs : List Byte) : (s.writeBuf b i vs).freq = s.freq := by rw [writeBuf_frame]
@[simp] theorem writeBuf_codes (s : State) (b : Buffer) (i : Nat) (vs : List Byte) : (s.writeBuf b i vs).codes = s.codes := by rw [writeBuf_frame]
@[simp] theorem writeBuf_tree (s : State) (b : Buffer) (i : Nat) (vs : List Byte) : (s.writeBuf b i vs).tree = s.tree := by rw [writeBuf_frame]
@[simp] theorem writeBuf_pendingWord (s : State) (b : Buffer) (i : Nat) (vs : List Byte) : (s.writeBuf b i vs).pendingWord = s.pendingWord := by rw [writeBuf_frame]
@[simp] theorem writeBuf_draws (s : State) (b : Buffer) (i : Nat) (vs : List Byte) : (s.writeBuf b i vs).draws = s.draws := by rw [writeBuf_frame]
@[simp] theorem writeBuf_readData (s : State) (b : Buffer) (i : Nat) (vs : List Byte) : (s.writeBuf b i vs).readData = s.readData := by rw [writeBuf_frame]
@[simp] theorem writeBuf_inputs (s : State) (b : Buffer) (i : Nat) (vs : List Byte) : (s.writeBuf b i vs).inputs = s.inputs := by rw [writeBuf_frame]

/-! ### A buffer drawn anew -/

@[simp] theorem redraw_caps (s : State) (b : Buffer) : (s.redraw b).caps = s.caps := rfl
@[simp] theorem redraw_irqEn (s : State) (b : Buffer) : (s.redraw b).irqEn = s.irqEn := rfl
@[simp] theorem redraw_status (s : State) (b : Buffer) : (s.redraw b).status = s.status := rfl
@[simp] theorem redraw_error (s : State) (b : Buffer) : (s.redraw b).error = s.error := rfl
@[simp] theorem redraw_errPos (s : State) (b : Buffer) : (s.redraw b).errPos = s.errPos := rfl
@[simp] theorem redraw_done (s : State) (b : Buffer) : (s.redraw b).done = s.done := rfl
@[simp] theorem redraw_inLen (s : State) (b : Buffer) : (s.redraw b).inLen = s.inLen := rfl
@[simp] theorem redraw_treeLen (s : State) (b : Buffer) : (s.redraw b).treeLen = s.treeLen := rfl
@[simp] theorem redraw_payLen (s : State) (b : Buffer) : (s.redraw b).payLen = s.payLen := rfl
@[simp] theorem redraw_outLen (s : State) (b : Buffer) : (s.redraw b).outLen = s.outLen := rfl
@[simp] theorem redraw_padCount (s : State) (b : Buffer) : (s.redraw b).padCount = s.padCount := rfl
@[simp] theorem redraw_totalBits (s : State) (b : Buffer) : (s.redraw b).totalBits = s.totalBits := rfl
@[simp] theorem redraw_leafCount (s : State) (b : Buffer) : (s.redraw b).leafCount = s.leafCount := rfl
@[simp] theorem redraw_nodeCount (s : State) (b : Buffer) : (s.redraw b).nodeCount = s.nodeCount := rfl
@[simp] theorem redraw_treeUsed (s : State) (b : Buffer) : (s.redraw b).treeUsed = s.treeUsed := rfl
@[simp] theorem redraw_maxDepth (s : State) (b : Buffer) : (s.redraw b).maxDepth = s.maxDepth := rfl
@[simp] theorem redraw_codeSel (s : State) (b : Buffer) : (s.redraw b).codeSel = s.codeSel := rfl
@[simp] theorem redraw_freq (s : State) (b : Buffer) : (s.redraw b).freq = s.freq := rfl
@[simp] theorem redraw_codes (s : State) (b : Buffer) : (s.redraw b).codes = s.codes := rfl
@[simp] theorem redraw_tree (s : State) (b : Buffer) : (s.redraw b).tree = s.tree := rfl
@[simp] theorem redraw_pendingWord (s : State) (b : Buffer) : (s.redraw b).pendingWord = s.pendingWord := rfl
@[simp] theorem redraw_mem (s : State) (b : Buffer) : (s.redraw b).mem = Memory.forget s.mem b.base (b.cap s.caps) := rfl
@[simp] theorem redraw_draws (s : State) (b : Buffer) : (s.redraw b).draws = s.draws.renew b := rfl
@[simp] theorem redraw_readData (s : State) (b : Buffer) : (s.redraw b).readData = s.readData := rfl
@[simp] theorem redraw_inputs (s : State) (b : Buffer) : (s.redraw b).inputs = s.inputs := rfl

/-! ### Several buffers drawn anew -/

/-- Drawing buffers anew changes memory and the draw counters and nothing else. -/
theorem redrawAll_frame (bs : List Buffer) (s : State) :
    redrawAll bs s = { s with mem := (redrawAll bs s).mem, draws := (redrawAll bs s).draws } := by
  induction bs generalizing s with
  | nil => rfl
  | cons b bs ih => exact ih (s.redraw b)

@[simp] theorem redrawAll_caps (bs : List Buffer) (s : State) : (redrawAll bs s).caps = s.caps := by rw [redrawAll_frame]
@[simp] theorem redrawAll_irqEn (bs : List Buffer) (s : State) : (redrawAll bs s).irqEn = s.irqEn := by rw [redrawAll_frame]
@[simp] theorem redrawAll_status (bs : List Buffer) (s : State) : (redrawAll bs s).status = s.status := by rw [redrawAll_frame]
@[simp] theorem redrawAll_error (bs : List Buffer) (s : State) : (redrawAll bs s).error = s.error := by rw [redrawAll_frame]
@[simp] theorem redrawAll_errPos (bs : List Buffer) (s : State) : (redrawAll bs s).errPos = s.errPos := by rw [redrawAll_frame]
@[simp] theorem redrawAll_done (bs : List Buffer) (s : State) : (redrawAll bs s).done = s.done := by rw [redrawAll_frame]
@[simp] theorem redrawAll_inLen (bs : List Buffer) (s : State) : (redrawAll bs s).inLen = s.inLen := by rw [redrawAll_frame]
@[simp] theorem redrawAll_treeLen (bs : List Buffer) (s : State) : (redrawAll bs s).treeLen = s.treeLen := by rw [redrawAll_frame]
@[simp] theorem redrawAll_payLen (bs : List Buffer) (s : State) : (redrawAll bs s).payLen = s.payLen := by rw [redrawAll_frame]
@[simp] theorem redrawAll_outLen (bs : List Buffer) (s : State) : (redrawAll bs s).outLen = s.outLen := by rw [redrawAll_frame]
@[simp] theorem redrawAll_padCount (bs : List Buffer) (s : State) : (redrawAll bs s).padCount = s.padCount := by rw [redrawAll_frame]
@[simp] theorem redrawAll_totalBits (bs : List Buffer) (s : State) : (redrawAll bs s).totalBits = s.totalBits := by rw [redrawAll_frame]
@[simp] theorem redrawAll_leafCount (bs : List Buffer) (s : State) : (redrawAll bs s).leafCount = s.leafCount := by rw [redrawAll_frame]
@[simp] theorem redrawAll_nodeCount (bs : List Buffer) (s : State) : (redrawAll bs s).nodeCount = s.nodeCount := by rw [redrawAll_frame]
@[simp] theorem redrawAll_treeUsed (bs : List Buffer) (s : State) : (redrawAll bs s).treeUsed = s.treeUsed := by rw [redrawAll_frame]
@[simp] theorem redrawAll_maxDepth (bs : List Buffer) (s : State) : (redrawAll bs s).maxDepth = s.maxDepth := by rw [redrawAll_frame]
@[simp] theorem redrawAll_codeSel (bs : List Buffer) (s : State) : (redrawAll bs s).codeSel = s.codeSel := by rw [redrawAll_frame]
@[simp] theorem redrawAll_freq (bs : List Buffer) (s : State) : (redrawAll bs s).freq = s.freq := by rw [redrawAll_frame]
@[simp] theorem redrawAll_codes (bs : List Buffer) (s : State) : (redrawAll bs s).codes = s.codes := by rw [redrawAll_frame]
@[simp] theorem redrawAll_tree (bs : List Buffer) (s : State) : (redrawAll bs s).tree = s.tree := by rw [redrawAll_frame]
@[simp] theorem redrawAll_pendingWord (bs : List Buffer) (s : State) : (redrawAll bs s).pendingWord = s.pendingWord := by rw [redrawAll_frame]
@[simp] theorem redrawAll_readData (bs : List Buffer) (s : State) : (redrawAll bs s).readData = s.readData := by rw [redrawAll_frame]
@[simp] theorem redrawAll_inputs (bs : List Buffer) (s : State) : (redrawAll bs s).inputs = s.inputs := by rw [redrawAll_frame]

/-! ### Issue -/

@[simp] theorem accept_caps (v : Word) (s : State) : (accept v s).caps = s.caps := rfl
@[simp] theorem accept_irqEn (v : Word) (s : State) : (accept v s).irqEn = s.irqEn := rfl
@[simp] theorem accept_status (v : Word) (s : State) : (accept v s).status = { s.status with busy := true, err := false, overrun := false, busyAccess := false, lastOp := opcodeField v } := rfl
@[simp] theorem accept_error (v : Word) (s : State) : (accept v s).error = { code := 0, detail := 0, stage := 0 } := rfl
@[simp] theorem accept_errPos (v : Word) (s : State) : (accept v s).errPos = 0 := rfl
@[simp] theorem accept_done (v : Word) (s : State) : (accept v s).done = s.done := rfl
@[simp] theorem accept_inLen (v : Word) (s : State) : (accept v s).inLen = s.inLen := rfl
@[simp] theorem accept_treeLen (v : Word) (s : State) : (accept v s).treeLen = s.treeLen := rfl
@[simp] theorem accept_payLen (v : Word) (s : State) : (accept v s).payLen = s.payLen := rfl
@[simp] theorem accept_outLen (v : Word) (s : State) : (accept v s).outLen = s.outLen := rfl
@[simp] theorem accept_padCount (v : Word) (s : State) : (accept v s).padCount = s.padCount := rfl
@[simp] theorem accept_totalBits (v : Word) (s : State) : (accept v s).totalBits = s.totalBits := rfl
@[simp] theorem accept_leafCount (v : Word) (s : State) : (accept v s).leafCount = s.leafCount := rfl
@[simp] theorem accept_nodeCount (v : Word) (s : State) : (accept v s).nodeCount = s.nodeCount := rfl
@[simp] theorem accept_treeUsed (v : Word) (s : State) : (accept v s).treeUsed = s.treeUsed := rfl
@[simp] theorem accept_maxDepth (v : Word) (s : State) : (accept v s).maxDepth = s.maxDepth := rfl
@[simp] theorem accept_codeSel (v : Word) (s : State) : (accept v s).codeSel = s.codeSel := rfl
@[simp] theorem accept_freq (v : Word) (s : State) : (accept v s).freq = s.freq := rfl
@[simp] theorem accept_codes (v : Word) (s : State) : (accept v s).codes = s.codes := rfl
@[simp] theorem accept_tree (v : Word) (s : State) : (accept v s).tree = s.tree := rfl
@[simp] theorem accept_pendingWord (v : Word) (s : State) : (accept v s).pendingWord = v := rfl
@[simp] theorem accept_mem (v : Word) (s : State) : (accept v s).mem = s.mem := rfl
@[simp] theorem accept_draws (v : Word) (s : State) : (accept v s).draws = s.draws := rfl
@[simp] theorem accept_readData (v : Word) (s : State) : (accept v s).readData = s.readData := rfl
@[simp] theorem accept_inputs (v : Word) (s : State) : (accept v s).inputs = s.inputs := rfl

/-! ### Errors and completion -/

@[simp] theorem recordError_caps (r : Raise) (s : State) : (recordError r s).caps = s.caps := rfl
@[simp] theorem recordError_irqEn (r : Raise) (s : State) : (recordError r s).irqEn = s.irqEn := rfl
@[simp] theorem recordError_status (r : Raise) (s : State) : (recordError r s).status = { s.status with err := true } := rfl
@[simp] theorem recordError_error (r : Raise) (s : State) : (recordError r s).error = { code := r.kind.code, detail := r.detail, stage := r.stage } := rfl
@[simp] theorem recordError_errPos (r : Raise) (s : State) : (recordError r s).errPos = BitVec.ofNat 32 r.pos := rfl
@[simp] theorem recordError_done (r : Raise) (s : State) : (recordError r s).done = s.done := rfl
@[simp] theorem recordError_inLen (r : Raise) (s : State) : (recordError r s).inLen = s.inLen := rfl
@[simp] theorem recordError_treeLen (r : Raise) (s : State) : (recordError r s).treeLen = s.treeLen := rfl
@[simp] theorem recordError_payLen (r : Raise) (s : State) : (recordError r s).payLen = s.payLen := rfl
@[simp] theorem recordError_outLen (r : Raise) (s : State) : (recordError r s).outLen = s.outLen := rfl
@[simp] theorem recordError_padCount (r : Raise) (s : State) : (recordError r s).padCount = s.padCount := rfl
@[simp] theorem recordError_totalBits (r : Raise) (s : State) : (recordError r s).totalBits = s.totalBits := rfl
@[simp] theorem recordError_leafCount (r : Raise) (s : State) : (recordError r s).leafCount = s.leafCount := rfl
@[simp] theorem recordError_nodeCount (r : Raise) (s : State) : (recordError r s).nodeCount = s.nodeCount := rfl
@[simp] theorem recordError_treeUsed (r : Raise) (s : State) : (recordError r s).treeUsed = s.treeUsed := rfl
@[simp] theorem recordError_maxDepth (r : Raise) (s : State) : (recordError r s).maxDepth = s.maxDepth := rfl
@[simp] theorem recordError_codeSel (r : Raise) (s : State) : (recordError r s).codeSel = s.codeSel := rfl
@[simp] theorem recordError_freq (r : Raise) (s : State) : (recordError r s).freq = s.freq := rfl
@[simp] theorem recordError_codes (r : Raise) (s : State) : (recordError r s).codes = s.codes := rfl
@[simp] theorem recordError_tree (r : Raise) (s : State) : (recordError r s).tree = s.tree := rfl
@[simp] theorem recordError_pendingWord (r : Raise) (s : State) : (recordError r s).pendingWord = s.pendingWord := rfl
@[simp] theorem recordError_mem (r : Raise) (s : State) : (recordError r s).mem = s.mem := rfl
@[simp] theorem recordError_draws (r : Raise) (s : State) : (recordError r s).draws = s.draws := rfl
@[simp] theorem recordError_readData (r : Raise) (s : State) : (recordError r s).readData = s.readData := rfl
@[simp] theorem recordError_inputs (r : Raise) (s : State) : (recordError r s).inputs = s.inputs := rfl
@[simp] theorem idle_caps (s : State) : (idle s).caps = s.caps := rfl
@[simp] theorem idle_irqEn (s : State) : (idle s).irqEn = s.irqEn := rfl
@[simp] theorem idle_status (s : State) : (idle s).status = { s.status with busy := false } := rfl
@[simp] theorem idle_error (s : State) : (idle s).error = s.error := rfl
@[simp] theorem idle_errPos (s : State) : (idle s).errPos = s.errPos := rfl
@[simp] theorem idle_done (s : State) : (idle s).done = true := rfl
@[simp] theorem idle_inLen (s : State) : (idle s).inLen = s.inLen := rfl
@[simp] theorem idle_treeLen (s : State) : (idle s).treeLen = s.treeLen := rfl
@[simp] theorem idle_payLen (s : State) : (idle s).payLen = s.payLen := rfl
@[simp] theorem idle_outLen (s : State) : (idle s).outLen = s.outLen := rfl
@[simp] theorem idle_padCount (s : State) : (idle s).padCount = s.padCount := rfl
@[simp] theorem idle_totalBits (s : State) : (idle s).totalBits = s.totalBits := rfl
@[simp] theorem idle_leafCount (s : State) : (idle s).leafCount = s.leafCount := rfl
@[simp] theorem idle_nodeCount (s : State) : (idle s).nodeCount = s.nodeCount := rfl
@[simp] theorem idle_treeUsed (s : State) : (idle s).treeUsed = s.treeUsed := rfl
@[simp] theorem idle_maxDepth (s : State) : (idle s).maxDepth = s.maxDepth := rfl
@[simp] theorem idle_codeSel (s : State) : (idle s).codeSel = s.codeSel := rfl
@[simp] theorem idle_freq (s : State) : (idle s).freq = s.freq := rfl
@[simp] theorem idle_codes (s : State) : (idle s).codes = s.codes := rfl
@[simp] theorem idle_tree (s : State) : (idle s).tree = s.tree := rfl
@[simp] theorem idle_pendingWord (s : State) : (idle s).pendingWord = s.pendingWord := rfl
@[simp] theorem idle_mem (s : State) : (idle s).mem = s.mem := rfl
@[simp] theorem idle_draws (s : State) : (idle s).draws = s.draws := rfl
@[simp] theorem idle_readData (s : State) : (idle s).readData = s.readData := rfl
@[simp] theorem idle_inputs (s : State) : (idle s).inputs = s.inputs := rfl

/-! ### Dropped writes -/

@[simp] theorem dropWrite_caps (s : State) : (dropWrite s).caps = s.caps := rfl
@[simp] theorem dropWrite_irqEn (s : State) : (dropWrite s).irqEn = s.irqEn := rfl
@[simp] theorem dropWrite_status (s : State) : (dropWrite s).status = { s.status with busyAccess := true } := rfl
@[simp] theorem dropWrite_error (s : State) : (dropWrite s).error = s.error := rfl
@[simp] theorem dropWrite_errPos (s : State) : (dropWrite s).errPos = s.errPos := rfl
@[simp] theorem dropWrite_done (s : State) : (dropWrite s).done = s.done := rfl
@[simp] theorem dropWrite_inLen (s : State) : (dropWrite s).inLen = s.inLen := rfl
@[simp] theorem dropWrite_treeLen (s : State) : (dropWrite s).treeLen = s.treeLen := rfl
@[simp] theorem dropWrite_payLen (s : State) : (dropWrite s).payLen = s.payLen := rfl
@[simp] theorem dropWrite_outLen (s : State) : (dropWrite s).outLen = s.outLen := rfl
@[simp] theorem dropWrite_padCount (s : State) : (dropWrite s).padCount = s.padCount := rfl
@[simp] theorem dropWrite_totalBits (s : State) : (dropWrite s).totalBits = s.totalBits := rfl
@[simp] theorem dropWrite_leafCount (s : State) : (dropWrite s).leafCount = s.leafCount := rfl
@[simp] theorem dropWrite_nodeCount (s : State) : (dropWrite s).nodeCount = s.nodeCount := rfl
@[simp] theorem dropWrite_treeUsed (s : State) : (dropWrite s).treeUsed = s.treeUsed := rfl
@[simp] theorem dropWrite_maxDepth (s : State) : (dropWrite s).maxDepth = s.maxDepth := rfl
@[simp] theorem dropWrite_codeSel (s : State) : (dropWrite s).codeSel = s.codeSel := rfl
@[simp] theorem dropWrite_freq (s : State) : (dropWrite s).freq = s.freq := rfl
@[simp] theorem dropWrite_codes (s : State) : (dropWrite s).codes = s.codes := rfl
@[simp] theorem dropWrite_tree (s : State) : (dropWrite s).tree = s.tree := rfl
@[simp] theorem dropWrite_pendingWord (s : State) : (dropWrite s).pendingWord = s.pendingWord := rfl
@[simp] theorem dropWrite_mem (s : State) : (dropWrite s).mem = s.mem := rfl
@[simp] theorem dropWrite_draws (s : State) : (dropWrite s).draws = s.draws := rfl
@[simp] theorem dropWrite_readData (s : State) : (dropWrite s).readData = s.readData := rfl
@[simp] theorem dropWrite_inputs (s : State) : (dropWrite s).inputs = s.inputs := rfl

/-! ### Registers reset -/

@[simp] theorem resetRegisters_caps (s : State) : (resetRegisters s).caps = s.caps := rfl
@[simp] theorem resetRegisters_irqEn (s : State) : (resetRegisters s).irqEn = State.reset.irqEn := rfl
@[simp] theorem resetRegisters_status (s : State) : (resetRegisters s).status = State.reset.status := rfl
@[simp] theorem resetRegisters_error (s : State) : (resetRegisters s).error = State.reset.error := rfl
@[simp] theorem resetRegisters_errPos (s : State) : (resetRegisters s).errPos = State.reset.errPos := rfl
@[simp] theorem resetRegisters_done (s : State) : (resetRegisters s).done = State.reset.done := rfl
@[simp] theorem resetRegisters_inLen (s : State) : (resetRegisters s).inLen = State.reset.inLen := rfl
@[simp] theorem resetRegisters_treeLen (s : State) : (resetRegisters s).treeLen = State.reset.treeLen := rfl
@[simp] theorem resetRegisters_payLen (s : State) : (resetRegisters s).payLen = State.reset.payLen := rfl
@[simp] theorem resetRegisters_outLen (s : State) : (resetRegisters s).outLen = State.reset.outLen := rfl
@[simp] theorem resetRegisters_padCount (s : State) : (resetRegisters s).padCount = State.reset.padCount := rfl
@[simp] theorem resetRegisters_totalBits (s : State) : (resetRegisters s).totalBits = State.reset.totalBits := rfl
@[simp] theorem resetRegisters_leafCount (s : State) : (resetRegisters s).leafCount = State.reset.leafCount := rfl
@[simp] theorem resetRegisters_nodeCount (s : State) : (resetRegisters s).nodeCount = State.reset.nodeCount := rfl
@[simp] theorem resetRegisters_treeUsed (s : State) : (resetRegisters s).treeUsed = State.reset.treeUsed := rfl
@[simp] theorem resetRegisters_maxDepth (s : State) : (resetRegisters s).maxDepth = State.reset.maxDepth := rfl
@[simp] theorem resetRegisters_codeSel (s : State) : (resetRegisters s).codeSel = State.reset.codeSel := rfl
@[simp] theorem resetRegisters_freq (s : State) : (resetRegisters s).freq = State.reset.freq := rfl
@[simp] theorem resetRegisters_codes (s : State) : (resetRegisters s).codes = State.reset.codes := rfl
@[simp] theorem resetRegisters_tree (s : State) : (resetRegisters s).tree = State.reset.tree := rfl
@[simp] theorem resetRegisters_pendingWord (s : State) : (resetRegisters s).pendingWord = State.reset.pendingWord := rfl
@[simp] theorem resetRegisters_mem (s : State) : (resetRegisters s).mem = s.mem := rfl
@[simp] theorem resetRegisters_draws (s : State) : (resetRegisters s).draws = s.draws := rfl
@[simp] theorem resetRegisters_readData (s : State) : (resetRegisters s).readData = s.readData := rfl
@[simp] theorem resetRegisters_inputs (s : State) : (resetRegisters s).inputs = s.inputs := rfl

/-! ### What the commands write -/

@[simp] theorem loadTree_caps (t : TreeReg) (n m u : Nat) (s : State) : (loadTree t n m u s).caps = s.caps := rfl
@[simp] theorem loadTree_irqEn (t : TreeReg) (n m u : Nat) (s : State) : (loadTree t n m u s).irqEn = s.irqEn := rfl
@[simp] theorem loadTree_status (t : TreeReg) (n m u : Nat) (s : State) : (loadTree t n m u s).status = { s.status with codesValid := false } := rfl
@[simp] theorem loadTree_error (t : TreeReg) (n m u : Nat) (s : State) : (loadTree t n m u s).error = s.error := rfl
@[simp] theorem loadTree_errPos (t : TreeReg) (n m u : Nat) (s : State) : (loadTree t n m u s).errPos = s.errPos := rfl
@[simp] theorem loadTree_done (t : TreeReg) (n m u : Nat) (s : State) : (loadTree t n m u s).done = s.done := rfl
@[simp] theorem loadTree_inLen (t : TreeReg) (n m u : Nat) (s : State) : (loadTree t n m u s).inLen = s.inLen := rfl
@[simp] theorem loadTree_treeLen (t : TreeReg) (n m u : Nat) (s : State) : (loadTree t n m u s).treeLen = s.treeLen := rfl
@[simp] theorem loadTree_payLen (t : TreeReg) (n m u : Nat) (s : State) : (loadTree t n m u s).payLen = s.payLen := rfl
@[simp] theorem loadTree_outLen (t : TreeReg) (n m u : Nat) (s : State) : (loadTree t n m u s).outLen = s.outLen := rfl
@[simp] theorem loadTree_padCount (t : TreeReg) (n m u : Nat) (s : State) : (loadTree t n m u s).padCount = s.padCount := rfl
@[simp] theorem loadTree_totalBits (t : TreeReg) (n m u : Nat) (s : State) : (loadTree t n m u s).totalBits = s.totalBits := rfl
@[simp] theorem loadTree_leafCount (t : TreeReg) (n m u : Nat) (s : State) : (loadTree t n m u s).leafCount = BitVec.ofNat 9 n := rfl
@[simp] theorem loadTree_nodeCount (t : TreeReg) (n m u : Nat) (s : State) : (loadTree t n m u s).nodeCount = BitVec.ofNat 10 m := rfl
@[simp] theorem loadTree_treeUsed (t : TreeReg) (n m u : Nat) (s : State) : (loadTree t n m u s).treeUsed = BitVec.ofNat 10 u := rfl
@[simp] theorem loadTree_maxDepth (t : TreeReg) (n m u : Nat) (s : State) : (loadTree t n m u s).maxDepth = s.maxDepth := rfl
@[simp] theorem loadTree_codeSel (t : TreeReg) (n m u : Nat) (s : State) : (loadTree t n m u s).codeSel = s.codeSel := rfl
@[simp] theorem loadTree_freq (t : TreeReg) (n m u : Nat) (s : State) : (loadTree t n m u s).freq = s.freq := rfl
@[simp] theorem loadTree_codes (t : TreeReg) (n m u : Nat) (s : State) : (loadTree t n m u s).codes = s.codes := rfl
@[simp] theorem loadTree_tree (t : TreeReg) (n m u : Nat) (s : State) : (loadTree t n m u s).tree = t := rfl
@[simp] theorem loadTree_pendingWord (t : TreeReg) (n m u : Nat) (s : State) : (loadTree t n m u s).pendingWord = s.pendingWord := rfl
@[simp] theorem loadTree_mem (t : TreeReg) (n m u : Nat) (s : State) : (loadTree t n m u s).mem = s.mem := rfl
@[simp] theorem loadTree_draws (t : TreeReg) (n m u : Nat) (s : State) : (loadTree t n m u s).draws = s.draws := rfl
@[simp] theorem loadTree_readData (t : TreeReg) (n m u : Nat) (s : State) : (loadTree t n m u s).readData = s.readData := rfl
@[simp] theorem loadTree_inputs (t : TreeReg) (n m u : Nat) (s : State) : (loadTree t n m u s).inputs = s.inputs := rfl
@[simp] theorem writeCodes_caps (g : CodeGen) (s : State) : (writeCodes g s).caps = s.caps := rfl
@[simp] theorem writeCodes_irqEn (g : CodeGen) (s : State) : (writeCodes g s).irqEn = s.irqEn := rfl
@[simp] theorem writeCodes_status (g : CodeGen) (s : State) : (writeCodes g s).status = { s.status with codesValid := true } := rfl
@[simp] theorem writeCodes_error (g : CodeGen) (s : State) : (writeCodes g s).error = s.error := rfl
@[simp] theorem writeCodes_errPos (g : CodeGen) (s : State) : (writeCodes g s).errPos = s.errPos := rfl
@[simp] theorem writeCodes_done (g : CodeGen) (s : State) : (writeCodes g s).done = s.done := rfl
@[simp] theorem writeCodes_inLen (g : CodeGen) (s : State) : (writeCodes g s).inLen = s.inLen := rfl
@[simp] theorem writeCodes_treeLen (g : CodeGen) (s : State) : (writeCodes g s).treeLen = s.treeLen := rfl
@[simp] theorem writeCodes_payLen (g : CodeGen) (s : State) : (writeCodes g s).payLen = s.payLen := rfl
@[simp] theorem writeCodes_outLen (g : CodeGen) (s : State) : (writeCodes g s).outLen = s.outLen := rfl
@[simp] theorem writeCodes_padCount (g : CodeGen) (s : State) : (writeCodes g s).padCount = s.padCount := rfl
@[simp] theorem writeCodes_totalBits (g : CodeGen) (s : State) : (writeCodes g s).totalBits = s.totalBits := rfl
@[simp] theorem writeCodes_leafCount (g : CodeGen) (s : State) : (writeCodes g s).leafCount = s.leafCount := rfl
@[simp] theorem writeCodes_nodeCount (g : CodeGen) (s : State) : (writeCodes g s).nodeCount = s.nodeCount := rfl
@[simp] theorem writeCodes_treeUsed (g : CodeGen) (s : State) : (writeCodes g s).treeUsed = s.treeUsed := rfl
@[simp] theorem writeCodes_maxDepth (g : CodeGen) (s : State) : (writeCodes g s).maxDepth = BitVec.ofNat 8 g.maxDepth := rfl
@[simp] theorem writeCodes_codeSel (g : CodeGen) (s : State) : (writeCodes g s).codeSel = s.codeSel := rfl
@[simp] theorem writeCodes_freq (g : CodeGen) (s : State) : (writeCodes g s).freq = s.freq := rfl
@[simp] theorem writeCodes_codes (g : CodeGen) (s : State) : (writeCodes g s).codes = g.codes := rfl
@[simp] theorem writeCodes_tree (g : CodeGen) (s : State) : (writeCodes g s).tree = s.tree := rfl
@[simp] theorem writeCodes_pendingWord (g : CodeGen) (s : State) : (writeCodes g s).pendingWord = s.pendingWord := rfl
@[simp] theorem writeCodes_mem (g : CodeGen) (s : State) : (writeCodes g s).mem = s.mem := rfl
@[simp] theorem writeCodes_draws (g : CodeGen) (s : State) : (writeCodes g s).draws = s.draws := rfl
@[simp] theorem writeCodes_readData (g : CodeGen) (s : State) : (writeCodes g s).readData = s.readData := rfl
@[simp] theorem writeCodes_inputs (g : CodeGen) (s : State) : (writeCodes g s).inputs = s.inputs := rfl
@[simp] theorem writePayload_caps (bits : Bits) (s : State) : (writePayload bits s).caps = s.caps := by simp [writePayload]
@[simp] theorem writePayload_irqEn (bits : Bits) (s : State) : (writePayload bits s).irqEn = s.irqEn := by simp [writePayload]
@[simp] theorem writePayload_status (bits : Bits) (s : State) : (writePayload bits s).status = s.status := by simp [writePayload]
@[simp] theorem writePayload_error (bits : Bits) (s : State) : (writePayload bits s).error = s.error := by simp [writePayload]
@[simp] theorem writePayload_errPos (bits : Bits) (s : State) : (writePayload bits s).errPos = s.errPos := by simp [writePayload]
@[simp] theorem writePayload_done (bits : Bits) (s : State) : (writePayload bits s).done = s.done := by simp [writePayload]
@[simp] theorem writePayload_inLen (bits : Bits) (s : State) : (writePayload bits s).inLen = s.inLen := by simp [writePayload]
@[simp] theorem writePayload_treeLen (bits : Bits) (s : State) : (writePayload bits s).treeLen = s.treeLen := by simp [writePayload]
@[simp] theorem writePayload_payLen (bits : Bits) (s : State) : (writePayload bits s).payLen = BitVec.ofNat 32 (payloadOf bits).length := by simp [writePayload]
@[simp] theorem writePayload_outLen (bits : Bits) (s : State) : (writePayload bits s).outLen = s.outLen := by simp [writePayload]
@[simp] theorem writePayload_padCount (bits : Bits) (s : State) : (writePayload bits s).padCount = BitVec.ofNat 3 (padOf bits.length) := by simp [writePayload]
@[simp] theorem writePayload_totalBits (bits : Bits) (s : State) : (writePayload bits s).totalBits = BitVec.ofNat 32 bits.length := by simp [writePayload]
@[simp] theorem writePayload_leafCount (bits : Bits) (s : State) : (writePayload bits s).leafCount = s.leafCount := by simp [writePayload]
@[simp] theorem writePayload_nodeCount (bits : Bits) (s : State) : (writePayload bits s).nodeCount = s.nodeCount := by simp [writePayload]
@[simp] theorem writePayload_treeUsed (bits : Bits) (s : State) : (writePayload bits s).treeUsed = s.treeUsed := by simp [writePayload]
@[simp] theorem writePayload_maxDepth (bits : Bits) (s : State) : (writePayload bits s).maxDepth = s.maxDepth := by simp [writePayload]
@[simp] theorem writePayload_codeSel (bits : Bits) (s : State) : (writePayload bits s).codeSel = s.codeSel := by simp [writePayload]
@[simp] theorem writePayload_freq (bits : Bits) (s : State) : (writePayload bits s).freq = s.freq := by simp [writePayload]
@[simp] theorem writePayload_codes (bits : Bits) (s : State) : (writePayload bits s).codes = s.codes := by simp [writePayload]
@[simp] theorem writePayload_tree (bits : Bits) (s : State) : (writePayload bits s).tree = s.tree := by simp [writePayload]
@[simp] theorem writePayload_pendingWord (bits : Bits) (s : State) : (writePayload bits s).pendingWord = s.pendingWord := by simp [writePayload]
@[simp] theorem writePayload_mem (bits : Bits) (s : State) : (writePayload bits s).mem = (s.writeBuf .payBuf 0 (payloadOf bits)).mem := by simp [writePayload]
@[simp] theorem writePayload_draws (bits : Bits) (s : State) : (writePayload bits s).draws = s.draws := by simp [writePayload]
@[simp] theorem writePayload_readData (bits : Bits) (s : State) : (writePayload bits s).readData = s.readData := by simp [writePayload]
@[simp] theorem writePayload_inputs (bits : Bits) (s : State) : (writePayload bits s).inputs = s.inputs := by simp [writePayload]
@[simp] theorem spoilPayload_caps (s : State) : (spoilPayload s).caps = s.caps := rfl
@[simp] theorem spoilPayload_irqEn (s : State) : (spoilPayload s).irqEn = s.irqEn := rfl
@[simp] theorem spoilPayload_status (s : State) : (spoilPayload s).status = s.status := rfl
@[simp] theorem spoilPayload_error (s : State) : (spoilPayload s).error = s.error := rfl
@[simp] theorem spoilPayload_errPos (s : State) : (spoilPayload s).errPos = s.errPos := rfl
@[simp] theorem spoilPayload_done (s : State) : (spoilPayload s).done = s.done := rfl
@[simp] theorem spoilPayload_inLen (s : State) : (spoilPayload s).inLen = s.inLen := rfl
@[simp] theorem spoilPayload_treeLen (s : State) : (spoilPayload s).treeLen = s.treeLen := rfl
@[simp] theorem spoilPayload_payLen (s : State) : (spoilPayload s).payLen = 0 := rfl
@[simp] theorem spoilPayload_outLen (s : State) : (spoilPayload s).outLen = s.outLen := rfl
@[simp] theorem spoilPayload_padCount (s : State) : (spoilPayload s).padCount = s.padCount := rfl
@[simp] theorem spoilPayload_totalBits (s : State) : (spoilPayload s).totalBits = s.totalBits := rfl
@[simp] theorem spoilPayload_leafCount (s : State) : (spoilPayload s).leafCount = s.leafCount := rfl
@[simp] theorem spoilPayload_nodeCount (s : State) : (spoilPayload s).nodeCount = s.nodeCount := rfl
@[simp] theorem spoilPayload_treeUsed (s : State) : (spoilPayload s).treeUsed = s.treeUsed := rfl
@[simp] theorem spoilPayload_maxDepth (s : State) : (spoilPayload s).maxDepth = s.maxDepth := rfl
@[simp] theorem spoilPayload_codeSel (s : State) : (spoilPayload s).codeSel = s.codeSel := rfl
@[simp] theorem spoilPayload_freq (s : State) : (spoilPayload s).freq = s.freq := rfl
@[simp] theorem spoilPayload_codes (s : State) : (spoilPayload s).codes = s.codes := rfl
@[simp] theorem spoilPayload_tree (s : State) : (spoilPayload s).tree = s.tree := rfl
@[simp] theorem spoilPayload_pendingWord (s : State) : (spoilPayload s).pendingWord = s.pendingWord := rfl
@[simp] theorem spoilPayload_mem (s : State) : (spoilPayload s).mem = (s.redraw .payBuf).mem := rfl
@[simp] theorem spoilPayload_draws (s : State) : (spoilPayload s).draws = s.draws.renew .payBuf := rfl
@[simp] theorem spoilPayload_readData (s : State) : (spoilPayload s).readData = s.readData := rfl
@[simp] theorem spoilPayload_inputs (s : State) : (spoilPayload s).inputs = s.inputs := rfl
@[simp] theorem writeOutput_caps (p n : Nat) (out : List Byte) (s : State) : (writeOutput p n out s).caps = s.caps := by simp [writeOutput]
@[simp] theorem writeOutput_irqEn (p n : Nat) (out : List Byte) (s : State) : (writeOutput p n out s).irqEn = s.irqEn := by simp [writeOutput]
@[simp] theorem writeOutput_status (p n : Nat) (out : List Byte) (s : State) : (writeOutput p n out s).status = s.status := by simp [writeOutput]
@[simp] theorem writeOutput_error (p n : Nat) (out : List Byte) (s : State) : (writeOutput p n out s).error = s.error := by simp [writeOutput]
@[simp] theorem writeOutput_errPos (p n : Nat) (out : List Byte) (s : State) : (writeOutput p n out s).errPos = s.errPos := by simp [writeOutput]
@[simp] theorem writeOutput_done (p n : Nat) (out : List Byte) (s : State) : (writeOutput p n out s).done = s.done := by simp [writeOutput]
@[simp] theorem writeOutput_inLen (p n : Nat) (out : List Byte) (s : State) : (writeOutput p n out s).inLen = s.inLen := by simp [writeOutput]
@[simp] theorem writeOutput_treeLen (p n : Nat) (out : List Byte) (s : State) : (writeOutput p n out s).treeLen = s.treeLen := by simp [writeOutput]
@[simp] theorem writeOutput_payLen (p n : Nat) (out : List Byte) (s : State) : (writeOutput p n out s).payLen = s.payLen := by simp [writeOutput]
@[simp] theorem writeOutput_outLen (p n : Nat) (out : List Byte) (s : State) : (writeOutput p n out s).outLen = BitVec.ofNat 32 out.length := by simp [writeOutput]
@[simp] theorem writeOutput_padCount (p n : Nat) (out : List Byte) (s : State) : (writeOutput p n out s).padCount = BitVec.ofNat 3 p := by simp [writeOutput]
@[simp] theorem writeOutput_totalBits (p n : Nat) (out : List Byte) (s : State) : (writeOutput p n out s).totalBits = BitVec.ofNat 32 n := by simp [writeOutput]
@[simp] theorem writeOutput_leafCount (p n : Nat) (out : List Byte) (s : State) : (writeOutput p n out s).leafCount = s.leafCount := by simp [writeOutput]
@[simp] theorem writeOutput_nodeCount (p n : Nat) (out : List Byte) (s : State) : (writeOutput p n out s).nodeCount = s.nodeCount := by simp [writeOutput]
@[simp] theorem writeOutput_treeUsed (p n : Nat) (out : List Byte) (s : State) : (writeOutput p n out s).treeUsed = s.treeUsed := by simp [writeOutput]
@[simp] theorem writeOutput_maxDepth (p n : Nat) (out : List Byte) (s : State) : (writeOutput p n out s).maxDepth = s.maxDepth := by simp [writeOutput]
@[simp] theorem writeOutput_codeSel (p n : Nat) (out : List Byte) (s : State) : (writeOutput p n out s).codeSel = s.codeSel := by simp [writeOutput]
@[simp] theorem writeOutput_freq (p n : Nat) (out : List Byte) (s : State) : (writeOutput p n out s).freq = s.freq := by simp [writeOutput]
@[simp] theorem writeOutput_codes (p n : Nat) (out : List Byte) (s : State) : (writeOutput p n out s).codes = s.codes := by simp [writeOutput]
@[simp] theorem writeOutput_tree (p n : Nat) (out : List Byte) (s : State) : (writeOutput p n out s).tree = s.tree := by simp [writeOutput]
@[simp] theorem writeOutput_pendingWord (p n : Nat) (out : List Byte) (s : State) : (writeOutput p n out s).pendingWord = s.pendingWord := by simp [writeOutput]
@[simp] theorem writeOutput_mem (p n : Nat) (out : List Byte) (s : State) : (writeOutput p n out s).mem = (s.writeBuf .outBuf 0 out).mem := by simp [writeOutput]
@[simp] theorem writeOutput_draws (p n : Nat) (out : List Byte) (s : State) : (writeOutput p n out s).draws = s.draws := by simp [writeOutput]
@[simp] theorem writeOutput_readData (p n : Nat) (out : List Byte) (s : State) : (writeOutput p n out s).readData = s.readData := by simp [writeOutput]
@[simp] theorem writeOutput_inputs (p n : Nat) (out : List Byte) (s : State) : (writeOutput p n out s).inputs = s.inputs := by simp [writeOutput]

end Sys2Proof.Machine
end

