-- ==== Sys2Proof/Laws/Memory.lean ====
section
/-! SUPPORT. Memory: read after write, the canonical form kept by every memory operation, and what a buffer byte reads as
after a write or a draw. -/

namespace Sys2Proof.Machine

/-! ### Read after write -/

theorem get?_set (m : Memory) (a c : Nat) (v : Byte) :
    Memory.get? (Memory.set m a v) c = if a = c then some v else Memory.get? m c := by
  induction m with
  | nil => simp [Memory.set, Memory.get?]
  | cons cell m ih =>
    obtain ⟨k, w⟩ := cell
    simp only [Memory.set]
    split
    · simp [Memory.get?]
    · split
      · next _ h => subst h; simp only [Memory.get?]; split <;> simp_all
      · next h1 h2 =>
        simp only [Memory.get?, ih]
        split
        · next h3 => subst h3; simp [h2]
        · rfl

theorem get?_forget (m : Memory) (lo n c : Nat) :
    Memory.get? (Memory.forget m lo n) c = if lo ≤ c ∧ c < lo + n then none else Memory.get? m c := by
  induction m with
  | nil => simp [Memory.forget, Memory.get?]
  | cons cell m ih =>
    obtain ⟨k, w⟩ := cell
    simp only [Memory.forget, List.filter_cons] at ih ⊢
    by_cases hk : k < lo ∨ lo + n ≤ k
    · simp only [hk, decide_true, if_true, Memory.get?, ih]
      by_cases hc : k = c
      · subst hc; simp only [if_true]; split <;> simp_all; omega
      · simp [hc]
    · simp only [hk, decide_false, Bool.false_eq_true, if_false, Memory.get?, ih]
      split
      · rfl
      · next h => rw [if_neg (by omega)]

/-! ### The canonical form -/

theorem wf_iff (c : Caps) (m : Memory) :
    Memory.wf c m = true ↔ (m.map Prod.fst).Pairwise (· < ·) ∧ ∀ cell ∈ m, isBufferOffset c cell.1 = true := by
  simp [Memory.wf]

theorem keys_set_mem (m : Memory) (a : Nat) (v : Byte) (k : Nat) (h : k ∈ (Memory.set m a v).map Prod.fst) :
    k = a ∨ k ∈ m.map Prod.fst := by
  induction m with
  | nil => simpa [Memory.set] using h
  | cons cell m ih =>
    obtain ⟨j, w⟩ := cell
    simp only [Memory.set] at h
    split at h
    · simpa using h
    · split at h
      · next h2 => subst h2; simp at h ⊢; tauto
      · simp only [List.map_cons, List.mem_cons] at h ⊢
        rcases h with h | h
        · exact .inr (.inl h)
        · rcases ih h with h | h
          · exact .inl h
          · exact .inr (.inr h)

theorem set_sorted (m : Memory) (a : Nat) (v : Byte) (h : (m.map Prod.fst).Pairwise (· < ·)) :
    ((Memory.set m a v).map Prod.fst).Pairwise (· < ·) := by
  induction m with
  | nil => simp [Memory.set]
  | cons cell m ih =>
    obtain ⟨k, w⟩ := cell
    simp only [List.map_cons, List.pairwise_cons] at h
    simp only [Memory.set]
    split
    · next hlt =>
      simp only [List.map_cons, List.pairwise_cons, List.mem_cons]
      exact ⟨fun x hx => by rcases hx with rfl | hx
                            · exact hlt
                            · exact lt_trans hlt (h.1 x hx), h⟩
    · split
      · next _ heq => subst heq; simpa using h
      · next hge hne =>
        simp only [List.map_cons, List.pairwise_cons]
        refine ⟨fun x hx => ?_, ih h.2⟩
        rcases keys_set_mem m a v x hx with rfl | hx
        · omega
        · exact h.1 x hx

theorem mem_set (m : Memory) (a : Nat) (v : Byte) (cell : Host.Cell) (h : cell ∈ Memory.set m a v) :
    cell.1 = a ∨ cell.1 ∈ m.map Prod.fst :=
  keys_set_mem m a v cell.1 (List.mem_map_of_mem h)

/-- A write of a buffer byte keeps the canonical form. -/
theorem wf_set (c : Caps) (m : Memory) (a : Nat) (v : Byte) (h : Memory.wf c m = true)
    (ha : isBufferOffset c a = true) : Memory.wf c (Memory.set m a v) = true := by
  rw [wf_iff] at h ⊢
  refine ⟨set_sorted m a v h.1, fun cell hc => ?_⟩
  rcases mem_set m a v cell hc with h1 | h1
  · rw [h1]; exact ha
  · obtain ⟨d, hd, hd1⟩ := List.mem_map.1 h1
    rw [← hd1]; exact h.2 d hd

/-- Forgetting a range keeps the canonical form. -/
theorem wf_forget (c : Caps) (m : Memory) (lo n : Nat) (h : Memory.wf c m = true) :
    Memory.wf c (Memory.forget m lo n) = true := by
  rw [wf_iff] at h ⊢
  refine ⟨h.1.sublist ((List.filter_sublist).map Prod.fst), fun cell hc => ?_⟩
  exact h.2 cell (List.mem_of_mem_filter hc)

theorem isBufferOffset_base (c : Caps) (b : Buffer) (i : Nat) (h : i < b.cap c) :
    isBufferOffset c (b.base + i) = true := by
  simp only [isBufferOffset, List.any_eq_true]
  exact ⟨b, by cases b <;> simp, by simpa using h⟩

theorem wf_setBuf (s : State) (b : Buffer) (i : Nat) (v : Byte) (h : Memory.wf s.caps s.mem = true)
    (hi : i < b.cap s.caps) : Memory.wf s.caps (s.setBuf b i v).mem = true :=
  wf_set _ _ _ _ h (isBufferOffset_base _ _ _ hi)

/-- A run of bytes written inside a buffer keeps the canonical form. -/
theorem wf_writeBuf (s : State) (b : Buffer) (i : Nat) (vs : List Byte) (h : Memory.wf s.caps s.mem = true)
    (hi : i + vs.length ≤ b.cap s.caps) : Memory.wf s.caps (s.writeBuf b i vs).mem = true := by
  induction vs generalizing s i with
  | nil => exact h
  | cons v vs ih =>
    simp only [List.length_cons] at hi
    exact ih (s.setBuf b i v) (i + 1) (wf_setBuf s b i v h (by omega)) (by simp; omega)

theorem wf_redraw (s : State) (b : Buffer) (h : Memory.wf s.caps s.mem = true) :
    Memory.wf s.caps (s.redraw b).mem = true := wf_forget _ _ _ _ h

theorem wf_redrawAll (bs : List Buffer) (s : State) (h : Memory.wf s.caps s.mem = true) :
    Memory.wf s.caps (redrawAll bs s).mem = true := by
  induction bs generalizing s with
  | nil => exact h
  | cons b bs ih => exact ih (s.redraw b) (wf_redraw s b h)

/-! ### What a buffer byte reads as -/

theorem bufByte_setBuf (s : State) (b c : Buffer) (i j : Nat) (v : Byte) :
    (s.setBuf b i v).bufByte c j = if b.base + i = c.base + j then v else s.bufByte c j := by
  simp only [State.bufByte, setBuf_mem, setBuf_draws, get?_set]
  split <;> simp

/-- A buffer byte after a run of bytes was written: the byte written there, or what it read as before. -/
theorem bufByte_writeBuf (s : State) (b c : Buffer) (i j : Nat) (vs : List Byte) :
    (s.writeBuf b i vs).bufByte c j =
      if b.base + i ≤ c.base + j ∧ c.base + j < b.base + i + vs.length
      then vs.getD (c.base + j - (b.base + i)) 0 else s.bufByte c j := by
  induction vs generalizing s i with
  | nil => rw [if_neg (by simp)]; rfl
  | cons v vs ih =>
    rw [State.writeBuf, ih, bufByte_setBuf]
    simp only [List.length_cons]
    by_cases h0 : b.base + i = c.base + j
    · rw [if_neg (by omega), if_pos h0, if_pos (by omega)]; simp [h0]
    · rw [if_neg h0]
      by_cases h1 : b.base + (i + 1) ≤ c.base + j ∧ c.base + j < b.base + (i + 1) + vs.length
      · rw [if_pos h1, if_pos (by omega)]
        have : c.base + j - (b.base + i) = c.base + j - (b.base + (i + 1)) + 1 := by omega
        rw [this, List.getD_cons_succ]
      · rw [if_neg h1, if_neg (by omega)]

/-- Reading back, within one buffer, what was written from index 0 on. -/
theorem bufByte_writeBuf_same (s : State) (b : Buffer) (j : Nat) (vs : List Byte) (h : j < vs.length) :
    (s.writeBuf b 0 vs).bufByte b j = vs[j] := by
  rw [bufByte_writeBuf, if_pos (by omega)]
  simp [h]

/-- A byte outside the bytes written reads as before. -/
theorem bufByte_writeBuf_other (s : State) (b c : Buffer) (i j : Nat) (vs : List Byte)
    (h : c.base + j < b.base + i ∨ b.base + i + vs.length ≤ c.base + j) :
    (s.writeBuf b i vs).bufByte c j = s.bufByte c j := by
  rw [bufByte_writeBuf, if_neg (by omega)]

theorem draws_of_renew (d : Draws) (b c : Buffer) :
    (d.renew b).of c = if b = c then d.next else d.of c := by
  cases b <;> cases c <;> rfl

/-- A byte of another buffer, outside the offsets drawn anew, reads as before. -/
theorem bufByte_redraw_other (s : State) (b c : Buffer) (j : Nat) (hbc : b ≠ c)
    (h : c.base + j < b.base ∨ b.base + b.cap s.caps ≤ c.base + j) :
    (s.redraw b).bufByte c j = s.bufByte c j := by
  simp only [State.bufByte, redraw_mem, redraw_draws, get?_forget, draws_of_renew]
  rw [if_neg (by omega), if_neg hbc]

/-- A byte drawn anew reads as a free value. -/
theorem bufByte_redraw_same (s : State) (b : Buffer) (j : Nat) (h : j < b.cap s.caps) :
    (s.redraw b).bufByte b j = Config.freeByte s.draws.next (b.base + j) := by
  simp only [State.bufByte, redraw_mem, redraw_draws, get?_forget, draws_of_renew]
  simp [h]

/-- Nothing is listed for a buffer, and its unwritten bytes come from draw `n` (R65). -/
def DrawnFrom (s : State) (b : Buffer) (n : Nat) : Prop :=
  s.draws.of b = n ∧ ∀ i, i < b.cap s.caps → Memory.get? s.mem (b.base + i) = none

theorem bufByte_of_drawnFrom {s : State} {b : Buffer} {n i : Nat} (h : DrawnFrom s b n) (hi : i < b.cap s.caps) :
    s.bufByte b i = Config.freeByte n (b.base + i) := by
  simp [State.bufByte, h.1, h.2 i hi]

theorem drawnFrom_redraw_same (s : State) (b : Buffer) : DrawnFrom (s.redraw b) b s.draws.next := by
  refine ⟨by rw [redraw_draws, draws_of_renew, if_pos rfl], fun i hi => ?_⟩
  rw [redraw_mem, get?_forget, if_pos (by simp at hi; omega)]

theorem drawnFrom_redraw_other {s : State} {b c : Buffer} {n : Nat} (h : DrawnFrom s b n) (hc : c ≠ b) :
    DrawnFrom (s.redraw c) b n := by
  refine ⟨by rw [redraw_draws, draws_of_renew, if_neg hc]; exact h.1, fun i hi => ?_⟩
  rw [redraw_mem, get?_forget]
  split
  · rfl
  · exact h.2 i hi

theorem redraw_next (s : State) (b : Buffer) : (s.redraw b).draws.next = s.draws.next + 1 := by
  cases b <;> rfl

/-- Every buffer drawn anew comes from a new draw (R142, R143). -/
theorem drawnFrom_redrawAll (bs : List Buffer) (s : State) (b : Buffer) (hb : b ∈ bs) :
    ∃ n, s.draws.next ≤ n ∧ DrawnFrom (redrawAll bs s) b n := by
  have keep : ∀ (cs : List Buffer) (t : State), (∃ n, s.draws.next ≤ n ∧ DrawnFrom t b n) →
      s.draws.next ≤ t.draws.next → ∃ n, s.draws.next ≤ n ∧ DrawnFrom (redrawAll cs t) b n := by
    intro cs
    induction cs with
    | nil => exact fun _ h _ => h
    | cons c cs ih =>
      rintro t ⟨n, hn, h⟩ hle
      refine ih (t.redraw c) ?_ (by rw [redraw_next]; omega)
      by_cases hc : c = b
      · subst hc; exact ⟨_, hle, drawnFrom_redraw_same t c⟩
      · exact ⟨n, hn, drawnFrom_redraw_other h hc⟩
  have main : ∀ (cs : List Buffer) (t : State), b ∈ cs → s.draws.next ≤ t.draws.next →
      ∃ n, s.draws.next ≤ n ∧ DrawnFrom (redrawAll cs t) b n := by
    intro cs
    induction cs with
    | nil => exact fun _ h => absurd h List.not_mem_nil
    | cons c cs ih =>
      intro t h hle
      by_cases hc : c = b
      · subst hc
        exact keep cs (t.redraw c) ⟨_, hle, drawnFrom_redraw_same t c⟩ (by rw [redraw_next]; omega)
      · have hm : b ∈ cs := by simpa [Ne.symm hc] using h
        exact ih (t.redraw c) hm (by rw [redraw_next]; omega)
  exact main bs s hb (Nat.le_refl _)

/-- The buffers' offsets do not meet (R155). -/
theorem buffers_disjoint (c : Caps) (hc : c.wf = true) (a b : Buffer) (i j : Nat) (hab : a ≠ b)
    (hi : i < a.cap c) (hj : j < b.cap c) : a.base + i ≠ b.base + j := by
  simp only [Caps.wf, Bool.and_eq_true, decide_eq_true_eq] at hc
  cases a <;> cases b <;> simp_all [Buffer.base, Buffer.cap, treeBufSize] <;> omega

/-- A byte of a buffer that is not drawn anew reads as before. -/
theorem bufByte_redrawAll_other (bs : List Buffer) (s : State) (hc : s.caps.wf = true) (c : Buffer) (hb : c ∉ bs)
    (j : Nat) (hj : j < c.cap s.caps) : (redrawAll bs s).bufByte c j = s.bufByte c j := by
  induction bs generalizing s with
  | nil => rfl
  | cons b bs ih =>
    simp only [List.mem_cons, not_or] at hb
    unfold redrawAll
    rw [ih (s.redraw b) hc hb.2 hj, bufByte_redraw_other _ _ _ _ (Ne.symm hb.1)]
    by_contra hn
    exact buffers_disjoint s.caps hc b c (c.base + j - b.base) j (Ne.symm hb.1) (by omega) hj (by omega)

@[simp] theorem readBuf_length (s : State) (b : Buffer) (n : Nat) : (s.readBuf b n).length = n := by
  simp [State.readBuf]

@[simp] theorem readBuf_getElem (s : State) (b : Buffer) (n i : Nat) (h : i < (s.readBuf b n).length) :
    (s.readBuf b n)[i] = s.bufByte b i := by
  simp [State.readBuf]

/-- A shorter read of a buffer is the start of a longer one. -/
theorem readBuf_take (s : State) (b : Buffer) (n m : Nat) (h : m ≤ n) : (s.readBuf b n).take m = s.readBuf b m := by
  apply List.ext_getElem
  · simp; omega
  · intro i h1 h2; simp

/-- Buffers are read through memory and the draw counters only. -/
theorem bufByte_congr (s t : State) (hm : t.mem = s.mem) (hd : t.draws = s.draws) (b : Buffer) (i : Nat) :
    t.bufByte b i = s.bufByte b i := by
  simp [State.bufByte, hm, hd]

end Sys2Proof.Machine
end

