-- ==== Sys2Proof/Laws/Codec.lean ====
section
/-! SUPPORT. The serialized tree: its length, its parse, how a parse fails, and the counter of R103. -/

namespace Sys2Proof.Machine

/-- A tree of n leaves has a stream of 3n - 1 bytes (R10). -/
theorem ser_length (t : HuffTree) : (ser t).length = 3 * t.numLeaves - 1 := by
  induction t with
  | leaf s => rfl
  | node l r ihl ihr =>
    have := numLeaves_pos l
    have := numLeaves_pos r
    simp only [ser, HuffTree.numLeaves, List.length_cons, List.length_append]; omega

theorem marks_differ : intMark ≠ leafMark := by decide

/-- Parsing undoes serializing, whatever follows (R105, R107). -/
theorem parse_ser (len : Nat) (t : HuffTree) (fuel : Nat) (rest : List Byte) (h : (ser t).length ≤ fuel) :
    parse len fuel (ser t ++ rest) = .ok (t, rest) := by
  induction t generalizing fuel rest with
  | leaf s =>
    cases fuel with
    | zero => simp [ser] at h
    | succ fuel => simp [ser, parse]
  | node l r ihl ihr =>
    cases fuel with
    | zero => simp [ser] at h
    | succ fuel =>
      simp only [ser, List.length_cons, List.length_append] at h
      simp only [ser, List.cons_append, List.append_assoc, parse, if_neg marks_differ, if_true]
      rw [ihl fuel (ser r ++ rest) (by omega)]
      simp only [ihr fuel rest (by omega)]

/-- What parsing accepts is a serialized tree and what follows it (R102). -/
theorem parse_ok (len fuel : Nat) (bs : List Byte) (t : HuffTree) (rest : List Byte)
    (h : parse len fuel bs = .ok (t, rest)) : bs = ser t ++ rest := by
  induction fuel generalizing bs t rest with
  | zero => cases bs <;> simp [parse] at h
  | succ fuel ih =>
    match bs with
    | [] => simp [parse] at h
    | m :: bs =>
      simp only [parse] at h
      split at h
      · next hm =>
        match bs with
        | [] => simp at h
        | s :: bs =>
          simp only [Except.ok.injEq, Prod.mk.injEq] at h
          obtain ⟨rfl, rfl⟩ := h
          simp [ser, hm]
      · split at h
        · next hm =>
          cases hl : parse len fuel bs with
          | error e => simp [hl] at h
          | ok x =>
            obtain ⟨l, restL⟩ := x
            simp only [hl] at h
            cases hr : parse len fuel restL with
            | error e => simp [hr] at h
            | ok y =>
              obtain ⟨r, restR⟩ := y
              simp only [hr, Except.ok.injEq, Prod.mk.injEq] at h
              obtain ⟨rfl, rfl⟩ := h
              rw [ih bs l restL hl, ih restL r restR hr]
              simp [ser, hm]
        · simp at h

/-- How parsing fails (R102): EXHAUSTED at the stream's length, where more bytes could complete the stream to a tree's, or
BAD_MARKER at a byte that is no marker, where the bytes before it start some tree's stream and no bytes after it help. -/
theorem parse_error_extends (len fuel : Nat) (bs : List Byte) (e : ParseFail) (h : parse len fuel bs = .error e)
    (hf : bs.length ≤ fuel) :
    (e.detail = 1 ∧ e.pos = len ∧ ∃ t more, more ≠ [] ∧ ser t = bs ++ more) ∨
    (e.detail = 2 ∧ ∃ before m after, bs = before ++ m :: after ∧ e.pos = len - (after.length + 1) ∧
      m ≠ leafMark ∧ m ≠ intMark ∧ (∃ t more, ser t = before ++ more) ∧
      ∀ len' fuel' after', ∃ e', parse len' fuel' (before ++ m :: after') = .error e') := by
  induction fuel generalizing bs with
  | zero =>
    obtain rfl : bs = [] := List.length_eq_zero_iff.1 (by omega)
    simp only [parse, Except.error.injEq] at h
    exact .inl (by simp [← h]; exact ⟨.leaf 0, by simp [ser]⟩)
  | succ fuel ih =>
    match bs with
    | [] =>
      simp only [parse, Except.error.injEq] at h
      exact .inl (by simp [← h]; exact ⟨.leaf 0, by simp [ser]⟩)
    | m :: bs =>
      simp only [List.length_cons] at hf
      simp only [parse] at h
      split at h
      · next hm =>
        match bs with
        | [] =>
          simp only [Except.error.injEq] at h
          exact .inl ⟨by simp [← h], by simp [← h], .leaf 0, [0], by simp, by simp [ser, hm]⟩
        | s :: bs => simp at h
      · next hm1 =>
        split at h
        · next hm =>
          cases hl : parse len fuel bs with
          | error e' =>
            simp only [hl, Except.error.injEq] at h
            subst h
            rcases ih bs hl (by omega) with ⟨h1, h2, t, more, h3, h4⟩ |
              ⟨h1, b, m', a, h2, h3, h4, h5, ⟨t, more, h6⟩, h7⟩
            · exact .inl ⟨h1, h2, .node t (.leaf 0), more ++ ser (.leaf 0), by simp [h3], by simp [ser, h4, hm]⟩
            · refine .inr ⟨h1, m :: b, m', a, by simp [h2], h3, h4, h5,
                ⟨.node t (.leaf 0), more ++ ser (.leaf 0), by simp [ser, h6, hm]⟩, ?_⟩
              intro len' fuel' after'
              cases fuel' with
              | zero => exact ⟨_, rfl⟩
              | succ f =>
                obtain ⟨e2, he2⟩ := h7 len' f after'
                exact ⟨e2, by simp only [List.cons_append, parse, if_neg hm1, if_pos hm, he2]⟩
          | ok x =>
            obtain ⟨l, restL⟩ := x
            have hbs := parse_ok len fuel bs l restL hl
            have hlen : restL.length ≤ bs.length := by rw [hbs]; simp
            simp only [hl] at h
            cases hr : parse len fuel restL with
            | error e' =>
              simp only [hr, Except.error.injEq] at h
              subst h
              rcases ih restL hr (by omega) with ⟨h1, h2, t, more, h3, h4⟩ |
                ⟨h1, b, m', a, h2, h3, h4, h5, ⟨t, more, h6⟩, h7⟩
              · exact .inl ⟨h1, h2, .node l t, more, h3, by simp [ser, h4, hm, hbs]⟩
              · refine .inr ⟨h1, m :: (ser l ++ b), m', a, by rw [hbs, h2]; simp, h3, h4, h5,
                  ⟨.node l t, more, by simp [ser, h6, hm]⟩, ?_⟩
                intro len' fuel' after'
                cases fuel' with
                | zero => exact ⟨_, rfl⟩
                | succ f =>
                  simp only [List.cons_append, List.append_assoc, parse, if_neg hm1, if_pos hm]
                  cases hx : parse len' f (ser l ++ (b ++ m' :: after')) with
                  | error e => exact ⟨e, rfl⟩
                  | ok y =>
                    obtain ⟨u, ru⟩ := y
                    have h8 := parse_ok _ _ _ _ _ hx
                    have p1 := parse_ser 0 l (ser l).length (b ++ m' :: after') (Nat.le_refl _)
                    have p2 := parse_ser 0 u (max (ser u).length (ser l).length) ru (by omega)
                    have p3 := parse_ser 0 l (max (ser u).length (ser l).length) (b ++ m' :: after') (by omega)
                    rw [← h8, p3] at p2
                    simp only [Except.ok.injEq, Prod.mk.injEq] at p2
                    obtain ⟨e2, he2⟩ := h7 len' f after'
                    rw [← p2.2]
                    simp only [he2]
                    exact ⟨_, rfl⟩
            | ok y => simp [hr] at h
        · next hm2 =>
          simp only [Except.error.injEq] at h
          refine .inr ⟨by simp [← h], [], m, bs, rfl, by simp [← h], hm1, hm2, ⟨.leaf 0, _, rfl⟩, ?_⟩
          intro len' fuel' after'
          cases fuel' with
          | zero => exact ⟨_, rfl⟩
          | succ f => exact ⟨_, by simp only [List.nil_append, parse, if_neg hm1, if_neg hm2]; rfl⟩

/-- The counter at a marker (R103). -/
theorem needScan_cons (len need : Nat) (m : Byte) (rest : List Byte) :
    needScan len (need + 1) (m :: rest) =
      if m = leafMark then
        match rest with
        | []         => .error { detail := 1, pos := len }
        | _ :: rest' => needScan len need rest'
      else if m = intMark then needScan len (need + 2) rest
      else .error { detail := 2, pos := len - (rest.length + 1) } := by
  rw [needScan.eq_def] <;> rfl

/-- One subtree of the counter's count is one parse (R103). -/
theorem needScan_succ (len need fuel : Nat) (bs : List Byte) (hf : bs.length ≤ fuel) :
    needScan len (need + 1) bs =
      match parse len fuel bs with
      | .ok (_, rest) => needScan len need rest
      | .error e      => .error e := by
  induction fuel generalizing need bs with
  | zero =>
    obtain rfl : bs = [] := List.length_eq_zero_iff.1 (by omega)
    simp [needScan, parse]
  | succ fuel ih =>
    match bs with
    | [] => simp [needScan, parse]
    | m :: bs =>
      simp only [List.length_cons] at hf
      by_cases h1 : m = leafMark
      · match bs with
        | [] => simp [needScan, parse, h1]
        | s :: bs => simp [needScan, parse, h1]
      · by_cases h2 : m = intMark
        · have hstep : needScan len (need + 1) (m :: bs) = needScan len (need + 2) bs := by
            rw [needScan_cons, if_neg h1, if_pos h2]
          rw [hstep, ih (need + 1) bs (by omega)]
          simp only [parse, if_neg h1, if_pos h2]
          cases hl : parse len fuel bs with
          | error e => rfl
          | ok x =>
            obtain ⟨l, restL⟩ := x
            have hbs := parse_ok len fuel bs l restL hl
            have hlen : restL.length ≤ bs.length := by rw [hbs]; simp
            simp only
            rw [ih need restL (by omega)]
            cases parse len fuel restL with
            | error e => rfl
            | ok y => rfl
        · rw [needScan_cons]
          simp only [parse, if_neg h1, if_neg h2]

/-- An accepted stream of at most 768 bytes has at most 256 leaves (R10, R104). -/
theorem parseStream_small (bs : List Byte) (t : HuffTree) (rest : List Byte) (h : parseStream bs = .ok (t, rest))
    (hlen : bs.length ≤ treeBufSize) : t.numLeaves ≤ 256 ∧ bs.length = 3 * t.numLeaves - 1 + rest.length := by
  have hb := parse_ok _ _ _ _ _ h
  have h2 : bs.length = 3 * t.numLeaves - 1 + rest.length := by
    rw [hb, List.length_append, ser_length]
  have := numLeaves_pos t
  simp only [treeBufSize] at hlen
  omega

end Sys2Proof.Machine
end

