-- ==== Sys2Proof/Laws/Codes.lean ====
section
/-! SUPPORT. What GEN_CODES' traversal writes. -/

namespace Sys2Proof.Machine

theorem lastPath_leaf (s b : Byte) : (HuffTree.leaf s).lastPath b = if s = b then some [] else none := by
  by_cases h : s = b <;> simp [HuffTree.lastPath, HuffTree.paths, h]

theorem find?_map_snd (l : List (Byte × Bits)) (b : Byte) (x : Bool) :
    ((l.map fun c => (c.1, x :: c.2)).reverse.find? fun c => decide (c.1 = b)).map Prod.snd =
      ((l.reverse.find? fun c => decide (c.1 = b)).map Prod.snd).map (x :: ·) := by
  rw [← List.map_reverse, List.find?_map]
  simp [Function.comp_def]

/-- The last leaf of a symbol stands in the right subtree where that has one (R99). -/
theorem lastPath_node (l r : HuffTree) (b : Byte) :
    (HuffTree.node l r).lastPath b =
      ((r.lastPath b).map (true :: ·)).or ((l.lastPath b).map (false :: ·)) := by
  simp only [HuffTree.lastPath, HuffTree.paths, List.reverse_append, List.find?_append]
  rw [← find?_map_snd, ← find?_map_snd]
  cases (List.find? (fun c => decide (c.1 = b)) (List.map (fun c => (c.1, true :: c.2)) r.paths).reverse) <;> rfl

/-- visit writes at each leaf's symbol the walk to it, later leaves over earlier ones (R96, R99). -/
theorem visit_codes (t : HuffTree) (p : Bits) (g : CodeGen) (b : Byte) :
    tableGet (visit t p g).codes b = ((t.lastPath b).map (p ++ ·)).getD (tableGet g.codes b) := by
  induction t generalizing p g with
  | leaf s =>
    rw [lastPath_leaf]
    by_cases h : s = b <;> simp [visit, tableGet_tableSet, h]
  | node l r ihl ihr =>
    rw [visit, ihr, ihl, lastPath_node]
    cases l.lastPath b <;> cases r.lastPath b <;> simp

/-- R96's MAX_DEPTH is the depth of the deepest leaf visited. -/
theorem visit_maxDepth (t : HuffTree) (p : Bits) (g : CodeGen) :
    (visit t p g).maxDepth = max g.maxDepth (p.length + t.depth) := by
  induction t generalizing p g with
  | leaf s => simp [visit, HuffTree.depth]
  | node l r ihl ihr =>
    rw [visit, ihr, ihl]
    simp only [HuffTree.depth, List.length_append, List.length_cons, List.length_nil]
    omega

theorem genOfTree_node (l r : HuffTree) (b : Byte) :
    tableGet (genOfTree (.node l r)).codes b = ((HuffTree.node l r).lastPath b).getD [] := by
  rw [genOfTree, visit_codes]
  simp [emptyGen]

theorem genOfTree_node_maxDepth (l r : HuffTree) :
    (genOfTree (.node l r)).maxDepth = (HuffTree.node l r).depth := by
  rw [genOfTree, visit_maxDepth]
  simp [emptyGen]

theorem lastPath_mem (t : HuffTree) (b : Byte) (q : Bits) (h : t.lastPath b = some q) : (b, q) ∈ t.paths := by
  simp only [HuffTree.lastPath, Option.map_eq_some_iff] at h
  obtain ⟨c, hc, rfl⟩ := h
  have h1 := List.mem_of_find?_eq_some hc
  have h2 := List.find?_some hc
  simp only [decide_eq_true_eq] at h2
  rw [← h2]
  exact List.mem_reverse.1 h1

/-- A symbol that is a leaf has a last path. -/
theorem lastPath_isSome (t : HuffTree) (b : Byte) (h : b ∈ t.leaves) : ∃ q, t.lastPath b = some q := by
  rw [← paths_leaves] at h
  obtain ⟨c, hc, hcb⟩ := List.mem_map.1 h
  cases hf : t.lastPath b with
  | some q => exact ⟨q, rfl⟩
  | none =>
    simp only [HuffTree.lastPath, Option.map_eq_none_iff, List.find?_eq_none, List.mem_reverse] at hf
    exact absurd hcb (by simpa using hf c hc)

/-- Every code of a tree's table is at most as long as its leaves but one are many, or 1 (R98). -/
theorem genOfTree_length (t : HuffTree) (b : Byte) :
    (tableGet (genOfTree t).codes b).length ≤ max 1 (t.numLeaves - 1) := by
  cases t with
  | leaf s =>
    simp only [genOfTree, tableGet_tableSet]
    split <;> simp [emptyGen]
  | node l r =>
    rw [genOfTree_node]
    cases h : (HuffTree.node l r).lastPath b with
    | none => simp
    | some q =>
      have h1 := paths_length_le_depth _ _ (lastPath_mem _ _ _ h)
      have h2 := depth_lt_numLeaves (.node l r)
      simp only [Option.getD_some] at h1 ⊢
      omega

/-! ### MAX_DEPTH and the lengths in the table (R40, R96) -/

/-- Some leaf is as deep as the tree. -/
theorem deepest_path (t : HuffTree) : ∃ c ∈ t.paths, c.2.length = t.depth := by
  induction t with
  | leaf s => exact ⟨(s, []), by simp [HuffTree.paths], rfl⟩
  | node l r ihl ihr =>
    simp only [HuffTree.paths, HuffTree.depth, List.mem_append, List.mem_map]
    obtain ⟨c, hc, hl⟩ := ihl
    obtain ⟨d, hd, hr⟩ := ihr
    rcases le_total r.depth l.depth with h | h
    · exact ⟨_, .inl ⟨c, hc, rfl⟩, by simp [hl, max_eq_left h]⟩
    · exact ⟨_, .inr ⟨d, hd, rfl⟩, by simp [hr, max_eq_right h]⟩

/-- A symbol of one leaf has that leaf's path as its last (R91). -/
theorem lastPath_of_nodup (t : HuffTree) (c : Byte × Bits) (hn : t.leaves.Nodup) (hc : c ∈ t.paths) :
    t.lastPath c.1 = some c.2 := by
  rw [← paths_leaves] at hn
  obtain ⟨q, hq⟩ := lastPath_isSome t c.1 (by rw [← paths_leaves]; exact List.mem_map_of_mem hc)
  have h := List.inj_on_of_nodup_map hn (lastPath_mem t c.1 q hq) hc rfl
  rw [hq, ← h]

/-- No code of a tree of two leaves or more is longer than its deepest leaf is deep. -/
theorem genOfTree_length_le_depth (l r : HuffTree) (b : Byte) :
    (tableGet (genOfTree (.node l r)).codes b).length ≤ (HuffTree.node l r).depth := by
  rw [genOfTree_node]
  cases h : (HuffTree.node l r).lastPath b with
  | none => simp
  | some q => exact paths_length_le_depth _ _ (lastPath_mem _ _ _ h)

/-- Where no symbol is repeated, the depth is some code's length, so R40 and R96 say the same of MAX_DEPTH. -/
theorem genOfTree_depth_attained (l r : HuffTree) (hn : (HuffTree.node l r).leaves.Nodup) :
    ∃ b, (tableGet (genOfTree (.node l r)).codes b).length = (HuffTree.node l r).depth := by
  obtain ⟨c, hc, hd⟩ := deepest_path (.node l r)
  exact ⟨c.1, by rw [genOfTree_node, lastPath_of_nodup _ c hn hc, Option.getD_some, hd]⟩

end Sys2Proof.Machine
end

