-- ==== Sys2Proof/Laws/Packer.lean ====
section
/-! SUPPORT. The payload's bits: packing and reading back, PACK's loop and UNPACK's walk. -/

namespace Sys2Proof.Machine

/-! ### Bytes and bits (R108) -/

theorem byteOfBits_getLsbD (b0 b1 b2 b3 b4 b5 b6 b7 : Bool) (m : Nat) (hm : m < 8) :
    (byteOfBits b0 b1 b2 b3 b4 b5 b6 b7).getLsbD (7 - m) = [b0, b1, b2, b3, b4, b5, b6, b7].getD m false := by
  interval_cases m <;> revert b0 b1 b2 b3 b4 b5 b6 b7 <;> decide

theorem packBytes_length (bits : Bits) : (packBytes bits).length = bits.length / 8 := by
  induction bits using packBytes.induct with
  | case1 b0 b1 b2 b3 b4 b5 b6 b7 rest ih => simp only [packBytes, List.length_cons, ih]; omega
  | case2 bits h =>
    have : bits.length < 8 := by
      by_contra hn
      match bits, h, hn with
      | b0 :: b1 :: b2 :: b3 :: b4 :: b5 :: b6 :: b7 :: rest, h, _ => exact h _ _ _ _ _ _ _ _ _ rfl
      | [], _, hn => simp at hn
      | [_], _, hn => simp at hn
      | [_, _], _, hn => simp at hn
      | [_, _, _], _, hn => simp at hn
      | [_, _, _, _], _, hn => simp at hn
      | [_, _, _, _, _], _, hn => simp at hn
      | [_, _, _, _, _, _], _, hn => simp at hn
      | [_, _, _, _, _, _, _], _, hn => simp at hn
    rw [Nat.div_eq_of_lt this]
    simp only [packBytes]
    rfl

/-- Bit j of the packed bytes is bit j of the sequence (R108). -/
theorem packBytes_bit (bits : Bits) (j : Nat) (hj : j / 8 < bits.length / 8) :
    ((packBytes bits).getD (j / 8) 0).getLsbD (7 - j % 8) = bits.getD j false := by
  induction bits using packBytes.induct generalizing j with
  | case1 b0 b1 b2 b3 b4 b5 b6 b7 rest ih =>
    simp only [packBytes]
    by_cases h8 : j < 8
    · rw [Nat.div_eq_of_lt h8, Nat.mod_eq_of_lt h8, List.getD_cons_zero, byteOfBits_getLsbD _ _ _ _ _ _ _ _ _ h8]
      interval_cases j <;> rfl
    · obtain ⟨k, rfl⟩ : ∃ k, j = k + 8 := ⟨j - 8, by omega⟩
      have h1 : (k + 8) / 8 = k / 8 + 1 := by omega
      have h2 : (k + 8) % 8 = k % 8 := by omega
      rw [h1, h2, List.getD_cons_succ, ih k (by simp only [List.length_cons] at hj; omega)]
      rfl
  | case2 bits h =>
    exfalso
    have hl := packBytes_length bits
    have : packBytes bits = [] := by simp only [packBytes]
    rw [this] at hl
    simp at hl
    omega

theorem padOf_lt (n : Nat) : padOf n < 8 := Nat.mod_lt _ (by omega)

/-- The Padding Count makes the length a multiple of 8 (R81). -/
theorem padOf_mod (n : Nat) : (n + padOf n) % 8 = 0 := by
  simp only [padOf]; omega

@[simp] theorem payloadOf_length (bits : Bits) :
    (payloadOf bits).length = 1 + (bits.length + padOf bits.length) / 8 := by
  simp only [payloadOf, List.length_cons, packBytes_length, List.length_append, List.length_replicate]; omega

/-- The bits of a payload in PAY_BUF are the data bits, then the filler (R80, R108). -/
theorem payloadBit_writePayload (bits : Bits) (s : State) (j : Nat)
    (hj : j < bits.length + padOf bits.length) :
    payloadBit (writePayload bits s) j = (bits ++ List.replicate (padOf bits.length) false).getD j false := by
  have hm := padOf_mod bits.length
  have hlen : (bits ++ List.replicate (padOf bits.length) false).length = bits.length + padOf bits.length := by simp
  have hb : (writePayload bits s).bufByte .payBuf (1 + j / 8) =
      (packBytes (bits ++ List.replicate (padOf bits.length) false)).getD (j / 8) 0 := by
    rw [bufByte_congr (s.writeBuf .payBuf 0 (payloadOf bits)) _ (by simp) (by simp)]
    rw [bufByte_writeBuf_same _ _ _ _ (by rw [payloadOf_length]; omega)]
    simp only [payloadOf, Nat.add_comm 1 (j / 8), List.getElem_cons_succ]
    rw [List.getD_eq_getElem]
  rw [payloadBit, hb, packBytes_bit _ _ (by rw [hlen]; omega)]

theorem payloadBits_length (s : State) (n : Nat) : (payloadBits s n).length = n := by simp [payloadBits]

/-- Reading back the data bits PACK wrote (R109, R112). -/
theorem payloadBits_writePayload (bits : Bits) (s : State) :
    payloadBits (writePayload bits s) bits.length = bits := by
  apply List.ext_getElem (by simp [payloadBits])
  intro j h1 h2
  simp only [payloadBits, List.getElem_map, List.getElem_range]
  rw [payloadBit_writePayload _ _ _ (by omega)]
  rw [List.getD_eq_getElem _ _ (by simp; omega), List.getElem_append_left h2]

/-! ### PACK's loop (R109) -/

/-- PACK's loop succeeds on bytes that all have codes and whose bits fit, and gives the codes in input order. -/
theorem packLoop_ok (codes : Table Bits) (capacity i : Nat) (acc : Bits) (bs : List Byte)
    (hc : ∀ b ∈ bs, tableGet codes b ≠ [])
    (hb : (acc ++ encodedBits codes bs).length ≤ capacity) :
    packLoop codes capacity i acc bs = .ok (acc ++ encodedBits codes bs) := by
  induction bs generalizing i acc with
  | nil => simp [packLoop, encodedBits]
  | cons b bs ih =>
    have hne := hc b List.mem_cons_self
    have hcat : acc ++ encodedBits codes (b :: bs) = acc ++ tableGet codes b ++ encodedBits codes bs := by
      simp [encodedBits]
    rw [hcat] at hb ⊢
    rw [packLoop, if_neg (by simpa using hne), if_neg (by rw [List.length_append] at hb; omega)]
    exact ih (i + 1) _ (fun c h => hc c (List.mem_cons_of_mem b h)) hb

/-- PACK's loop goes through bytes that have codes and fit (R109). -/
theorem packLoop_append (codes : Table Bits) (capacity i : Nat) (acc : Bits) (bs cs : List Byte)
    (hc : ∀ b ∈ bs, tableGet codes b ≠ [])
    (hb : (acc ++ encodedBits codes bs).length ≤ capacity) :
    packLoop codes capacity i acc (bs ++ cs) =
      packLoop codes capacity (i + bs.length) (acc ++ encodedBits codes bs) cs := by
  induction bs generalizing i acc with
  | nil => simp [encodedBits]
  | cons b bs ih =>
    have hne := hc b List.mem_cons_self
    have hcat : acc ++ encodedBits codes (b :: bs) = acc ++ tableGet codes b ++ encodedBits codes bs := by
      simp [encodedBits]
    rw [hcat] at hb ⊢
    rw [List.cons_append, packLoop, if_neg (by simpa using hne), if_neg (by rw [List.length_append] at hb; omega)]
    rw [ih (i + 1) _ (fun c h => hc c (List.mem_cons_of_mem b h)) hb]
    simp only [List.length_cons]
    congr 1
    omega

/-- What PACK's loop answers when it answers bits. -/
theorem packLoop_ok_inv (codes : Table Bits) (capacity i : Nat) (acc : Bits) (bs : List Byte) (bits : Bits)
    (ha : acc.length ≤ capacity) (h : packLoop codes capacity i acc bs = .ok bits) :
    bits = acc ++ encodedBits codes bs ∧ bits.length ≤ capacity ∧ ∀ b ∈ bs, tableGet codes b ≠ [] := by
  induction bs generalizing i acc with
  | nil =>
    simp only [packLoop, Except.ok.injEq] at h
    subst h
    simp [encodedBits, ha]
  | cons b bs ih =>
    rw [packLoop] at h
    split at h
    · simp at h
    · next hne =>
      split at h
      · simp at h
      · next hcap =>
        obtain ⟨h1, h2, h3⟩ := ih (i + 1) _ (by omega) h
        refine ⟨by rw [h1]; simp [encodedBits], h2, ?_⟩
        intro c hc
        rcases List.mem_cons.1 hc with rfl | hc
        · simpa using hne
        · exact h3 c hc

/-- The kinds of error PACK's loop raises (R109). -/
theorem packLoop_error_kind (codes : Table Bits) (capacity i : Nat) (acc : Bits) (bs : List Byte) (e : PackFail)
    (h : packLoop codes capacity i acc bs = .error e) :
    e.kind = .symbolNotInTable ∨ e.kind = .payloadOverflow := by
  induction bs generalizing i acc with
  | nil => simp [packLoop] at h
  | cons b bs ih =>
    rw [packLoop] at h
    split at h
    · simp only [Except.error.injEq] at h; exact .inl (by rw [← h])
    · split at h
      · simp only [Except.error.injEq] at h; exact .inr (by rw [← h])
      · exact ih _ _ h

/-! ### UNPACK's walk (R112) -/

/-- Walking bits that end short of a leaf only moves the walk position. -/
theorem walk_inside (l r : HuffTree) (maxOut j : Nat) (p q : Bits) (out : List Byte) (bits : Bits)
    (h : ∃ u v, subtree (.node l r) (p ++ q) = some (.node u v)) :
    walk (.node l r) maxOut j p out (q ++ bits) = walk (.node l r) maxOut (j + q.length) (p ++ q) out bits := by
  induction q generalizing j p with
  | nil => simp
  | cons b q ih =>
    have hassoc : p ++ b :: q = p ++ [b] ++ q := by simp
    rw [hassoc] at h ⊢
    have hnode : ∃ u v, subtree (.node l r) (p ++ [b]) = some (.node u v) := by
      cases q with
      | nil => simpa using h
      | cons c q =>
        obtain ⟨u, v, huv⟩ := h
        exact subtree_of_longer _ (p ++ [b]) c q _ huv
    obtain ⟨u, v, huv⟩ := hnode
    rw [List.cons_append, walk]
    simp only [symbolDue, huv]
    rw [ih (j + 1) (p ++ [b]) h]
    simp only [List.length_cons]
    congr 1
    omega

/-- Walking a leaf's whole path decodes its symbol and goes back to the root, where OUT_BUF has room, and else raises at
the path's last bit (R112). -/
theorem walk_symbol (l r : HuffTree) (maxOut j : Nat) (out : List Byte) (s : Byte) (q bits : Bits)
    (h : (s, q) ∈ (HuffTree.node l r).paths) :
    walk (.node l r) maxOut j [] out (q ++ bits) =
      if out.length = maxOut then .full out (j + q.length - 1)
      else walk (.node l r) maxOut (j + q.length) [] (out ++ [s]) bits := by
  rw [mem_paths_iff] at h
  rcases List.eq_nil_or_concat q with rfl | ⟨q', b, rfl⟩
  · simp [subtree] at h
  · have hin : ∃ u v, subtree (.node l r) ([] ++ q') = some (.node u v) :=
      subtree_of_longer _ q' b [] _ (by simpa using h)
    have hcat : q'.concat b ++ bits = q' ++ (b :: bits) := by simp
    rw [hcat, walk_inside l r maxOut j [] q' out (b :: bits) hin, walk]
    have hs : subtree (.node l r) (q' ++ [b]) = some (.leaf s) := by simpa using h
    simp only [List.nil_append, symbolDue, hs, List.length_concat]
    have e1 : j + (q'.length + 1) - 1 = j + q'.length := by omega
    have e2 : j + (q'.length + 1) = j + q'.length + 1 := by omega
    rw [e1, e2]

/-- Walking the paths of a list of leaves decodes their symbols (R112). -/
theorem walk_symbols (l r : HuffTree) (maxOut j : Nat) (out : List Byte) (cs : List (Byte × Bits)) (bits : Bits)
    (h : ∀ c ∈ cs, c ∈ (HuffTree.node l r).paths) (ho : out.length + cs.length ≤ maxOut) :
    walk (.node l r) maxOut j [] out (cs.flatMap Prod.snd ++ bits) =
      walk (.node l r) maxOut (j + (cs.flatMap Prod.snd).length) [] (out ++ cs.map Prod.fst) bits := by
  induction cs generalizing j out with
  | nil => simp
  | cons c cs ih =>
    simp only [List.length_cons] at ho
    rw [List.flatMap_cons, List.append_assoc,
      walk_symbol l r maxOut j out c.1 c.2 _ (h c List.mem_cons_self), if_neg (by omega),
      ih _ _ (fun d hd => h d (List.mem_cons_of_mem c hd)) (by simp; omega)]
    simp only [List.length_append, List.map_cons, List.append_assoc, List.cons_append, List.nil_append]
    congr 1
    omega

/-- A single-leaf tree decodes each bit, whatever its value, to its symbol (R113). -/
theorem walk_leaf (s : Byte) (maxOut j : Nat) (out : List Byte) (bits : Bits) (h : out.length + bits.length ≤ maxOut) :
    walk (.leaf s) maxOut j [] out bits = .atBit (out ++ List.replicate bits.length s) [] := by
  induction bits generalizing j out with
  | nil => simp [walk]
  | cons b bits ih =>
    simp only [List.length_cons] at h
    rw [walk]
    simp only [symbolDue]
    rw [if_neg (by omega), ih _ _ (by simp; omega)]
    simp [List.replicate_succ]

/-- The symbols decoded when the walk ends. -/
def WalkEnd.out : WalkEnd → List Byte
  | .atBit out _ => out
  | .full out _  => out

/-- The walk never decodes more symbols than OUT_BUF holds (R112). -/
theorem walk_out_le (t : HuffTree) (maxOut j : Nat) (q : Bits) (out : List Byte) (bits : Bits)
    (h : out.length ≤ maxOut) : (walk t maxOut j q out bits).out.length ≤ maxOut := by
  induction bits generalizing j q out with
  | nil => exact h
  | cons b bits ih =>
    rw [walk]
    cases symbolDue t (q ++ [b]) with
    | none => exact ih _ _ _ h
    | some s =>
      simp only
      split
      · exact h
      · exact ih _ _ _ (by simp; omega)

/-! ### What UNPACK's output reads as -/

theorem writeOutput_frame (p n : Nat) (out : List Byte) (s : State) :
    writeOutput p n out s =
      { s with mem := (writeOutput p n out s).mem
               outLen := BitVec.ofNat 32 out.length
               padCount := BitVec.ofNat 3 p
               totalBits := BitVec.ofNat 32 n } := by
  unfold writeOutput
  rw [writeBuf_frame]

theorem writeOutput_readBuf (p n : Nat) (out : List Byte) (s : State) :
    (writeOutput p n out s).readBuf .outBuf out.length = out := by
  apply List.ext_getElem (by simp)
  intro i h1 h2
  rw [readBuf_getElem]
  exact (bufByte_congr (s.writeBuf .outBuf 0 out) _ rfl rfl _ _).trans (bufByte_writeBuf_same s _ i _ h2)

theorem writeOutput_other (p n : Nat) (out : List Byte) (s : State) (b : Buffer) (i : Nat)
    (h : b.base + i < Buffer.outBuf.base ∨ Buffer.outBuf.base + out.length ≤ b.base + i) :
    (writeOutput p n out s).bufByte b i = s.bufByte b i :=
  (bufByte_congr (s.writeBuf .outBuf 0 out) _ rfl rfl _ _).trans (bufByte_writeBuf_other s _ _ _ _ _ (by omega))

end Sys2Proof.Machine
end

