-- ==== Sys2Proof/Laws/Commands.lean ====
section
/-! SUPPORT. What each command's pseudocode can answer, said once: every case with its guard and the state it leaves. Later
proofs cite these and do not unfold the commands. -/

namespace Sys2Proof.Machine

/-- The state a command's pseudocode has written when it ends. -/
def CmdResult.state : CmdResult → State
  | .complete s => s
  | .raised s _ => s

/-- The stage named by a raise of a primitive is the primitive's own opcode (R125). -/
abbrev raiseOf (i : Instr) (k : ErrorKind) (d : Byte) (p : Nat) : Raise :=
  { kind := k, detail := d, pos := p, stage := opcode i }

theorem runCount_cases (s : State) :
    (s.caps.maxIn < s.inLen.toNat ∧ runCount s = .raised s (raiseOf .count .lengthRange 1 s.inLen.toNat)) ∨
    (s.inLen.toNat ≤ s.caps.maxIn ∧ runCount s = .complete { s with freq := countTable (inBytes s) }) := by
  unfold runCount
  split
  · exact .inl ⟨‹_›, rfl⟩
  · exact .inr ⟨by omega, rfl⟩

theorem runGenCodes_cases (s : State) :
    (s.tree = .none ∧ runGenCodes s = .raised s (raiseOf .genCodes .noTree 0 0)) ∨
    (s.tree = .absent ∧ runGenCodes s = .complete (writeCodes emptyGen s)) ∨
    (∃ t, s.tree = .present t ∧ runGenCodes s = .complete (writeCodes (genOfTree t) s)) := by
  unfold runGenCodes
  cases s.tree with
  | none => exact .inl ⟨rfl, rfl⟩
  | absent => exact .inr (.inl ⟨rfl, rfl⟩)
  | present t => exact .inr (.inr ⟨t, rfl, rfl⟩)

theorem runSerialize_cases (s : State) :
    (s.tree = .none ∧ runSerialize s = .raised s (raiseOf .serialize .noTree 0 0)) ∨
    (s.tree = .absent ∧ runSerialize s = .complete { s with treeLen := 0 }) ∨
    (∃ t, s.tree = .present t ∧ runSerialize s =
      .complete { s.writeBuf .treeBuf 0 (ser t) with treeLen := BitVec.ofNat 32 (ser t).length }) := by
  unfold runSerialize
  cases s.tree with
  | none => exact .inl ⟨rfl, rfl⟩
  | absent => exact .inr (.inl ⟨rfl, rfl⟩)
  | present t => exact .inr (.inr ⟨t, rfl, rfl⟩)

theorem runDeserialize_cases (s : State) :
    (768 < s.treeLen.toNat ∧
      runDeserialize s = .raised s (raiseOf .deserialize .lengthRange 2 s.treeLen.toNat)) ∨
    (s.treeLen.toNat = 0 ∧ runDeserialize s = .complete (loadTree .absent 0 0 0 s)) ∨
    (0 < s.treeLen.toNat ∧ s.treeLen.toNat ≤ 768 ∧ ∃ t rest, parseStream (treeBytes s) = .ok (t, rest) ∧
      runDeserialize s =
        .complete (loadTree (.present t) t.numLeaves t.numNodes (s.treeLen.toNat - rest.length) s)) ∨
    (0 < s.treeLen.toNat ∧ s.treeLen.toNat ≤ 768 ∧ ∃ e, parseStream (treeBytes s) = .error e ∧
      runDeserialize s =
        .raised (loadTree .none 0 0 0 s) (raiseOf .deserialize .malformedTree e.detail e.pos)) := by
  unfold runDeserialize treeBufSize
  split
  · exact .inl ⟨‹_›, rfl⟩
  · split
    · exact .inr (.inl ⟨‹_›, rfl⟩)
    · cases h : parseStream (treeBytes s) with
      | ok x => exact .inr (.inr (.inl ⟨by omega, by omega, x.1, x.2, rfl, rfl⟩))
      | error e => exact .inr (.inr (.inr ⟨by omega, by omega, e, rfl, rfl⟩))

theorem runPack_cases (s : State) :
    (s.status.codesValid = false ∧ runPack s = .raised s (raiseOf .pack .noCodes 0 0)) ∨
    (s.status.codesValid = true ∧ s.caps.maxIn < s.inLen.toNat ∧
      runPack s = .raised s (raiseOf .pack .lengthRange 1 s.inLen.toNat)) ∨
    (s.status.codesValid = true ∧ s.inLen.toNat ≤ s.caps.maxIn ∧
      ∃ bits, packLoop s.codes (8 * (s.caps.maxPay - 1)) 0 [] (inBytes s) = .ok bits ∧
        runPack s = .complete (writePayload bits s)) ∨
    (s.status.codesValid = true ∧ s.inLen.toNat ≤ s.caps.maxIn ∧
      ∃ e, packLoop s.codes (8 * (s.caps.maxPay - 1)) 0 [] (inBytes s) = .error e ∧
        runPack s = .raised (spoilPayload s) (raiseOf .pack e.kind 0 e.pos)) := by
  unfold runPack
  split
  · exact .inl ⟨‹_›, rfl⟩
  · next hv =>
    rw [Bool.not_eq_false] at hv
    split
    · exact .inr (.inl ⟨hv, ‹_›, rfl⟩)
    · cases h : packLoop s.codes (8 * (s.caps.maxPay - 1)) 0 [] (inBytes s) with
      | ok bits => exact .inr (.inr (.inl ⟨hv, by omega, bits, rfl, rfl⟩))
      | error e => exact .inr (.inr (.inr ⟨hv, by omega, e, rfl, rfl⟩))

theorem unpackWalk_cases (t : HuffTree) (p n : Nat) (s : State) :
    (∃ out j, walk t s.caps.maxOut 0 [] [] (payloadBits s n) = .full out j ∧
      unpackWalk t p n s = .raised (writeOutput p n out s) (raiseOf .unpack .outputOverflow 0 j)) ∨
    (∃ out, walk t s.caps.maxOut 0 [] [] (payloadBits s n) = .atBit out [] ∧
      unpackWalk t p n s = .complete (writeOutput p n out s)) ∨
    (∃ out b q, walk t s.caps.maxOut 0 [] [] (payloadBits s n) = .atBit out (b :: q) ∧
      unpackWalk t p n s = .raised (writeOutput p n out s) (raiseOf .unpack .truncatedPayload 1 n)) := by
  unfold unpackWalk
  cases walk t s.caps.maxOut 0 [] [] (payloadBits s n) with
  | full out j => exact .inl ⟨out, j, rfl, rfl⟩
  | atBit out q =>
    cases q with
    | nil => exact .inr (.inl ⟨out, rfl, rfl⟩)
    | cons b q => exact .inr (.inr ⟨out, b, q, rfl, rfl⟩)

/-- UNPACK after its first two checks (R112). -/
theorem unpackLoaded_cases (r : TreeReg) (s : State) :
    (s.payLen.toNat = 0 ∧
      unpackLoaded r s = .raised { s with outLen := 0 } (raiseOf .unpack .truncatedPayload 2 0)) ∨
    ((∀ t, r ≠ .present t) ∧ 0 < s.payLen.toNat ∧ unpackLoaded r s = .complete { s with outLen := 0 }) ∨
    (∃ t, r = .present t ∧ 0 < s.payLen.toNat ∧ 7 < (s.bufByte .payBuf 0).toNat ∧
      unpackLoaded r s = .raised { s with outLen := 0 } (raiseOf .unpack .badPadding 1 0)) ∨
    (∃ t, r = .present t ∧ 0 < s.payLen.toNat ∧
      (s.bufByte .payBuf 0).toNat ≤ 7 ∧ 8 * (s.payLen.toNat - 1) < (s.bufByte .payBuf 0).toNat ∧
      unpackLoaded r s = .raised { s with outLen := 0 } (raiseOf .unpack .badPadding 2 0)) ∨
    (∃ t, r = .present t ∧ 0 < s.payLen.toNat ∧
      (s.bufByte .payBuf 0).toNat ≤ 7 ∧ (s.bufByte .payBuf 0).toNat ≤ 8 * (s.payLen.toNat - 1) ∧
      unpackLoaded r s = unpackWalk t (s.bufByte .payBuf 0).toNat
        (8 * (s.payLen.toNat - 1) - (s.bufByte .payBuf 0).toNat) s) := by
  unfold unpackLoaded
  split
  · exact .inl ⟨‹_›, rfl⟩
  · cases r with
    | none => exact .inr (.inl ⟨by simp, by omega, rfl⟩)
    | absent => exact .inr (.inl ⟨by simp, by omega, rfl⟩)
    | present t =>
      simp only [unpackChecked]
      split
      · exact .inr (.inr (.inl ⟨t, rfl, by omega, ‹_›, rfl⟩))
      · split
        · exact .inr (.inr (.inr (.inl ⟨t, rfl, by omega, by omega, ‹_›, rfl⟩)))
        · exact .inr (.inr (.inr (.inr ⟨t, rfl, by omega, by omega, by omega, rfl⟩)))

/-- What UNPACK does before its walk (R112). -/
theorem runUnpack_cases (s : State) :
    (s.tree = .none ∧ runUnpack s = .raised s (raiseOf .unpack .noTree 0 0)) ∨
    (s.tree ≠ .none ∧ s.caps.maxPay < s.payLen.toNat ∧
      runUnpack s = .raised s (raiseOf .unpack .lengthRange 3 s.payLen.toNat)) ∨
    (s.tree ≠ .none ∧ s.payLen.toNat = 0 ∧
      runUnpack s = .raised { s with outLen := 0 } (raiseOf .unpack .truncatedPayload 2 0)) ∨
    (s.tree = .absent ∧ 0 < s.payLen.toNat ∧ s.payLen.toNat ≤ s.caps.maxPay ∧
      runUnpack s = .complete { s with outLen := 0 }) ∨
    (∃ t, s.tree = .present t ∧ 0 < s.payLen.toNat ∧ s.payLen.toNat ≤ s.caps.maxPay ∧
      7 < (s.bufByte .payBuf 0).toNat ∧
      runUnpack s = .raised { s with outLen := 0 } (raiseOf .unpack .badPadding 1 0)) ∨
    (∃ t, s.tree = .present t ∧ 0 < s.payLen.toNat ∧ s.payLen.toNat ≤ s.caps.maxPay ∧
      (s.bufByte .payBuf 0).toNat ≤ 7 ∧ 8 * (s.payLen.toNat - 1) < (s.bufByte .payBuf 0).toNat ∧
      runUnpack s = .raised { s with outLen := 0 } (raiseOf .unpack .badPadding 2 0)) ∨
    (∃ t, s.tree = .present t ∧ 0 < s.payLen.toNat ∧ s.payLen.toNat ≤ s.caps.maxPay ∧
      (s.bufByte .payBuf 0).toNat ≤ 7 ∧ (s.bufByte .payBuf 0).toNat ≤ 8 * (s.payLen.toNat - 1) ∧
      runUnpack s = unpackWalk t (s.bufByte .payBuf 0).toNat
        (8 * (s.payLen.toNat - 1) - (s.bufByte .payBuf 0).toNat) s) := by
  unfold runUnpack
  split
  · exact .inl ⟨‹_›, rfl⟩
  · next hn =>
    split
    · exact .inr (.inl ⟨hn, ‹_›, rfl⟩)
    · next hp =>
      rcases unpackLoaded_cases s.tree s with ⟨h0, hr⟩ | ⟨ht, h0, hr⟩ | ⟨t, ht, h0, h1, hr⟩ |
        ⟨t, ht, h0, h1, h2, hr⟩ | ⟨t, ht, h0, h1, h2, hr⟩
      · exact .inr (.inr (.inl ⟨hn, h0, hr⟩))
      · refine .inr (.inr (.inr (.inl ⟨?_, h0, by omega, hr⟩)))
        cases hs : s.tree with
        | none => exact absurd hs hn
        | absent => rfl
        | present t => exact absurd hs (ht t)
      · exact .inr (.inr (.inr (.inr (.inl ⟨t, ht, h0, by omega, h1, hr⟩))))
      · exact .inr (.inr (.inr (.inr (.inr (.inl ⟨t, ht, h0, by omega, h1, h2, hr⟩)))))
      · exact .inr (.inr (.inr (.inr (.inr (.inr ⟨t, ht, h0, by omega, h1, h2, hr⟩)))))

/-- PACK of bytes that all have codes and fit (R109). -/
theorem runPack_of_codes (s : State) (hv : s.status.codesValid = true) (hl : s.inLen.toNat ≤ s.caps.maxIn)
    (h1 : ∀ b ∈ inBytes s, tableGet s.codes b ≠ [])
    (h2 : (encodedBits s.codes (inBytes s)).length ≤ 8 * (s.caps.maxPay - 1)) :
    runPack s = .complete (writePayload (encodedBits s.codes (inBytes s)) s) := by
  have hp := packLoop_ok s.codes (8 * (s.caps.maxPay - 1)) 0 [] (inBytes s) h1 (by simpa using h2)
  rcases runPack_cases s with ⟨h, _⟩ | ⟨_, h, _⟩ | ⟨_, _, bits, hb, hr⟩ | ⟨_, _, e, he, hr⟩
  · simp [hv] at h
  · omega
  · rw [hp] at hb
    injection hb with hb
    rw [hr, ← hb]
    rfl
  · rw [hp] at he; cases he

/-- UNPACK of a payload that passes its checks walks the tree (R112). -/
theorem runUnpack_of_header (s : State) (t : HuffTree) (n : Nat) (ht : s.tree = .present t) (hh : HeaderOk s n) :
    runUnpack s = unpackWalk t (s.bufByte .payBuf 0).toNat n s := by
  obtain ⟨h1, h2, h3, h4⟩ := hh
  rcases runUnpack_cases s with ⟨h, _⟩ | ⟨_, h, _⟩ | ⟨_, h, _⟩ | ⟨h, _, _, _⟩ | ⟨_, _, _, _, h, _⟩ |
    ⟨_, _, _, _, _, h, _⟩ | ⟨t', ht', _, _, _, _, h⟩
  · simp [ht] at h
  · omega
  · omega
  · simp [ht] at h
  · omega
  · omega
  · obtain rfl : t = t' := by rw [ht] at ht'; injection ht'
    rw [h]
    congr 1
    omega

/-! ### Step lists (R118, R119) -/

theorem runSteps_complete (f : State → CmdResult) (fs : List (State → CmdResult)) (s t : State)
    (h : f s = .complete t) : runSteps (f :: fs) s = runSteps fs t := by
  simp [runSteps, h]

theorem runSteps_raised (f : State → CmdResult) (fs : List (State → CmdResult)) (s t : State) (r : Raise)
    (h : f s = .raised t r) : runSteps (f :: fs) s = .raised t r := by
  simp [runSteps, h]

@[simp] theorem runSteps_nil (s : State) : runSteps [] s = .complete s := rfl

/-- A property of states that every step keeps, whether it completes or raises, holds when a step list ends. -/
theorem runSteps_keeps (P : State → Prop) (fs : List (State → CmdResult))
    (hf : ∀ f ∈ fs, ∀ s, P s → P (f s).state) (s : State) (hs : P s) : P (runSteps fs s).state := by
  induction fs generalizing s with
  | nil => exact hs
  | cons f fs ih =>
    have h1 := hf f List.mem_cons_self s hs
    unfold runSteps
    cases h : f s with
    | complete t =>
      rw [h] at h1
      exact ih (fun g hg => hf g (List.mem_cons_of_mem f hg)) t h1
    | raised t r =>
      rw [h] at h1
      exact h1

/-! ### Every command answers a next state -/

/-- The pseudocode of a command (R84 to R119). -/
def runOf : Instr → State → CmdResult
  | .nop         => runNop
  | .count       => runCount
  | .build       => runBuild
  | .genCodes    => runGenCodes
  | .serialize   => runSerialize
  | .deserialize => runDeserialize
  | .pack        => runPack
  | .unpack      => runUnpack
  | .encode      => runEncode
  | .decode      => runDecode

/-- Running a command is running its pseudocode and completing (R124, R125). -/
theorem exec_eq (i : Instr) (s : State) : exec i s = .next (finish (runOf i s)) := by
  cases i <;> rfl

/-- How a command whose pseudocode completes ends (R125). -/
theorem exec_complete {i : Instr} {s t : State} (h : runOf i s = .complete t) : exec i s = .next (endsWell t) := by
  rw [exec_eq, h]; rfl

/-- How a command whose pseudocode raises an error ends (R125). -/
theorem exec_raised {i : Instr} {s t : State} {r : Raise} (h : runOf i s = .raised t r) :
    exec i s = .next (endsInError r.kind.code r.detail r.stage r.pos t) := by
  rw [exec_eq, h]; rfl

end Sys2Proof.Machine
end

