-- ==== Sys2Proof/Laws/Invariant.lean ====
section
/-! SUPPORT. Every command's pseudocode, every completion and every reset keeps the invariant. -/

namespace Sys2Proof.Machine

/-! ### Facts about the capacities -/

theorem caps_bounds {c : Caps} (h : c.wf = true) :
    1 ≤ c.maxIn ∧ c.maxIn ≤ 2 ^ 24 - 1 ∧ c.maxIn + 1 ≤ c.maxPay ∧ c.maxPay ≤ 2 ^ 24 ∧ c.maxIn ≤ c.maxOut ∧
      c.maxOut ≤ 2 ^ 24 := by
  simpa [Caps.wf, and_assoc] using h

theorem toNat_ofNat32 {n : Nat} (h : n < 2 ^ 32) : (BitVec.ofNat 32 n).toNat = n := by
  rw [BitVec.toNat_ofNat, Nat.mod_eq_of_lt h]

/-! ### The primitives -/

theorem inv_runCount (s : State) (h : Inv s) : Inv (runCount s).state := by
  rcases runCount_cases s with ⟨_, hr⟩ | ⟨hlen, hr⟩ <;> rw [hr]
  · exact h
  · have hb := caps_bounds h.caps_wf
    have hi : (inBytes s).length = s.inLen.toNat := readBuf_length _ _ _
    exact { h with
      freq_total := by
        show freqTotal (countTable (inBytes s)) ≤ _
        rw [freqTotal_countTable _ (by omega), hi]; exact hlen }

theorem inv_runBuild (s : State) (h : Inv s) : Inv (runBuild s).state := by
  have hn := presentSymbols_length_le s.freq
  have ht := buildTree_leafTotal s.freq
  exact { h with
    tree_small := by show (buildTree s.freq).leafTotal ≤ 256; omega
    leaf_count := by
      show (BitVec.ofNat 9 _).toNat = (buildTree s.freq).leafTotal
      rw [BitVec.toNat_ofNat, Nat.mod_eq_of_lt (by omega), ht]
    node_count := by
      show (BitVec.ofNat 10 _).toNat = (buildTree s.freq).nodeTotal
      rw [BitVec.toNat_ofNat, Nat.mod_eq_of_lt (by omega)]
      cases hb : buildTree s.freq with
      | none => exact absurd hb (buildTree_ne_none _)
      | absent => rw [hb] at ht; simp only [TreeReg.leafTotal, TreeReg.nodeTotal] at ht ⊢; omega
      | present t =>
        rw [hb] at ht; simp only [TreeReg.leafTotal, TreeReg.nodeTotal] at ht ⊢
        rw [numNodes_eq, ht]
    none_no_codes := fun _ => rfl
    codes_of_tree := by intro hc; exact absurd hc (by simp [CmdResult.state, runBuild]) }

theorem inv_writeCodes (s : State) (h : Inv s) (g : CodeGen) (hg : g.codes = s.tree.codeTable)
    (hl : ∀ b, (tableGet g.codes b).length ≤ 255) (hn : s.tree ≠ .none) : Inv (writeCodes g s) :=
  { h with
    none_no_codes := fun e => absurd e hn
    codes_of_tree := fun _ => hg
    code_length := hl }

theorem inv_runGenCodes (s : State) (h : Inv s) : Inv (runGenCodes s).state := by
  rcases runGenCodes_cases s with ⟨_, hr⟩ | ⟨ht, hr⟩ | ⟨t, ht, hr⟩ <;> rw [hr]
  · exact h
  · exact inv_writeCodes s h _ (by rw [ht]; rfl) (by simp [emptyGen]) (by simp [ht])
  · have hs := h.tree_small
    rw [ht] at hs
    simp only [TreeReg.leafTotal] at hs
    refine inv_writeCodes s h _ (by rw [ht]; rfl) (fun b => ?_) (by simp [ht])
    have := genOfTree_length t b
    omega

theorem inv_runSerialize (s : State) (h : Inv s) : Inv (runSerialize s).state := by
  rcases runSerialize_cases s with ⟨_, hr⟩ | ⟨_, hr⟩ | ⟨t, ht, hr⟩ <;> rw [hr]
  · exact h
  · exact { h with }
  · have hs := h.tree_small
    rw [ht] at hs
    simp only [TreeReg.leafTotal] at hs
    have hm := wf_writeBuf s .treeBuf 0 (ser t) h.mem_wf
      (by rw [ser_length]; simp only [Buffer.cap, treeBufSize]; omega)
    simp only [CmdResult.state]
    rw [writeBuf_frame]
    exact { h with mem_wf := hm }

theorem inv_loadTree (s : State) (h : Inv s) (t : TreeReg) (n m u : Nat) (ht : t.leafTotal ≤ 256)
    (hn : n = t.leafTotal) (hm : m = t.nodeTotal) : Inv (loadTree t n m u s) :=
  { h with
    tree_small := ht
    leaf_count := by
      show (BitVec.ofNat 9 n).toNat = _
      rw [BitVec.toNat_ofNat, Nat.mod_eq_of_lt (by omega)]; exact hn
    node_count := by
      show (BitVec.ofNat 10 m).toNat = t.nodeTotal
      have : t.nodeTotal ≤ 511 := by
        cases t with
        | present t => simp only [TreeReg.leafTotal, TreeReg.nodeTotal] at ht ⊢; rw [numNodes_eq]; omega
        | none => simp [TreeReg.nodeTotal]
        | absent => simp [TreeReg.nodeTotal]
      rw [BitVec.toNat_ofNat, Nat.mod_eq_of_lt (by omega)]; exact hm
    none_no_codes := fun _ => rfl
    codes_of_tree := fun hc => absurd hc (by simp) }

theorem inv_runDeserialize (s : State) (h : Inv s) : Inv (runDeserialize s).state := by
  rcases runDeserialize_cases s with ⟨_, hr⟩ | ⟨_, hr⟩ | ⟨_, hle, t, rest, hp, hr⟩ | ⟨_, _, e, _, hr⟩ <;> rw [hr]
  · exact h
  · exact inv_loadTree s h _ _ _ _ (by simp [TreeReg.leafTotal]) rfl rfl
  · have hsm := parseStream_small _ t rest hp (by simpa [treeBytes, treeBufSize] using hle)
    exact inv_loadTree s h _ _ _ _ hsm.1 rfl rfl
  · exact inv_loadTree s h _ _ _ _ (by simp [TreeReg.leafTotal]) rfl rfl

theorem inv_redraw (s : State) (h : Inv s) (b : Buffer) : Inv (s.redraw b) :=
  { h with
    mem_wf := wf_redraw s b h.mem_wf
    draws_old := by
      intro c
      have := h.draws_old c
      show (s.draws.renew b).of c < (s.draws.renew b).next
      have hn : (s.draws.renew b).next = s.draws.next + 1 := by cases b <;> rfl
      rw [hn, draws_of_renew]
      split <;> omega }

theorem inv_runPack (s : State) (h : Inv s) : Inv (runPack s).state := by
  have hb := caps_bounds h.caps_wf
  rcases runPack_cases s with ⟨_, hr⟩ | ⟨_, _, hr⟩ | ⟨_, _, bits, hp, hr⟩ | ⟨_, _, e, _, hr⟩ <;> rw [hr]
  · exact h
  · exact h
  · obtain ⟨_, hcap, _⟩ := packLoop_ok_inv _ _ _ _ _ _ (by simp) hp
    have hpad := padOf_lt bits.length
    have hmod := padOf_mod bits.length
    have hm := wf_writeBuf s .payBuf 0 (payloadOf bits) h.mem_wf
      (by rw [payloadOf_length]; simp only [Buffer.cap]; omega)
    simp only [CmdResult.state, writePayload]
    rw [writeBuf_frame]
    exact { h with mem_wf := hm }
  · exact { inv_redraw s h .payBuf with }

theorem inv_writeOutput (s : State) (h : Inv s) (p n : Nat) (out : List Byte) (ho : out.length ≤ s.caps.maxOut) :
    Inv (writeOutput p n out s) := by
  have hb := caps_bounds h.caps_wf
  have hm := wf_writeBuf s .outBuf 0 out h.mem_wf (by simpa [Buffer.cap] using ho)
  simp only [writeOutput]
  rw [writeBuf_frame]
  exact { h with
    mem_wf := hm
    out_len := by show (BitVec.ofNat 32 _).toNat ≤ _; rw [toNat_ofNat32 (by omega)]; exact ho }

theorem inv_outLen_zero (s : State) (h : Inv s) : Inv { s with outLen := 0 } :=
  { h with out_len := Nat.zero_le _ }

theorem inv_unpackWalk (s : State) (h : Inv s) (t : HuffTree) (p n : Nat) : Inv (unpackWalk t p n s).state := by
  have hout := walk_out_le t s.caps.maxOut 0 [] [] (payloadBits s n) (Nat.zero_le _)
  rcases unpackWalk_cases t p n s with ⟨out, j, hw, hr⟩ | ⟨out, hw, hr⟩ | ⟨out, b, q, hw, hr⟩ <;>
    rw [hw] at hout <;> rw [hr] <;> exact inv_writeOutput s h _ _ _ hout

theorem inv_runUnpack (s : State) (h : Inv s) : Inv (runUnpack s).state := by
  rcases runUnpack_cases s with ⟨_, hr⟩ | ⟨_, _, hr⟩ | ⟨_, _, hr⟩ | ⟨_, _, _, hr⟩ | ⟨t, _, _, _, _, hr⟩ |
    ⟨t, _, _, _, _, _, hr⟩ | ⟨t, _, _, _, _, _, hr⟩ <;> rw [hr]
  · exact h
  · exact h
  · exact inv_outLen_zero s h
  · exact inv_outLen_zero s h
  · exact inv_outLen_zero s h
  · exact inv_outLen_zero s h
  · exact inv_unpackWalk s h t _ _

/-- Every command's pseudocode keeps the invariant. -/
theorem inv_runOf (i : Instr) (s : State) (h : Inv s) : Inv (runOf i s).state := by
  cases i with
  | nop => exact h
  | count => exact inv_runCount s h
  | build => exact inv_runBuild s h
  | genCodes => exact inv_runGenCodes s h
  | serialize => exact inv_runSerialize s h
  | deserialize => exact inv_runDeserialize s h
  | pack => exact inv_runPack s h
  | unpack => exact inv_runUnpack s h
  | encode =>
    refine runSteps_keeps Inv _ ?_ s h
    simp only [List.forall_mem_cons, List.not_mem_nil, false_implies, implies_true, and_true]
    exact ⟨inv_runCount, inv_runBuild, inv_runGenCodes, inv_runSerialize, inv_runPack⟩
  | decode =>
    refine runSteps_keeps Inv _ ?_ s h
    simp only [List.forall_mem_cons, List.not_mem_nil, false_implies, implies_true, and_true]
    exact ⟨inv_runDeserialize, inv_runUnpack⟩

/-! ### Completion -/

theorem inv_idle (s : State) (h : Inv s) : Inv (idle s) :=
  { h with
    busy_no_err := fun e => absurd e (by simp)
    last_op := fun e => absurd e (by simp) }

theorem errorKind_code (k : ErrorKind) : 0x01 ≤ k.code.toNat ∧ k.code.toNat ≤ 0x0A := by
  cases k <;> decide

/-- Completion, with or without an error, keeps the invariant (R125). -/
theorem inv_finish (r : CmdResult) (h : Inv r.state) : Inv (finish r) := by
  cases r with
  | complete s => exact inv_idle s h
  | raised s r =>
    have h : Inv s := h
    exact { h with
      busy_no_err := fun e => absurd e (by simp [finish])
      no_err_zero := fun e => absurd e (by simp [finish])
      err_code := fun _ => errorKind_code r.kind
      last_op := fun e => absurd e (by simp [finish]) }

/-! ### Issue and the resets -/

theorem inv_accept (v : Word) (s : State) (h : Inv s) : Inv (accept v s) :=
  { h with
    busy_no_err := fun _ => rfl
    no_err_zero := fun _ => ⟨rfl, rfl⟩
    err_code := fun e => absurd e (by simp)
    last_op := fun _ => rfl }

theorem inv_resetRegisters (s : State) (h : Inv s) : Inv (resetRegisters s) where
  caps_wf := h.caps_wf
  mem_wf := h.mem_wf
  tree_small := by simp [State.reset, TreeReg.leafTotal]
  leaf_count := rfl
  node_count := rfl
  none_no_codes := fun _ => rfl
  codes_of_tree := fun e => absurd e (by simp [State.reset])
  code_length := by intro b; simp [State.reset]
  freq_total := by
    show freqTotal (Vector.replicate 256 0) ≤ _
    rw [freqTotal_zero]; exact Nat.zero_le _
  busy_no_err := fun _ => rfl
  no_err_zero := fun _ => ⟨rfl, rfl⟩
  err_code := fun e => absurd e (by simp [State.reset])
  last_op := fun e => absurd e (by simp [State.reset])
  out_len := Nat.zero_le _
  draws_old := h.draws_old

theorem inv_redrawAll (bs : List Buffer) (s : State) (h : Inv s) : Inv (redrawAll bs s) := by
  induction bs generalizing s with
  | nil => exact h
  | cons b bs ih => exact ih _ (inv_redraw s h b)

theorem inv_softReset (s : State) (h : Inv s) : Inv (softReset s) :=
  inv_redrawAll _ _ (inv_resetRegisters s h)

theorem inv_powerOn (s : State) (h : Inv s) : Inv (powerOn s) :=
  inv_redrawAll _ _ (inv_resetRegisters s h)

end Sys2Proof.Machine
end

