-- ==== Sys2Proof/Laws/Bus.lean ====
section
/-! SUPPORT. Host accesses: what each can do, and that each keeps the invariant. -/

namespace Sys2Proof.Machine

/-! ### What an access can do -/

/-- A read changes the host's data and the draw counter, and nothing of the block (R63). -/
theorem hostRead_frame (t : Target) (s : State) :
    hostRead t s = { s with readData := (hostRead t s).readData, draws := (hostRead t s).draws } := rfl

theorem issue_cases (v : Word) (s : State) :
    (s.status.busy = true ∧ issue v s = { s with status := { s.status with overrun := true } }) ∨
    (s.status.busy = false ∧ issue v s = accept v s) := by
  unfold issue
  cases h : s.status.busy <;> simp

/-- What a host write to a register can do (R55, R123, R143). -/
theorem hostWriteReg_cases (r : Reg) (v : Word) (s : State) :
    (r = .ctrl ∧ hostWriteReg r v s = writeCtrl v s) ∨
    (r = .intStatus ∧ hostWriteReg r v s = writeIntStatus v s) ∨
    (r = .cmd ∧ hostWriteReg r v s = issue v s) ∨
    (r ≠ .ctrl ∧ r ≠ .intStatus ∧ r ≠ .cmd ∧ s.status.busy = true ∧ hostWriteReg r v s = dropWrite s) ∨
    (r ≠ .ctrl ∧ r ≠ .intStatus ∧ r ≠ .cmd ∧ s.status.busy = false ∧ hostWriteReg r v s = storeReg r v s) := by
  cases h : s.status.busy <;> cases r <;> simp [hostWriteReg, h]

/-- A register write to a buffer window stores bytes of that buffer and changes nothing else. -/
theorem foldl_hostWriteByte_frame (b : Buffer) (i : Nat) (v : Word) (js : List Nat) (s : State) :
    js.foldl (hostWriteByte b i v) s = { s with mem := (js.foldl (hostWriteByte b i v) s).mem } := by
  induction js generalizing s with
  | nil => rfl
  | cons j js ih =>
    rw [List.foldl_cons, ih]
    unfold hostWriteByte
    split <;> rfl

/-- The bytes that an accepted write to a buffer window stores, little-endian, below the capacity (R59, R61). -/
theorem bufByte_foldl_hostWriteByte (b : Buffer) (i : Nat) (v : Word) (n : Nat) (s : State) (c : Buffer) (j : Nat) :
    ((List.range n).foldl (hostWriteByte b i v) s).bufByte c j =
      if b.base + i ≤ c.base + j ∧ c.base + j < b.base + i + n ∧ c.base + j < b.base + b.cap s.caps
      then byteOf v (c.base + j - (b.base + i)) else s.bufByte c j := by
  induction n with
  | zero => rw [if_neg (by omega)]; rfl
  | succ n ih =>
    rw [List.range_succ, List.foldl_append, List.foldl_cons, List.foldl_nil]
    have hcap : ((List.range n).foldl (hostWriteByte b i v) s).caps = s.caps := by rw [foldl_hostWriteByte_frame]
    generalize (List.range n).foldl (hostWriteByte b i v) s = u at ih hcap ⊢
    unfold hostWriteByte
    rw [hcap]
    split
    · rw [bufByte_setBuf]
      split
      · rw [if_pos (by omega)]; congr 1; omega
      · rw [ih]; congr 1; simp; omega
    · rw [ih]; congr 1; simp; omega

theorem hostWriteBuffer_cases (b : Buffer) (i n : Nat) (v : Word) (s : State) :
    (s.status.busy = true ∧ i < b.cap s.caps ∧ hostWriteBuffer b i n v s = dropWrite s) ∨
    (s.status.busy = true ∧ b.cap s.caps ≤ i ∧ hostWriteBuffer b i n v s = s) ∨
    (s.status.busy = false ∧ b = .outBuf ∧ hostWriteBuffer b i n v s = s) ∨
    (s.status.busy = false ∧ b ≠ .outBuf ∧
      hostWriteBuffer b i n v s = (List.range n).foldl (hostWriteByte b i v) s) := by
  unfold hostWriteBuffer
  cases h : s.status.busy with
  | true =>
    by_cases hi : i < b.cap s.caps
    · exact .inl ⟨rfl, hi, by simp [hi]⟩
    · exact .inr (.inl ⟨rfl, by omega, by simp [hi]⟩)
  | false =>
    by_cases hb : b = .outBuf
    · exact .inr (.inr (.inl ⟨rfl, hb, by simp [hb]⟩))
    · exact .inr (.inr (.inr ⟨rfl, hb, by simp [hb]⟩))

/-! ### The window map -/

theorem target_reg_iff (off : Nat) (w : Width) (r : Reg) :
    target off w = .reg r ↔ off < 0x1000 ∧ w = .w32 ∧ off % 4 = 0 ∧ regAt off = some r := by
  unfold target
  split
  · split
    · next h1 h2 =>
      cases hr : regAt off with
      | none => simp
      | some r' => simp [h1, h2]
    · next h1 h2 => simp; tauto
  · next h1 =>
    constructor
    · intro h; cases hb : bufferAt off <;> cases hn : bufferBytes w off <;> simp [hb, hn] at h
    · intro h; exact absurd h.1 h1

theorem windowOffset_base (off : Nat) (h : off < windowSize) :
    windowOffset (Config.hcbBase + off) = some off := by
  simp [windowOffset, h]

/-! ### What a step can be (R13) -/

theorem step_cases (s : State) :
    (s.inputs = [] ∧ step s = engineTurn s) ∨
    (∃ rest, s.inputs = .engine :: rest ∧ step s = engineTurn { s with inputs := rest }) ∨
    (∃ a rest, s.inputs = .host a :: rest ∧ step s = .next (hostStep a { s with inputs := rest })) ∨
    (∃ rest, s.inputs = .powerOn :: rest ∧ step s = .next (powerOn { s with inputs := rest })) := by
  unfold step
  split
  · exact .inl ⟨‹_›, rfl⟩
  · exact .inr (.inl ⟨_, ‹_›, rfl⟩)
  · exact .inr (.inr (.inl ⟨_, _, ‹_›, rfl⟩))
  · exact .inr (.inr (.inr ⟨_, ‹_›, rfl⟩))

/-! ### The host program notation (R82) as steps -/

theorem step_host (s : State) (off : Nat) (w : Width) (op : BusOp) (rest : List Input) (ho : off < windowSize)
    (h : s.inputs = .host { addr := Config.hcbBase + off, width := w, op := op } :: rest) :
    step s = .next (windowAccess off w op { s with inputs := rest }) := by
  simp only [step, h, hostStep, windowOffset_base off ho]

theorem step_wr32 (s : State) (off : Nat) (v : Word) (rest : List Input) (ho : off < windowSize)
    (h : s.inputs = wr32 off v :: rest) :
    step s = .next (hostWrite (target off .w32) v { s with inputs := rest }) := by
  rw [step_host s off .w32 _ rest ho h, windowAccess]
  simp

theorem step_wr8 (s : State) (off : Nat) (v : Byte) (rest : List Input) (ho : off < windowSize)
    (h : s.inputs = wr8 off v :: rest) :
    step s = .next (hostWrite (target off .w8) (v.setWidth 32) { s with inputs := rest }) := by
  rw [step_host s off .w8 _ rest ho h, windowAccess]
  simp

theorem step_rd32 (s : State) (off : Nat) (rest : List Input) (ho : off < windowSize)
    (h : s.inputs = rd32 off :: rest) : step s = .next (hostRead (target off .w32) { s with inputs := rest }) :=
  step_host s off .w32 _ rest ho h

theorem step_rd8 (s : State) (off : Nat) (rest : List Input) (ho : off < windowSize)
    (h : s.inputs = rd8 off :: rest) : step s = .next (hostRead (target off .w8) { s with inputs := rest }) :=
  step_host s off .w8 _ rest ho h

/-- An aligned 32-bit access in the register window reaches the register there, if one is (R23, R61). -/
theorem target_reg (off : Nat) (ho : off < 0x1000) (h4 : off % 4 = 0) :
    target off .w32 = match regAt off with
      | some r => .reg r
      | none   => .none := by
  simp only [target, ho, h4, if_true, and_self] <;> rfl

/-- An access to a buffer window reaches that buffer (R57, R61). -/
theorem bufferAt_base (b : Buffer) (i : Nat) (hi : i < (if b = .treeBuf then treeBufSize else 2 ^ 24)) :
    bufferAt (b.base + i) = some (b, i) := by
  cases b <;> simp only [treeBufSize, reduceCtorEq, if_false, if_true] at hi
  · show bufferAt (0x1000 + i) = _
    rw [bufferAt, if_pos (by omega)]; simp
  · show bufferAt (0x01000000 + i) = _
    rw [bufferAt, if_neg (by omega), if_pos (by omega)]; simp
  · show bufferAt (0x02000000 + i) = _
    rw [bufferAt, if_neg (by omega), if_neg (by omega), if_pos (by omega)]; simp
  · show bufferAt (0x03000000 + i) = _
    rw [bufferAt, if_neg (by omega), if_neg (by omega), if_neg (by omega), if_pos (by omega)]; simp

theorem base_ge (b : Buffer) : 0x1000 ≤ b.base ∧ b.base % 4 = 0 ∧ b.base ≤ 0x03000000 := by
  cases b <;> decide

theorem target_buffer8 (b : Buffer) (i : Nat) (hi : i < (if b = .treeBuf then treeBufSize else 2 ^ 24)) :
    target (b.base + i) .w8 = .buffer b i 1 := by
  have := base_ge b
  rw [target, if_neg (by omega), bufferAt_base b i hi]
  rfl

theorem target_buffer32 (b : Buffer) (i : Nat) (hi : i < (if b = .treeBuf then treeBufSize else 2 ^ 24))
    (h4 : i % 4 = 0) : target (b.base + i) .w32 = .buffer b i 4 := by
  have := base_ge b
  rw [target, if_neg (by omega), bufferAt_base b i hi, bufferBytes, if_pos (by omega)]

/-- An access at an offset of a buffer's window reaches that buffer or nothing (R57, R61); the window of TREE_BUF counts
with the reserved space above it. -/
theorem target_window (b : Buffer) (i : Nat) (w : Width) (hi : i < 2 ^ 24)
    (ht : b = .treeBuf → i < 0x1000000 - 0x1000) :
    target (b.base + i) w = .none ∨ ∃ n, target (b.base + i) w = .buffer b i n := by
  have hb := base_ge b
  rw [target, if_neg (by omega)]
  by_cases hw : i < (if b = .treeBuf then treeBufSize else 2 ^ 24)
  · rw [bufferAt_base b i hw]
    cases bufferBytes w (b.base + i) with
    | none => exact .inl rfl
    | some n => exact .inr ⟨n, rfl⟩
  · have hbt : b = .treeBuf := by
      by_contra hn
      exact hw (by rwa [if_neg hn])
    subst hbt
    have h := ht rfl
    rw [if_pos rfl, treeBufSize] at hw
    have hn : bufferAt (0x1000 + i) = none := by
      unfold bufferAt
      repeat rw [if_neg (by omega)]
    exact .inl (by rw [show Buffer.treeBuf.base = 0x1000 from rfl, hn])

/-- A buffer byte lies in its buffer's window (R11, R57). -/
theorem cap_le_window (c : Caps) (hc : c.wf = true) (b : Buffer) :
    b.cap c ≤ (if b = .treeBuf then treeBufSize else 2 ^ 24) := by
  have := caps_bounds hc
  cases b <;> simp [Buffer.cap] <;> omega

/-! ### The invariant -/

theorem inv_hostRead (t : Target) (s : State) (h : Inv s) : Inv (hostRead t s) :=
  { h with
    draws_old := by
      intro b
      have := h.draws_old b
      unfold hostRead
      cases readDraws s with
      | true =>
        simp only [if_true]
        have e : Draws.of { s.draws with next := s.draws.next + 1 } b = s.draws.of b := by cases b <;> rfl
        rw [e]; omega
      | false => simpa using this }

theorem inv_dropWrite (s : State) (h : Inv s) : Inv (dropWrite s) := { h with }

theorem inv_issue (v : Word) (s : State) (h : Inv s) : Inv (issue v s) := by
  rcases issue_cases v s with ⟨_, hr⟩ | ⟨_, hr⟩ <;> rw [hr]
  · exact { h with }
  · exact inv_accept v s h

theorem inv_writeCtrl (v : Word) (s : State) (h : Inv s) : Inv (writeCtrl v s) := by
  unfold writeCtrl
  split
  · exact inv_softReset s h
  · exact { h with }

theorem inv_writeIntStatus (v : Word) (s : State) (h : Inv s) : Inv (writeIntStatus v s) := by
  unfold writeIntStatus
  split
  · exact { h with }
  · exact h

theorem inv_storeReg (r : Reg) (v : Word) (s : State) (h : Inv s) : Inv (storeReg r v s) := by
  unfold storeReg
  split <;> exact { h with }

theorem inv_hostWriteReg (r : Reg) (v : Word) (s : State) (h : Inv s) : Inv (hostWriteReg r v s) := by
  rcases hostWriteReg_cases r v s with ⟨_, hr⟩ | ⟨_, hr⟩ | ⟨_, hr⟩ | ⟨_, _, _, _, hr⟩ | ⟨_, _, _, _, hr⟩ <;> rw [hr]
  · exact inv_writeCtrl v s h
  · exact inv_writeIntStatus v s h
  · exact inv_issue v s h
  · exact inv_dropWrite s h
  · exact inv_storeReg r v s h

theorem inv_hostWriteByte (b : Buffer) (i : Nat) (v : Word) (s : State) (j : Nat) (h : Inv s) :
    Inv (hostWriteByte b i v s j) := by
  unfold hostWriteByte
  split
  · next hj => exact { h with mem_wf := wf_setBuf s b (i + j) _ h.mem_wf hj }
  · exact h

theorem inv_hostWriteBuffer (b : Buffer) (i n : Nat) (v : Word) (s : State) (h : Inv s) :
    Inv (hostWriteBuffer b i n v s) := by
  rcases hostWriteBuffer_cases b i n v s with ⟨_, _, hr⟩ | ⟨_, _, hr⟩ | ⟨_, _, hr⟩ | ⟨_, _, hr⟩ <;> rw [hr]
  · exact inv_dropWrite s h
  · exact h
  · exact h
  · generalize List.range n = js
    clear hr
    induction js generalizing s with
    | nil => exact h
    | cons j js ih =>
      rw [List.foldl_cons]
      have h' := inv_hostWriteByte b i v s j h
      have hbusy : (hostWriteByte b i v s j).status = s.status := by unfold hostWriteByte; split <;> rfl
      exact ih _ h' (by rw [hbusy]; assumption)

theorem inv_windowAccess (off : Nat) (w : Width) (op : BusOp) (s : State) (h : Inv s) :
    Inv (windowAccess off w op s) := by
  cases op with
  | read => exact inv_hostRead _ s h
  | write d =>
    unfold windowAccess hostWrite
    cases target off w with
    | reg r => exact inv_hostWriteReg r _ s h
    | buffer b i n => exact inv_hostWriteBuffer b i n _ s h
    | none => exact h

/-- A HOST step keeps the invariant. -/
theorem inv_hostStep (a : BusAccess) (s : State) (h : Inv s) : Inv (hostStep a s) := by
  unfold hostStep
  cases windowOffset a.addr with
  | none => exact h
  | some off => exact inv_windowAccess off _ _ s h

/-- The schedule is no part of the invariant. -/
theorem inv_inputs (s : State) (l : List Input) (h : Inv s) : Inv { s with inputs := l } := { h with }

end Sys2Proof.Machine
end

