-- ==== Sys2Proof/Laws/PerInstr.lean ====
section
/-! SUPPORT. What holds of every command as syntax, one lemma per command: its word is its opcode with RSV = 0, it is one
of the ten words of the opcode table, and the table's numbering of its bits is the decoder's. -/

namespace Sys2Proof.Laws.CommandWord

open Sys2Proof

/-- R72, R75: the fields of the command's word, and what the decoder reads from it. -/
def Statement (i : Instr) : Prop :=
  opcodeField (encode i) = opcode i ∧ reservedField (encode i) = 0 ∧ (encode i).toNat ≤ 0x09 ∧
    decodeTableWord 32 (encode i).toNat = some i ∧ i.wf = true

theorem nop : Statement .nop := by unfold Statement; decide
theorem count : Statement .count := by unfold Statement; decide
theorem build : Statement .build := by unfold Statement; decide
theorem genCodes : Statement .genCodes := by unfold Statement; decide
theorem serialize : Statement .serialize := by unfold Statement; decide
theorem deserialize : Statement .deserialize := by unfold Statement; decide
theorem pack : Statement .pack := by unfold Statement; decide
theorem unpack : Statement .unpack := by unfold Statement; decide
theorem encode : Statement .encode := by unfold Statement; decide
theorem decode : Statement .decode := by unfold Statement; decide

end Sys2Proof.Laws.CommandWord
end

