-- ==== Sys2Proof/Tests/Slice0.lean ====
section
/-! SUPPORT. Tests whose expected results stand in the spec (30_encoding.md and 95_test_vectors.md, whose names the
docstrings give), smoke tests of the checks on terms, and for each obligation with hypotheses a state that meets them. -/

namespace Sys2Proof.Tests

set_option Elab.async false

open Sys2Proof Sys2Proof.Machine

/-! ### Helpers -/

/-- The next state has a property. -/
def goesTo (o : Host.Outcome State Fault Refusal) (p : State → Bool) : Bool :=
  match o with
  | .next t => p t
  | _       => false

/-- IN_BUF and IN_LEN hold the bytes. -/
def withIn (bs : List Byte) (s : State) : State :=
  { s.writeBuf .inBuf 0 bs with inLen := BitVec.ofNat 32 bs.length }

/-- TREE_BUF and TREE_LEN hold the bytes. -/
def withTree (bs : List Byte) (s : State) : State :=
  { s.writeBuf .treeBuf 0 bs with treeLen := BitVec.ofNat 32 bs.length }

/-- PAY_BUF and PAY_LEN hold the bytes. -/
def withPay (bs : List Byte) (s : State) : State :=
  { s.writeBuf .payBuf 0 bs with payLen := BitVec.ofNat 32 bs.length }

/-- The codes of a few symbols. -/
def withCodes (cs : List (Byte × Bits)) (s : State) : State :=
  { s with codes := cs.foldl (fun t c => tableSet t c.1 c.2) s.codes
           status := { s.status with codesValid := true } }

/-- The reset state of a block with MAX_IN = 4, MAX_PAY = 5, MAX_OUT = 4. -/
def small : State := { State.reset with caps := { maxIn := 4, maxPay := 5, maxOut := 4 } }

/-- The command is issued and pending. -/
def pending (i : Instr) (s : State) : State := accept (encode i) s

def aaab : List Byte := [0x61, 0x61, 0x61, 0x62]

def abracadabra : List Byte := [0x61, 0x62, 0x72, 0x61, 0x63, 0x61, 0x64, 0x61, 0x62, 0x72, 0x61]

/-- Node(Leaf(a), Leaf(b)). -/
def treeAB : HuffTree := .node (.leaf 0x61) (.leaf 0x62)

/-- The tree of D-B1. -/
def treeB1 : HuffTree :=
  .node (.node (.node (.leaf 0x72) (.leaf 0x62)) (.node (.leaf 0x64) (.leaf 0x63))) (.leaf 0x61)

/-! ### Decoding: the words of R75, bit by bit from R72's layout, RSV first -/

theorem test_decode_nop : decode 0b00000000000000000000000000000000#32 = .ok .nop := by decide
theorem test_decode_count : decode 0b00000000000000000000000000000001#32 = .ok .count := by decide
theorem test_decode_build : decode 0b00000000000000000000000000000010#32 = .ok .build := by decide
theorem test_decode_genCodes : decode 0b00000000000000000000000000000011#32 = .ok .genCodes := by decide
theorem test_decode_serialize : decode 0b00000000000000000000000000000100#32 = .ok .serialize := by decide
theorem test_decode_deserialize : decode 0b00000000000000000000000000000101#32 = .ok .deserialize := by decide
theorem test_decode_pack : decode 0b00000000000000000000000000000110#32 = .ok .pack := by decide
theorem test_decode_unpack : decode 0b00000000000000000000000000000111#32 = .ok .unpack := by decide
theorem test_decode_encode : decode 0b00000000000000000000000000001000#32 = .ok .encode := by decide
theorem test_decode_decode : decode 0b00000000000000000000000000001001#32 = .ok .decode := by decide

/-- R76, R128: the first and the last unknown opcode, RSV 0 or not. -/
theorem test_decode_unknown :
    decode 0x0000000A#32 = .error .unknownOpcode ∧ decode 0x000000FF#32 = .error .unknownOpcode ∧
    decode 0x0000010A#32 = .error .unknownOpcode := by decide

/-- R76: the lowest and the highest RSV bit. -/
theorem test_decode_reserved :
    decode 0x00000100#32 = .error .reservedBits ∧ decode 0x80000009#32 = .error .reservedBits := by decide

theorem test_tableWord :
    decodeTableWord 32 8 = some .encode ∧ decodeTableWord 8 8 = some .encode ∧ decodeTableWord 32 10 = none ∧
    decodeTableWord 64 (2 ^ 32 + 8) = none := by decide

/-! ### The checks on terms refuse ill-formed ones -/

theorem test_wf_caps_default : Caps.default.wf = true := by decide
theorem test_wf_caps_maxIn_zero : Caps.wf { maxIn := 0, maxPay := 1, maxOut := 0 } = false := by decide
theorem test_wf_caps_maxIn_large :
    Caps.wf { maxIn := 2 ^ 24, maxPay := 2 ^ 24 + 1, maxOut := 2 ^ 24 } = false := by decide
theorem test_wf_caps_maxPay_small : Caps.wf { maxIn := 4, maxPay := 4, maxOut := 4 } = false := by decide
theorem test_wf_caps_maxPay_large : Caps.wf { maxIn := 4, maxPay := 2 ^ 24 + 1, maxOut := 4 } = false := by decide
theorem test_wf_caps_maxOut_small : Caps.wf { maxIn := 4, maxPay := 5, maxOut := 3 } = false := by decide
theorem test_wf_caps_maxOut_large : Caps.wf { maxIn := 4, maxPay := 5, maxOut := 2 ^ 24 + 1 } = false := by decide

/-- Data one bit too wide, for each width narrower than the data. -/
theorem test_wf_access :
    BusAccess.wf { addr := 0, width := .w8, op := .write 0x100 } = false ∧
    BusAccess.wf { addr := 0, width := .w16, op := .write 0x10000 } = false ∧
    BusAccess.wf { addr := 0, width := .w32, op := .write 0x100000000 } = false ∧
    BusAccess.wf { addr := 0, width := .w64, op := .write 0xFFFFFFFFFFFFFFFF } = true ∧
    BusAccess.wf { addr := 0, width := .w8, op := .write 0xFF } = true := by decide

theorem test_wf_input :
    Input.wf (.host { addr := 0, width := .w8, op := .write 0x100 }) = false ∧ Input.wf .engine = true ∧
    Input.wf .powerOn = true := by decide

/-- An entry that no buffer has, and entries out of order. -/
theorem test_wf_memory :
    Memory.wf Caps.default [(0x1300, 0)] = false ∧ Memory.wf Caps.default [(0x1001, 0), (0x1000, 0)] = false ∧
    Memory.wf Caps.default [(0x1000, 0), (0x12FF, 0)] = true := by decide

/-! ### The commands, one step each -/

/-- R117, and the fetch: the first step after an issue of the word 0 runs NOP. -/
theorem test_nop : goesTo (step (State.reset.withFetchWord 32 0)) (fun t =>
    t.done && !t.status.busy && t.status.lastOp == 0x00) = true := by decide +kernel

/-- W1 and D-C4: COUNT of "aaab" replaces what FREQ held. -/
theorem test_count : goesTo (exec .count { withIn aaab State.reset with freq := Vector.replicate 256 7 }) (fun t =>
    (tableGet t.freq 0x61 == 3) && (tableGet t.freq 0x62 == 1) && (tableGet t.freq 0x63 == 0) &&
    (tableGet t.freq 0xFF == 0)) = true := by decide +kernel

/-- D-C5. -/
theorem test_count_length : goesTo (exec .count { small with inLen := 5 }) (fun t =>
    t.status.err && (errorWord t == 0x00010102) && (t.errPos == 5) && t.done) = true := by decide +kernel

/-- D-B1. -/
theorem test_build_abracadabra : goesTo (exec .build { State.reset with freq := countTable abracadabra }) (fun t =>
    (t.tree == .present treeB1) && (t.leafCount == 5) && (t.nodeCount == 9)) = true := by decide +kernel

/-- D-B3: a leaf goes before an internal node of the same weight. -/
theorem test_build_tie : goesTo (exec .build { State.reset with freq := countTable [0x61, 0x62, 0x63, 0x63] }) (fun t =>
    t.tree == .present (.node (.node (.leaf 0x62) (.leaf 0x61)) (.leaf 0x63))) = true := by decide +kernel

/-- D-G1. -/
theorem test_genCodes : goesTo (exec .genCodes { State.reset with tree := .present treeB1 }) (fun t =>
    (tableGet t.codes 0x61 == [true]) && (tableGet t.codes 0x72 == [false, false, false]) &&
    (tableGet t.codes 0x62 == [false, false, true]) && (tableGet t.codes 0x64 == [false, true, false]) &&
    (tableGet t.codes 0x63 == [false, true, true]) && (tableGet t.codes 0x7A == []) && (t.maxDepth == 3) &&
    t.status.codesValid) = true := by decide +kernel

/-- D-G7. -/
theorem test_genCodes_leaf : goesTo (exec .genCodes { State.reset with tree := .present (.leaf 0x7A) }) (fun t =>
    (tableGet t.codes 0x7A == [false]) && (t.maxDepth == 1)) = true := by decide +kernel

/-- R96 and R99: the first leaf of a, at depth 2, counts for MAX_DEPTH, though the last, at depth 1, gives the code. -/
theorem test_genCodes_repeated :
    goesTo (exec .genCodes
      { State.reset with tree := .present (.node (.node (.leaf 0x61) (.leaf 0x61)) (.leaf 0x61)) }) (fun t =>
      (t.maxDepth == 2) && (tableGet t.codes 0x61 == [true])) = true := by decide +kernel

/-- D-S1. -/
theorem test_serialize : goesTo (exec .serialize { State.reset with tree := .present treeB1 }) (fun t =>
    (t.readBuf .treeBuf 14 == [0x30, 0x30, 0x30, 0x31, 0x72, 0x31, 0x62, 0x30, 0x31, 0x64, 0x31, 0x63, 0x31, 0x61]) &&
    (t.treeLen == 14)) = true := by decide +kernel

/-- D-S9. -/
theorem test_serialize_none : goesTo (exec .serialize State.reset) (fun t =>
    (t.error.code == 0x03) && (t.error.stage == 0x04) && (t.treeLen == 0) && (t.mem == [])) = true := by decide +kernel

/-- D-D8: the byte after the tree is ignored. -/
theorem test_deserialize : goesTo (exec .deserialize (withTree [0x31, 0x61, 0x99] State.reset)) (fun t =>
    (t.tree == .present (.leaf 0x61)) && (t.leafCount == 1) && (t.nodeCount == 1) && (t.treeUsed == 2) &&
    !t.status.err) = true := by decide +kernel

/-- D-D6. -/
theorem test_deserialize_marker : goesTo (exec .deserialize (withTree [0x30, 0x31, 0x61, 0x32] State.reset)) (fun t =>
    (t.error.code == 0x05) && (t.error.detail == 2) && (t.errPos == 3) && (t.tree == .none)) = true := by
  decide +kernel

/-- D-P5: the code of "a" is "0". -/
theorem test_pack : goesTo (exec .pack (withIn [0x61] (withCodes [(0x61, [false])] State.reset))) (fun t =>
    (t.readBuf .payBuf 2 == [0x07, 0x00]) && (t.payLen == 2) && (t.padCount == 7) && (t.totalBits == 1)) = true := by
  decide +kernel

/-- D-P12: ten bits for K, and room for 32. -/
theorem test_pack_overflow :
    goesTo (exec .pack (withIn [0x4B, 0x4B, 0x4B, 0x4B] (withCodes [(0x4B, List.replicate 10 true)] small))) (fun t =>
      (t.error.code == 0x09) && (t.errPos == 3) && (t.payLen == 0)) = true := by decide +kernel

/-- D-U1. -/
theorem test_unpack :
    goesTo (exec .unpack (withPay [0x01, 0x91, 0x75, 0x22] { State.reset with tree := .present treeB1 })) (fun t =>
      (t.readBuf .outBuf 11 == abracadabra) && (t.outLen == 11) && (t.padCount == 1) && (t.totalBits == 23)) = true := by
  decide +kernel

/-- D-U9. -/
theorem test_unpack_overflow :
    goesTo (exec .unpack (withPay [0x00, 0xFF] { small with tree := .present (.leaf 0x7A) })) (fun t =>
      (t.error.code == 0x0A) && (t.errPos == 4) && (t.readBuf .outBuf 4 == [0x7A, 0x7A, 0x7A, 0x7A]) &&
      (t.outLen == 4) && (t.totalBits == 8)) = true := by decide +kernel

/-- W3. -/
theorem test_encode : goesTo (exec .encode (withIn [0x7A, 0x7A, 0x7A, 0x7A] State.reset)) (fun t =>
    (t.readBuf .treeBuf 2 == [0x31, 0x7A]) && (t.treeLen == 2) && (t.readBuf .payBuf 2 == [0x04, 0x00]) &&
    (t.payLen == 2) && (tableGet t.freq 0x7A == 4)) = true := by decide +kernel

/-- D-Q5: the stage is that of the step that failed. -/
theorem test_encode_length : goesTo (exec .encode { small with inLen := 5 }) (fun t =>
    (errorWord t == 0x00010102) && (t.errPos == 5)) = true := by decide +kernel

/-- D-Q2: STATUS after a DECODE that was issued. -/
theorem test_decode_status :
    goesTo (exec .decode (pending .decode (withPay [0x04, 0x10] (withTree [0x30, 0x31, 0x61, 0x31, 0x62] State.reset))))
      (fun t => (t.readBuf .outBuf 4 == aaab) && (statusWord t == 0x0920)) = true := by decide +kernel

/-- D-Q7. -/
theorem test_decode_truncated :
    goesTo (exec .decode (withPay [0x06, 0x00] (withTree (ser treeB1) State.reset))) (fun t =>
      (errorWord t == 0x00070106) && (t.errPos == 2) && (t.outLen == 0)) = true := by decide +kernel

/-- D-X1 and D-X2. -/
theorem test_illegal :
    goesTo (step (State.reset.withFetchWord 32 0x0000000A)) (fun t =>
      (errorWord t == 0x000A0101) && (statusWord t == 0x0A02) && t.done) = true ∧
    goesTo (step (State.reset.withFetchWord 32 0x00000101)) (fun t =>
      (errorWord t == 0x00010201) && (t.status.lastOp == 0x01)) = true := by decide +kernel

/-! ### The bus, at window offsets -/

/-- R59, and D-X11: little-endian, and an unaligned register access is ignored. -/
theorem test_bus_write :
    (windowAccess 0x01000000 .w32 (.write 0x62616161) State.reset).readBuf .inBuf 4 = aaab ∧
    windowAccess 0x002 .w32 (.write 5) State.reset = State.reset := by decide +kernel

/-- P2: two bytes of TREE_BUF, then CODE_WORD0 of the code "1". -/
theorem test_bus_read :
    (windowAccess 0x1000 .w8 .read (withTree [0x30, 0x31] State.reset)).readData = 0x30 ∧
    (windowAccess 0x050 .w32 .read { withCodes [(0x62, [true])] State.reset with codeSel := 0x62 }).readData
      = 0x80000000 ∧
    (windowAccess 0x04C .w32 .read { withCodes [(0x62, [true])] State.reset with codeSel := 0x62 }).readData = 1 := by
  decide +kernel

/-- D-X4 and D-X5. -/
theorem test_bus_busy :
    (windowAccess 0x00C .w32 (.write 2) (pending .count State.reset)).status.overrun = true ∧
    (windowAccess 0x00C .w32 (.write 2) (pending .count State.reset)).status.lastOp = 0x01 ∧
    (windowAccess 0x020 .w32 (.write 7) (pending .count State.reset)).status.busyAccess = true ∧
    (windowAccess 0x020 .w32 (.write 7) (pending .count State.reset)).inLen = 0 := by decide +kernel

/-- D-X7. -/
theorem test_irq :
    irq { State.reset with done := true, irqEn := true } = true ∧
    irq (windowAccess 0x01C .w32 (.write 1) { State.reset with done := true, irqEn := true }) = false := by
  decide +kernel

/-- D-X9: a soft reset of a pending ENCODE keeps IN_BUF and clears the rest. -/
theorem test_soft_reset :
    (windowAccess 0x008 .w32 (.write 2) (pending .encode (withIn aaab State.reset))).readBuf .inBuf 4 = aaab ∧
    (windowAccess 0x008 .w32 (.write 2) (pending .encode (withIn aaab State.reset))).inLen = 0 ∧
    (windowAccess 0x008 .w32 (.write 2) (pending .encode (withIn aaab State.reset))).status.busy = false := by
  decide +kernel

/-- R51, R89: the arenas of "aaab" represent its tree. -/
theorem test_arena :
    (buildArena (countTable aaab)).tree = some treeAB ∧ (preorderArena treeAB).tree = some treeAB := by decide +kernel

/-! ### Witnesses: states that meet the hypotheses of the obligations -/

/-- Everything W1 leaves: "aaab" in IN_BUF, its counts, tree, codes, stream and payload. -/
def sample : State :=
  { withIn aaab (withPay [0x04, 0x10] (withTree [0x30, 0x31, 0x61, 0x31, 0x62] State.reset)) with
    freq := countTable aaab
    tree := .present treeAB
    leafCount := 2
    nodeCount := 3
    codes := (TreeReg.present treeAB).codeTable
    status := { State.reset.status with codesValid := true } }

/-- The sample, with a schedule. -/
def idleWith (xs : List Input) : State := { sample with inputs := xs }

/-- The sample with the word `v` pending, and a schedule. -/
def busyWith (v : Word) (xs : List Input) : State := { accept v sample with inputs := xs }

/-- A run of the sample's payload over the paths of its leaves. -/
def sampleRun : List (Byte × Bits) := [(0x61, [false]), (0x61, [false]), (0x61, [false]), (0x62, [true])]

/-- The sample meets the invariant. -/
theorem sample_inv : Inv sample where
  caps_wf := by decide +kernel
  mem_wf := by decide +kernel
  tree_small := by decide +kernel
  leaf_count := by decide +kernel
  node_count := by decide +kernel
  none_no_codes := by decide +kernel
  codes_of_tree := by decide +kernel
  code_length := by decide +kernel
  freq_total := by decide +kernel
  busy_no_err := by decide +kernel
  no_err_zero := by decide +kernel
  err_code := by decide +kernel
  last_op := by decide +kernel
  out_len := by decide +kernel
  draws_old := by intro b; cases b <;> decide +kernel

theorem idleWith_inv (xs : List Input) : Inv (idleWith xs) := inv_inputs _ _ sample_inv

theorem busyWith_inv (v : Word) (xs : List Input) : Inv (busyWith v xs) := inv_inputs _ _ (inv_accept v _ sample_inv)

/-- No read resets the block. -/
theorem read_no_reset (a : Nat) (w : Width) : ¬ resetsBlock (.host { addr := a, width := w, op := .read }) := by
  rintro ⟨d, h, -⟩
  cases h

theorem witness_StepRunsPendingCommand :
    (busyWith 1 []).status.busy = true ∧ decode (busyWith 1 []).pendingWord = .ok .count ∧
    Instr.wf .count = true ∧ (busyWith 1 []).inputs = [] ∧
    (busyWith 9 [.engine]).status.busy = true ∧ decode (busyWith 9 [.engine]).pendingWord = .ok .decode ∧
    (busyWith 9 [.engine]).inputs = .engine :: [] := by
  refine ⟨rfl, rfl, rfl, rfl, rfl, rfl, rfl⟩

theorem witness_IllegalWordOnlyCompletes :
    (busyWith 0x0A [.engine]).status.busy = true ∧ (busyWith 0x0A [.engine]).inputs = .engine :: [] ∧
    0x0A ≤ (busyWith 0x0A [.engine]).pendingWord.toNat % 2 ^ 8 ∧
    0x0A ≤ (busyWith 0xFFFFFFFF []).pendingWord.toNat % 2 ^ 8 ∧ (busyWith 0xFFFFFFFF []).inputs = [] ∧
    (busyWith 0x109 [.engine]).pendingWord.toNat % 2 ^ 8 ≤ 0x09 ∧
    (busyWith 0x109 [.engine]).pendingWord.toNat / 2 ^ 8 ≠ 0 ∧
    (busyWith 0x80000000 [.engine]).pendingWord.toNat % 2 ^ 8 ≤ 0x09 ∧
    (busyWith 0x80000000 [.engine]).pendingWord.toNat / 2 ^ 8 ≠ 0 := by
  refine ⟨rfl, rfl, ?_, ?_, rfl, ?_, ?_, ?_, ?_⟩ <;> decide

theorem witness_StepNeverStops : (idleWith []).status.busy = false ∧ (idleWith []).inputs = [] := ⟨rfl, rfl⟩

theorem witness_PendingCommandCompletes :
    (busyWith 8 [rd32 0x010, .engine, cmd .build]).status.busy = true ∧
    ∀ e ∈ (busyWith 8 [rd32 0x010, .engine]).inputs, ¬ resetsBlock e := by
  refine ⟨rfl, fun e he => ?_⟩
  rcases List.mem_cons.1 he with rfl | he
  · exact read_no_reset _ _
  · rcases List.mem_cons.1 he with rfl | he
    · exact fun h => h
    · cases he

theorem witness_IdleCmdWriteIssues :
    (idleWith [wr32 0x00C 1]).status.busy = false ∧ (idleWith [wr32 0x00C 1]).inputs = wr32 0x00C 1 :: [] := ⟨rfl, rfl⟩

theorem witness_BusyCmdWriteDropped :
    (busyWith 1 [wr32 0x00C 2]).status.busy = true ∧ (busyWith 1 [wr32 0x00C 2]).inputs = wr32 0x00C 2 :: [] :=
  ⟨rfl, rfl⟩

theorem witness_CommandsLeaveHostOperands :
    Inv (busyWith 8 []) ∧ exec .encode (busyWith 8 []) = .next (finish (runEncode (busyWith 8 []))) ∧
    3 < (busyWith 8 []).caps.maxIn := ⟨busyWith_inv _ _, rfl, by decide +kernel⟩

theorem step_powerOn (s : State) : step { s with inputs := [.powerOn] } = .next (powerOn { s with inputs := [] }) := rfl

/-- D-C4: COUNT of another input changes FREQ; so does a power-on reset. -/
theorem witness_OnlyCountWritesFreq :
    step { withIn [0x7A, 0x7A] (busyWith 1 []) with inputs := [] } =
      .next (finish (runCount { withIn [0x7A, 0x7A] (busyWith 1 []) with inputs := [] })) ∧
    tableGet (finish (runCount { withIn [0x7A, 0x7A] (busyWith 1 []) with inputs := [] })).freq 0x7A ≠
      tableGet { withIn [0x7A, 0x7A] (busyWith 1 []) with inputs := [] }.freq 0x7A ∧
    step (idleWith [.powerOn]) = .next (powerOn (idleWith [])) ∧
    tableGet (powerOn (idleWith [])).freq 0x61 ≠ tableGet (idleWith [.powerOn]).freq 0x61 := by
  refine ⟨rfl, ?_, step_powerOn sample, ?_⟩ <;> decide +kernel

theorem witness_StepKeepsInvariant :
    Inv (busyWith 8 [.engine]) ∧ ∃ t, step (busyWith 8 [.engine]) = .next t := ⟨busyWith_inv _ _, _, rfl⟩

theorem witness_ReadsHaveNoSideEffect :
    BusOp.read = .read ∧ (idleWith [rd32 0x010]).inputs =
      .host { addr := Config.hcbBase + 0x010, width := .w32, op := .read } :: [] ∧
    (busyWith 6 [rd8 0x02000000]).inputs =
      .host { addr := Config.hcbBase + 0x02000000, width := .w8, op := .read } :: [] := ⟨rfl, rfl, rfl⟩

/-- The first and the last register, FREQ entry and reserved offset of each clause. -/
theorem witness_IdleRegisterReads :
    (∀ off, (idleWith [rd32 off]).status.busy = false ∧ (idleWith [rd32 off]).inputs = rd32 off :: [] ∧
      (idleWith [rd32 off]).caps.wf = true) ∧
    0x400 = 0x400 + 4 * (0x00 : Byte).toNat ∧ 0x7FC = 0x400 + 4 * (0xFF : Byte).toNat ∧
    (0x07C ≤ 0x07C ∧ 0x07C < 0x400) ∧ (0x07C ≤ 0x3FC ∧ 0x3FC < 0x400) ∧ (0x800 ≤ 0x800 ∧ 0x800 < 0x1000) ∧
    (0x800 ≤ 0xFFC ∧ 0xFFC < 0x1000) :=
  ⟨fun _ => ⟨rfl, rfl, (idleWith_inv _).caps_wf⟩, by decide⟩

/-- Idle; PACK pending, which writes neither field; GEN_CODES pending, which writes CODES_VALID only; an illegal word. -/
theorem witness_StatusReads :
    (busyWith 2 [rd32 0x010]).inputs = rd32 0x010 :: [] ∧ nonePending (idleWith [rd32 0x010]) codesValidWriters ∧
    nonePending (busyWith 6 [rd32 0x010]) codesValidWriters ∧ nonePending (busyWith 6 [rd32 0x010]) treeStateWriters ∧
    nonePending (busyWith 3 [rd32 0x010]) treeStateWriters ∧ nonePending (busyWith 0x0A []) codesValidWriters ∧
    ¬ nonePending (busyWith 3 []) codesValidWriters ∧ ¬ nonePending (busyWith 9 []) treeStateWriters ∧
    (idleWith [rd32 0x010]).tree = .present treeAB ∧ { idleWith [rd32 0x010] with tree := .absent }.tree = .absent ∧
    { idleWith [rd32 0x010] with tree := .none }.tree = .none := by
  refine ⟨rfl, .inl rfl, .inr ?_, .inr ?_, .inr ?_, .inr ?_, ?_, ?_, rfl, rfl, rfl⟩
  · decide
  · decide
  · decide
  · decide
  · rintro (h | h)
    · cases h
    · exact h .genCodes (by decide) (by decide)
  · rintro (h | h)
    · cases h
    · exact h .decode (by decide) (by decide)

theorem witness_CodeReadback :
    Inv (idleWith [rd32 0x04C]) ∧ (idleWith [rd32 0x04C]).status.busy = false ∧
    (idleWith [rd32 0x04C]).inputs = rd32 0x04C :: [] ∧
    (idleWith [rd32 0x050]).inputs = rd32 (0x050 + 4 * 0) :: [] ∧
    (idleWith [rd32 0x06C]).inputs = rd32 (0x050 + 4 * 7) :: [] := ⟨idleWith_inv _, rfl, rfl, rfl, rfl⟩

/-- COUNT pending: IN_LEN is outside its write set, and so is the last byte of TREE_BUF; BUILD pending: the last FREQ entry
is; DECODE pending: TREE_LEN and the last byte of PAY_BUF are; an illegal word writes nothing. -/
theorem witness_BusyReadsOutsideWriteSetExact :
    (busyWith 1 [rd32 0x020]).status.busy = true ∧ (busyWith 1 [rd32 0x020]).caps.wf = true ∧
    regAt 0x020 = some .inLen ∧ (∀ j, decode (busyWith 1 []).pendingWord = .ok j → Reg.inLen ∉ writtenRegs j) ∧
    regAt 0x7FC = some (.freq 0xFF) ∧
    (∀ j, decode (busyWith 2 []).pendingWord = .ok j → Reg.freq 0xFF ∉ writtenRegs j) ∧
    regAt 0x024 = some .treeLen ∧
    (∀ j, decode (busyWith 9 []).pendingWord = .ok j → Reg.treeLen ∉ writtenRegs j) ∧
    (∀ j, decode (busyWith 0x0A []).pendingWord = .ok j → Reg.treeLen ∉ writtenRegs j) ∧
    767 < Buffer.treeBuf.cap (busyWith 1 []).caps ∧ 65536 < Buffer.payBuf.cap (busyWith 9 []).caps ∧
    (∀ j, decode (busyWith 9 []).pendingWord = .ok j → Buffer.payBuf ∉ writtenBuffers j) ∧
    (∀ j, decode (busyWith 1 []).pendingWord = .ok j → Buffer.treeBuf ∉ writtenBuffers j) := by
  have h1 : decode (busyWith 1 []).pendingWord = .ok .count := rfl
  have h2 : decode (busyWith 2 []).pendingWord = .ok .build := rfl
  have h9 : decode (busyWith 9 []).pendingWord = .ok .decode := rfl
  have hA : decode (busyWith 0x0A []).pendingWord = .error .unknownOpcode := rfl
  refine ⟨rfl, by decide +kernel, by decide, fun j hj => ?_, by decide, fun j hj => ?_, by decide, fun j hj => ?_,
    fun j hj => ?_, by decide, by decide, fun j hj => ?_, fun j hj => ?_⟩
  · cases hj.symm.trans h1
    decide +kernel
  · cases hj.symm.trans h2
    decide
  · cases hj.symm.trans h9
    decide
  · cases hj.symm.trans hA
  · cases hj.symm.trans h9
    decide
  · cases hj.symm.trans h1
    decide

/-- Entries of R126's table. -/
theorem test_writtenRegs :
    (Reg.freq 0xFF ∈ writtenRegs .encode ∧ Reg.codeWord 7 ∈ writtenRegs .genCodes ∧ Reg.treeLen ∉ writtenRegs .pack) ∧
    Reg.outLen ∈ writtenRegs .decode := by decide +kernel

theorem witness_DrawnReadsKeepReservedBitsZero :
    (busyWith 7 [rd32 0x030]).inputs = rd32 0x030 :: [] ∧ (busyWith 2 [rd32 0x03C]).inputs = rd32 0x03C :: [] :=
  ⟨rfl, rfl⟩

/-- Each ground for turning an access away, at the ends of its range. -/
theorem witness_RejectedAccessesDoNothing :
    (∀ off w op, (idleWith [.host { addr := Config.hcbBase + off, width := w, op := op }]).inputs =
      .host { addr := Config.hcbBase + off, width := w, op := op } :: []) ∧
    (0x000 < 0x1000 ∧ (Width.w8 ≠ .w32 ∨ 0x000 % 4 ≠ 0)) ∧ (0xFFE < 0x1000 ∧ (Width.w32 ≠ .w32 ∨ 0xFFE % 4 ≠ 0)) ∧
    (0x1000 < 2 ^ 26 ∧ (Width.w16 = .w16 ∨ Width.w16 = .w64)) ∧
    (0x3FFFFFF < 2 ^ 26 ∧ Width.w32 = .w32 ∧ 0x3FFFFFF % 4 ≠ 0) ∧ (0x07C ≤ 0x07C ∧ 0x07C < 0x400) ∧
    (0x07C ≤ 0x3FC ∧ 0x3FC < 0x400) ∧ (0x800 ≤ 0xFFC ∧ 0xFFC < 0x1000) ∧ (0x1300 ≤ 0x1300 ∧ 0x1300 < 0x1000000) ∧
    (0x1300 ≤ 0xFFFFFF ∧ 0xFFFFFF < 0x1000000) := by
  refine ⟨fun _ _ _ => rfl, ?_⟩
  decide

/-- The first word and the last byte of a buffer, and the last word of PAY_BUF, of which one byte is below MAX_PAY. -/
theorem witness_IdleBufferWritesStoreBytes :
    (idleWith [wr32 (Buffer.inBuf.base + 0) 1]).caps.wf = true ∧ (idleWith []).status.busy = false ∧
    Buffer.inBuf ≠ .outBuf ∧ 0 < Buffer.inBuf.cap (idleWith []).caps ∧ 0 % 4 = 0 ∧
    (idleWith [wr32 (Buffer.inBuf.base + 0) 1]).inputs = wr32 (Buffer.inBuf.base + 0) 1 :: [] ∧
    65536 < Buffer.payBuf.cap (idleWith []).caps ∧ 65536 % 4 = 0 ∧
    (idleWith [wr32 (Buffer.payBuf.base + 65536) 1]).inputs = wr32 (Buffer.payBuf.base + 65536) 1 :: [] ∧
    767 < Buffer.treeBuf.cap (idleWith []).caps ∧
    (idleWith [wr8 (Buffer.treeBuf.base + 767) 1]).inputs = wr8 (Buffer.treeBuf.base + 767) 1 :: [] := by
  refine ⟨by decide +kernel, rfl, by decide, by decide, rfl, rfl, by decide, rfl, rfl, by decide, rfl⟩

/-- OUT_BUF's first byte, the first byte past IN_BUF, and the last byte of the hole above TREE_BUF. -/
theorem witness_ReadOnlyBytesIgnoreWrites :
    (idleWith []).caps.wf = true ∧ (idleWith []).status.busy = false ∧ 0 < 2 ^ 24 ∧
    (Buffer.outBuf = .outBuf ∨ Buffer.outBuf.cap (idleWith []).caps ≤ 0) ∧
    (Buffer.inBuf = .outBuf ∨ Buffer.inBuf.cap (idleWith []).caps ≤ 65536) ∧
    (Buffer.treeBuf = .outBuf ∨ Buffer.treeBuf.cap (idleWith []).caps ≤ 0xFFEFFF) ∧ 0xFFEFFF < 0x1000000 - 0x1000 ∧
    (idleWith [wr32 (Buffer.inBuf.base + 65536) 1]).inputs = wr32 (Buffer.inBuf.base + 65536) 1 :: [] ∧
    (idleWith [wr8 (Buffer.outBuf.base + 0) 1]).inputs = wr8 (Buffer.outBuf.base + 0) 1 :: [] := by
  refine ⟨by decide +kernel, rfl, by decide, .inl rfl, .inr (by decide), .inr (by decide), by decide, rfl, rfl⟩

theorem witness_IdleBufferReads :
    (idleWith []).caps.wf = true ∧ (idleWith []).status.busy = false ∧ 65536 < Buffer.payBuf.cap (idleWith []).caps ∧
    65536 % 4 = 0 ∧ (idleWith [rd32 (Buffer.payBuf.base + 65536)]).inputs = rd32 (Buffer.payBuf.base + 65536) :: [] ∧
    Buffer.outBuf.cap (idleWith []).caps ≤ 0xFFFFFF ∧ 0xFFFFFF < 2 ^ 24 ∧
    (idleWith [rd8 (Buffer.outBuf.base + 0xFFFFFF)]).inputs = rd8 (Buffer.outBuf.base + 0xFFFFFF) :: [] ∧
    Buffer.treeBuf.cap (idleWith []).caps ≤ 768 ∧ 768 < 0x1000000 - 0x1000 := by
  refine ⟨by decide +kernel, rfl, by decide, rfl, rfl, by decide, by decide, rfl, by decide, by decide⟩

/-- A read-only register, the last FREQ entry, and the ends of a buffer. -/
theorem witness_BusyWritesDropped :
    (busyWith 1 []).status.busy = true ∧ (busyWith 1 []).caps.wf = true ∧ regAt 0x000 = some .id ∧
    busyProtects .id ∧ regAt 0x7FC = some (.freq 0xFF) ∧ busyProtects (.freq 0xFF) ∧
    (busyWith 1 [wr32 0x000 5]).inputs = wr32 0x000 5 :: [] ∧ 65535 < Buffer.outBuf.cap (busyWith 1 []).caps ∧
    (busyWith 1 [wr8 (Buffer.outBuf.base + 65535) 5]).inputs = wr8 (Buffer.outBuf.base + 65535) 5 :: [] ∧
    0 < Buffer.inBuf.cap (busyWith 1 []).caps ∧ 0 % 4 = 0 ∧
    (busyWith 1 [wr32 (Buffer.inBuf.base + 0) 5]).inputs = wr32 (Buffer.inBuf.base + 0) 5 :: [] ∧
    Buffer.outBuf.cap (busyWith 1 []).caps ≤ 65536 ∧
    (busyWith 1 [wr8 (Buffer.outBuf.base + 65536) 5]).inputs = wr8 (Buffer.outBuf.base + 65536) 5 :: [] ∧
    Buffer.treeBuf.cap (busyWith 1 []).caps ≤ 0xFFEFFF ∧ 0xFFEFFF < 0x1000000 - 0x1000 ∧
    Buffer.inBuf.cap (busyWith 1 []).caps ≤ 0xFFFFFF ∧ 0xFFFFFF < 2 ^ 24 := by
  refine ⟨rfl, by decide +kernel, by decide, ?_, by decide, ?_, rfl, by decide, rfl, by decide, rfl, rfl, by decide, rfl,
    by decide, by decide, by decide, by decide⟩ <;>
    (unfold busyProtects; decide)

theorem witness_IdleRegisterWrites :
    (∀ off v, (idleWith [wr32 off v]).status.busy = false ∧ (idleWith [wr32 off v]).inputs = wr32 off v :: []) ∧
    0x400 = 0x400 + 4 * (0x00 : Byte).toNat ∧ 0x7FC = 0x400 + 4 * (0xFF : Byte).toNat :=
  ⟨fun _ _ => ⟨rfl, rfl⟩, by decide, by decide⟩

theorem witness_InterruptControl :
    (busyWith 1 [wr32 0x008 1]).inputs = wr32 0x008 1 :: [] ∧ (1 : Word).getLsbD 1 = false ∧
    (idleWith [wr32 0x01C 1]).inputs = wr32 0x01C 1 :: [] ∧ (idleWith [wr32 0x01C 0]).inputs = wr32 0x01C 0 :: [] :=
  ⟨rfl, by decide, rfl, rfl⟩

/-- A soft reset while ENCODE is pending, which aborts it, and one while the block is idle. -/
theorem witness_SoftResetEffect :
    (busyWith 8 [wr32 0x008 2]).caps.wf = true ∧ (2 : Word).getLsbD 1 = true ∧
    (busyWith 8 [wr32 0x008 2]).inputs = wr32 0x008 2 :: [] ∧ (busyWith 8 []).status.busy = true ∧
    decode (busyWith 8 []).pendingWord = .ok .encode ∧ Buffer.payBuf ∈ writtenBuffers .encode ∧
    Buffer.inBuf ∉ writtenBuffers .encode ∧ (idleWith [wr32 0x008 3]).status.busy = false ∧
    (3 : Word).getLsbD 1 = true ∧ (idleWith [wr32 0x008 3]).inputs = wr32 0x008 3 :: [] := by
  refine ⟨by decide +kernel, by decide, rfl, rfl, rfl, by decide, by decide, rfl, by decide, rfl⟩

theorem witness_PowerOnEffect : (busyWith 8 [.powerOn]).inputs = .powerOn :: [] := rfl

theorem witness_ResetRegisterReads : 0x000 < 0x1000 ∧ 0xFFC < 0x1000 ∧ 0xFFF < 0x1000 := by decide

theorem witness_NopOnlyCompletes :
    (idleWith [wr32 0x00C 0, .engine]).status.busy = false ∧
    (idleWith [wr32 0x00C 0, .engine]).inputs = wr32 0x00C 0x00000000 :: .engine :: [] := ⟨rfl, rfl⟩

/-- An input of full capacity, and the empty one. -/
theorem witness_CountCountsOccurrences :
    sample.caps.wf = true ∧ sample.inLen.toNat ≤ sample.caps.maxIn ∧
    { sample with inLen := 65536 }.inLen.toNat ≤ { sample with inLen := 65536 }.caps.maxIn ∧
    { sample with inLen := 0 }.inLen.toNat ≤ { sample with inLen := 0 }.caps.maxIn := by
  decide +kernel

theorem witness_BuildTreeShape :
    (∀ b, tableGet { sample with freq := Vector.replicate 256 0 }.freq b = 0) ∧ ∃ b, tableGet sample.freq b ≠ 0 := by
  refine ⟨?_, 0x61, ?_⟩ <;> decide +kernel

theorem witness_BuildMergesLeastKeys : ∃ b, tableGet sample.freq b ≠ 0 := by
  refine ⟨0x61, ?_⟩
  decide +kernel

/-- The other tree of two leaves is a tree to compare with. -/
theorem witness_BuildIsOptimal :
    exec .build sample = .next (finish (runBuild sample)) ∧ (finish (runBuild sample)).tree = .present treeAB ∧
    (HuffTree.node (.leaf 0x62) (.leaf 0x61)).leaves.Nodup ∧
    ∀ b, b ∈ (HuffTree.node (.leaf 0x62) (.leaf 0x61)).leaves ↔ tableGet sample.freq b ≠ 0 := by
  refine ⟨rfl, ?_, ?_, ?_⟩ <;> decide +kernel

theorem witness_CodeBitsAtMostEightPerByte : sample.caps.wf = true ∧ sample.inLen.toNat ≤ sample.caps.maxIn := by
  decide +kernel

theorem witness_ArenaRepresentsTree :
    exec .build sample = .next (finish (runBuild sample)) ∧ (finish (runBuild sample)).tree = .present treeAB ∧
    treeB1.leaves.length ≤ 256 := by
  refine ⟨rfl, ?_, ?_⟩ <;> decide +kernel

theorem witness_CodesArePathsToLeaves :
    sample.tree = .present (.node (.leaf 0x61) (.leaf 0x62)) ∧
    (HuffTree.node (.leaf 0x61) (.leaf 0x62)).leaves.length ≤ 256 ∧
    (HuffTree.node (.leaf 0x61) (.leaf 0x62)).leaves.Nodup := ⟨rfl, by decide, by decide⟩

theorem witness_SingleLeafAndAbsentCodes :
    { sample with tree := .present (.leaf 0x7A) }.tree = .present (.leaf 0x7A) ∧
    { sample with tree := .absent }.tree = .absent := ⟨rfl, rfl⟩

theorem witness_BuiltCodesPrefixFree :
    exec .build sample = .next (finish (runBuild sample)) ∧
    exec .genCodes (finish (runBuild sample)) = .next (finish (runGenCodes (finish (runBuild sample)))) ∧
    tableGet (finish (runGenCodes (finish (runBuild sample)))).codes 0x61 ≠ [] ∧
    tableGet (finish (runGenCodes (finish (runBuild sample)))).codes 0x62 ≠ [] := by
  refine ⟨rfl, rfl, ?_, ?_⟩ <;> decide +kernel

theorem witness_SerializeWritesPreorder :
    sample.tree = .present treeAB ∧ treeAB.leaves.length ≤ 256 ∧ { sample with tree := .absent }.tree = .absent :=
  ⟨rfl, by decide, rfl⟩

/-- D-D8 with a byte after the tree, and the zero length. -/
theorem witness_DeserializeLoadsTree :
    (withTree [0x31, 0x61, 0x99] sample).treeLen.toNat ≤ 768 ∧
    (withTree [0x31, 0x61, 0x99] sample).readBuf .treeBuf (withTree [0x31, 0x61, 0x99] sample).treeLen.toNat =
      ser (.leaf 0x61) ++ [0x99] ∧
    { sample with treeLen := 0 }.treeLen = 0 := by
  refine ⟨by decide +kernel, by decide +kernel, rfl⟩

/-- D-D4 ends inside a tree and D-D7 has a bad marker. -/
theorem witness_MalformedStreamsRejected :
    0 < (withTree [0x31] sample).treeLen.toNat ∧ (withTree [0x31] sample).treeLen.toNat ≤ 768 ∧
    (∀ h after, (withTree [0x31] sample).readBuf .treeBuf (withTree [0x31] sample).treeLen.toNat ≠ ser h ++ after) ∧
    0 < (withTree [0x30, 0x32] sample).treeLen.toNat ∧ (withTree [0x30, 0x32] sample).treeLen.toNat ≤ 768 ∧
    (∀ h after,
      (withTree [0x30, 0x32] sample).readBuf .treeBuf (withTree [0x30, 0x32] sample).treeLen.toNat ≠
        ser h ++ after) := by
  have h1 : (withTree [0x31] sample).readBuf .treeBuf (withTree [0x31] sample).treeLen.toNat = [0x31] := by
    decide +kernel
  have h2 : (withTree [0x30, 0x32] sample).readBuf .treeBuf (withTree [0x30, 0x32] sample).treeLen.toNat =
      [0x30, 0x32] := by decide +kernel
  refine ⟨by decide +kernel, by decide +kernel, ?_, by decide +kernel, by decide +kernel, ?_⟩
  · intro h after e
    rw [h1] at e
    cases h <;> simp [ser, leafMark, intMark] at e
  · intro h after e
    rw [h2] at e
    rcases h with _ | ⟨l, r⟩
    · simp [ser, leafMark] at e
    · rcases l with _ | ⟨_, _⟩ <;> simp [ser, leafMark, intMark] at e

/-- The sample with the absent tree, as BUILD and GEN_CODES leave it over counts of 0 (R88, R96). -/
def absentSample : State :=
  { sample with tree := .absent, leafCount := 0, nodeCount := 0, codes := TreeReg.absent.codeTable }

/-- The absent tree meets the invariant too. -/
theorem absentSample_inv : Inv absentSample where
  caps_wf := by decide +kernel
  mem_wf := by decide +kernel
  tree_small := by decide +kernel
  leaf_count := by decide +kernel
  node_count := by decide +kernel
  none_no_codes := by decide +kernel
  codes_of_tree := by decide +kernel
  code_length := by decide +kernel
  freq_total := by decide +kernel
  busy_no_err := by decide +kernel
  no_err_zero := by decide +kernel
  err_code := by decide +kernel
  last_op := by decide +kernel
  out_len := by decide +kernel
  draws_old := by intro b; cases b <;> decide +kernel

theorem witness_TreeRoundTrip :
    (Inv sample ∧ sample.tree ≠ .none) ∧ Inv absentSample ∧ absentSample.tree = .absent ∧ absentSample.tree ≠ .none :=
  ⟨⟨sample_inv, by decide +kernel⟩, absentSample_inv, rfl, by decide +kernel⟩

theorem witness_PackWritesPayload :
    sample.caps.wf = true ∧ sample.status.codesValid = true ∧ sample.inLen.toNat ≤ sample.caps.maxIn ∧
    (∀ i, i < sample.inLen.toNat → tableGet sample.codes (sample.bufByte .inBuf i) ≠ []) ∧
    (encodedBits sample.codes (sample.readBuf .inBuf sample.inLen.toNat)).length ≤ 8 * (sample.caps.maxPay - 1) := by
  refine ⟨?_, ?_, ?_, ?_, ?_⟩ <;> decide +kernel

/-- D-P10: the third byte has no code. -/
theorem witness_PackRaisesAtFirstBadByte :
    let s := withIn [0x61, 0x62, 0x63] sample
    s.caps.wf = true ∧ s.status.codesValid = true ∧ s.inLen.toNat ≤ s.caps.maxIn ∧ 2 < s.inLen.toNat ∧
    (∀ j, j < 2 → tableGet s.codes (s.bufByte .inBuf j) ≠ []) ∧
    (encodedBits s.codes (s.readBuf .inBuf 2)).length ≤ 8 * (s.caps.maxPay - 1) ∧
    tableGet s.codes (s.bufByte .inBuf 2) = [] := by
  refine ⟨?_, ?_, ?_, ?_, ?_, ?_, ?_⟩ <;> decide +kernel

/-- D-P12: the fourth code passes the capacity. -/
theorem witness_PackRaisesAtFirstBadByte_overflow :
    let s := withIn [0x4B, 0x4B, 0x4B, 0x4B] (withCodes [(0x4B, List.replicate 10 true)] small)
    s.caps.wf = true ∧ s.status.codesValid = true ∧ s.inLen.toNat ≤ s.caps.maxIn ∧ 3 < s.inLen.toNat ∧
    (∀ j, j < 3 → tableGet s.codes (s.bufByte .inBuf j) ≠ []) ∧
    (encodedBits s.codes (s.readBuf .inBuf 3)).length ≤ 8 * (s.caps.maxPay - 1) ∧
    tableGet s.codes (s.bufByte .inBuf 3) ≠ [] ∧
    8 * (s.caps.maxPay - 1) < (encodedBits s.codes (s.readBuf .inBuf (3 + 1))).length := by
  refine ⟨?_, ?_, ?_, ?_, ?_, ?_, ?_, ?_⟩ <;> decide +kernel

theorem sample_header : HeaderOk sample 4 := by unfold HeaderOk; decide +kernel

theorem sampleRun_paths : ∀ c ∈ sampleRun, c ∈ (HuffTree.node (.leaf 0x61) (.leaf 0x62)).paths := by decide +kernel

theorem sampleRun_bits : payloadBits sample 4 = sampleRun.flatMap Prod.snd := by decide +kernel

theorem witness_UnpackDecodesPaths :
    sample.caps.wf = true ∧ sample.tree = .present (.node (.leaf 0x61) (.leaf 0x62)) ∧ HeaderOk sample 4 ∧
    (∀ c ∈ sampleRun, c ∈ (HuffTree.node (.leaf 0x61) (.leaf 0x62)).paths) ∧
    payloadBits sample 4 = sampleRun.flatMap Prod.snd ∧ sampleRun.length ≤ sample.caps.maxOut :=
  ⟨by decide +kernel, rfl, sample_header, sampleRun_paths, sampleRun_bits, by decide +kernel⟩

/-- D-U3: the payload gives a, r, r and ends inside the tree. -/
theorem witness_UnpackKeepsPartialOutput :
    let s := withPay [0x00, 0x80] { sample with tree := .present treeB1 }
    let cs : List (Byte × Bits) := [(0x61, [true]), (0x72, [false, false, false]), (0x72, [false, false, false])]
    s.caps.wf = true ∧ s.tree = .present treeB1 ∧ HeaderOk s 8 ∧ (∀ c ∈ cs, c ∈ treeB1.paths) ∧
    payloadBits s 8 = cs.flatMap Prod.snd ++ [false] ++ [] ∧
    subtree treeB1 [false] =
      some (.node (.node (.leaf 0x72) (.leaf 0x62)) (.node (.leaf 0x64) (.leaf 0x63))) ∧
    cs.length ≤ s.caps.maxOut := by
  refine ⟨?_, rfl, ?_, ?_, ?_, ?_, ?_⟩ <;> first | decide +kernel | (unfold HeaderOk; decide +kernel)

/-- D-U9 on a tree of two leaves: the fifth symbol has no room. -/
theorem witness_UnpackKeepsPartialOutput_full :
    let s := withPay [0x00, 0x00] { small with tree := .present treeAB }
    let cs : List (Byte × Bits) := List.replicate 4 (0x61, [false])
    s.caps.wf = true ∧ s.tree = .present treeAB ∧ HeaderOk s 8 ∧ (∀ c ∈ cs, c ∈ treeAB.paths) ∧
    payloadBits s 8 = cs.flatMap Prod.snd ++ [false] ++ [false, false, false] ∧
    subtree treeAB [false] = some (.leaf 0x61) ∧ cs.length = s.caps.maxOut := by
  refine ⟨?_, rfl, ?_, ?_, ?_, ?_, ?_⟩ <;> first | decide +kernel | (unfold HeaderOk; decide +kernel)

/-- D-U8, and D-U9 with one bit more than OUT_BUF holds. -/
theorem witness_SingleLeafDecodesEveryBit :
    let s := withPay [0x04, 0xF0] { small with tree := .present (.leaf 0x7A) }
    let u := withPay [0x03, 0xFF] { small with tree := .present (.leaf 0x7A) }
    s.caps.wf = true ∧ s.tree = .present (.leaf 0x7A) ∧ HeaderOk s 4 ∧ 4 ≤ s.caps.maxOut ∧
    u.tree = .present (.leaf 0x7A) ∧ HeaderOk u 5 ∧ u.caps.maxOut < 5 := by
  refine ⟨?_, rfl, ?_, ?_, rfl, ?_, ?_⟩ <;> first | decide +kernel | (unfold HeaderOk; decide +kernel)

/-- D-U6, D-U10, D-U4 and D-U5. -/
theorem witness_UnpackHeaderChecks :
    let s := withPay [0x08, 0x00] sample
    let u := withPay [0x03] sample
    sample.tree ≠ .none ∧ sample.tree ≠ .absent ∧ { sample with payLen := 0 }.payLen = 0 ∧
    { sample with tree := .absent }.tree = .absent ∧ sample.payLen.toNat ≤ sample.caps.maxPay ∧
    0 < s.payLen.toNat ∧ 7 < (s.bufByte .payBuf 0).toNat ∧ 0 < u.payLen.toNat ∧ (u.bufByte .payBuf 0).toNat ≤ 7 ∧
    8 * (u.payLen.toNat - 1) < (u.bufByte .payBuf 0).toNat := by
  refine ⟨?_, ?_, rfl, rfl, ?_, ?_, ?_, ?_, ?_, ?_⟩ <;> decide +kernel

/-- D-U7: the payload of the sample with other filler bits. -/
theorem witness_FillerBitsIgnored :
    let s' := withPay [0x04, 0x1F] sample
    sample.caps.wf = true ∧ HeaderOk sample 4 ∧ s'.tree = sample.tree ∧ s'.payLen = sample.payLen ∧
    s'.caps = sample.caps ∧ s'.bufByte .payBuf 0 = sample.bufByte .payBuf 0 ∧
    (∀ j, j < 4 → payloadBit s' j = payloadBit sample j) ∧ sample.tree ≠ .none ∧ sample.status.err = false ∧
    s'.status.err = false ∧ s'.error = sample.error ∧ s'.errPos = sample.errPos ∧ s'.padCount = sample.padCount ∧
    s'.totalBits = sample.totalBits ∧ s'.bufByte .payBuf 1 ≠ sample.bufByte .payBuf 1 := by
  refine ⟨by decide +kernel, sample_header, rfl, ?_, rfl, ?_, ?_, ?_, rfl, rfl, ?_, ?_, ?_, ?_, ?_⟩ <;>
    decide +kernel

/-- The first length past each capacity; NONE; and no valid codes. -/
theorem witness_EarlyErrorsChangeNothing :
    { sample with inLen := 65537 }.caps.maxIn < { sample with inLen := 65537 }.inLen.toNat ∧
    { sample with inLen := 65537 }.status.codesValid = true ∧ State.reset.tree = .none ∧
    768 < { sample with treeLen := 769 }.treeLen.toNat ∧ State.reset.status.codesValid = false ∧
    { sample with payLen := 65538 }.tree ≠ .none ∧
    { sample with payLen := 65538 }.caps.maxPay < { sample with payLen := 65538 }.payLen.toNat := by
  refine ⟨?_, rfl, rfl, ?_, rfl, ?_, ?_⟩ <;> decide +kernel

theorem witness_EncodeIsItsFiveSteps : sample.inLen.toNat ≤ sample.caps.maxIn := by decide +kernel

/-- A nonempty input and the empty one. -/
theorem witness_EncodeSucceeds :
    sample.caps.wf = true ∧ sample.inLen.toNat ≤ sample.caps.maxIn ∧ sample.inLen ≠ 0 ∧
    { sample with inLen := 0 }.inLen.toNat ≤ { sample with inLen := 0 }.caps.maxIn := by
  refine ⟨?_, ?_, ?_, ?_⟩ <;> decide +kernel

/-- The same input on a block that holds another tree and payload. -/
theorem witness_EncodeIsDeterministic :
    sample.caps.wf = true ∧ (withIn aaab State.reset).caps = sample.caps ∧
    (withIn aaab State.reset).inLen = sample.inLen ∧ sample.inLen.toNat ≤ sample.caps.maxIn ∧
    ∀ i, i < sample.inLen.toNat → (withIn aaab State.reset).bufByte .inBuf i = sample.bufByte .inBuf i := by
  refine ⟨?_, rfl, rfl, ?_, ?_⟩ <;> decide +kernel

/-- DESERIALIZE succeeds on the sample and fails on D-D4. -/
theorem witness_DecodeIsItsTwoSteps :
    sample.status.err = false ∧ (finish (runDeserialize sample)).status.err = false ∧
    (withTree [0x31] sample).status.err = false ∧
    (finish (runDeserialize (withTree [0x31] sample))).status.err = true := by
  refine ⟨rfl, ?_, rfl, ?_⟩ <;> decide +kernel

theorem witness_DecodeSucceeds :
    sample.caps.wf = true ∧ sample.treeLen.toNat ≤ 768 ∧
    sample.readBuf .treeBuf sample.treeLen.toNat = ser (.node (.leaf 0x61) (.leaf 0x62)) ++ [] ∧ HeaderOk sample 4 ∧
    (∀ c ∈ sampleRun, c ∈ (HuffTree.node (.leaf 0x61) (.leaf 0x62)).paths) ∧
    payloadBits sample 4 = sampleRun.flatMap Prod.snd ∧ sampleRun.length ≤ sample.caps.maxOut ∧
    { sample with treeLen := 0 }.treeLen = 0 ∧ 0 < { sample with treeLen := 0 }.payLen.toNat ∧
    { sample with treeLen := 0 }.payLen.toNat ≤ { sample with treeLen := 0 }.caps.maxPay :=
  ⟨by decide +kernel, by decide +kernel, by decide +kernel, sample_header, sampleRun_paths, sampleRun_bits,
    by decide +kernel, rfl, by decide +kernel, by decide +kernel⟩

/-- W3's artifacts, and one data bit more than OUT_BUF holds. -/
theorem witness_DecodeSucceeds_leaf :
    let s := withPay [0x04, 0x00] (withTree [0x31, 0x7A, 0x99] sample)
    let u := withPay [0x03, 0xFF] (withTree [0x31, 0x7A] small)
    s.caps.wf = true ∧ s.treeLen.toNat ≤ 768 ∧
    s.readBuf .treeBuf s.treeLen.toNat = ser (.leaf 0x7A) ++ [0x99] ∧ HeaderOk s 4 ∧ 4 ≤ s.caps.maxOut ∧
    u.caps.wf = true ∧ u.treeLen.toNat ≤ 768 ∧ u.readBuf .treeBuf u.treeLen.toNat = ser (.leaf 0x7A) ++ [] ∧
    HeaderOk u 5 ∧ u.caps.maxOut < 5 := by
  refine ⟨?_, ?_, ?_, ?_, ?_, ?_, ?_, ?_, ?_, ?_⟩ <;> first | decide +kernel | (unfold HeaderOk; decide +kernel)

/-- The sample is a block that holds the artifacts of its own input. -/
theorem witness_EncodeDecodeRoundTrip_other :
    let t := finish (runEncode (withIn aaab State.reset))
    sample.treeLen = t.treeLen ∧ sample.payLen = t.payLen ∧ sample.caps = (withIn aaab State.reset).caps ∧
    sample.status.err = false ∧
    (∀ i, i < t.treeLen.toNat → sample.bufByte .treeBuf i = t.bufByte .treeBuf i) ∧
    ∀ i, i < t.payLen.toNat → sample.bufByte .payBuf i = t.bufByte .payBuf i := by
  decide +kernel

theorem witness_EncodeDecodeRoundTrip :
    (idleWith [cmd .encode, .engine, cmd .decode, .engine]).caps.wf = true ∧
    (idleWith []).inLen.toNat ≤ (idleWith []).caps.maxIn ∧ (idleWith []).status.busy = false ∧
    (idleWith [cmd .encode, .engine, cmd .decode, .engine]).inputs =
      cmd .encode :: .engine :: cmd .decode :: .engine :: [] :=
  ⟨by decide +kernel, by decide +kernel, rfl, rfl⟩

end Sys2Proof.Tests
end

section
/-! PROOF. The state: what a step keeps, what registers and buffers read as and do on a write, and the node arena. -/

namespace Sys2Proof.Machine

/-! ### What a turn of the ENGINE can be (R124, R128, R145) -/

theorem engineTurn_cases (s : State) :
    (s.status.busy = false ∧ engineTurn s = .next s) ∨
    (s.status.busy = true ∧ ∃ i, decode s.pendingWord = .ok i ∧ engineTurn s = .next (finish (runOf i s))) ∨
    (s.status.busy = true ∧ ∃ e, decode s.pendingWord = .error e ∧ engineTurn s = .next (illegalCommand e s)) := by
  unfold engineTurn engineStep
  cases s.status.busy with
  | false => exact .inl ⟨rfl, rfl⟩
  | true =>
    cases decode s.pendingWord with
    | ok i => exact .inr (.inl ⟨rfl, i, rfl, exec_eq i s⟩)
    | error e => exact .inr (.inr ⟨rfl, e, rfl, rfl⟩)

/-- A step is an ENGINE turn, on what is left of the schedule, or the host access or reset that the schedule names. -/
theorem step_event_cases (s : State) :
    (engineNext s ∧ ∃ rest, step s = engineTurn { s with inputs := rest }) ∨
    (∃ a rest, s.inputs = .host a :: rest ∧ step s = .next (hostStep a { s with inputs := rest })) ∨
    (∃ rest, s.inputs = .powerOn :: rest ∧ step s = .next (powerOn { s with inputs := rest })) := by
  rcases step_cases s with ⟨hi, hs⟩ | ⟨rest, hi, hs⟩ | h
  · exact .inl ⟨.inl hi, s.inputs, hs⟩
  · exact .inl ⟨.inr ⟨rest, hi⟩, rest, hs⟩
  · exact .inr h

/-! ### The invariant -/

theorem inv_engineTurn (s t : State) (h : Inv s) (ht : engineTurn s = .next t) : Inv t := by
  rcases engineTurn_cases s with ⟨_, he⟩ | ⟨_, i, _, he⟩ | ⟨_, e, _, he⟩ <;> rw [he] at ht <;> cases ht
  · exact h
  · exact inv_finish _ (inv_runOf i s h)
  · exact inv_finish _ h

/-- Settles O15: an ENGINE turn, a host access and the reset each keep the invariant. -/
theorem stepKeepsInvariant : Obligations.StepKeepsInvariant := by
  unfold Obligations.StepKeepsInvariant
  intro s t h ht
  rcases step_event_cases s with ⟨_, rest, hs⟩ | ⟨a, rest, _, hs⟩ | ⟨rest, _, hs⟩ <;> rw [hs] at ht
  · exact inv_engineTurn _ t (inv_inputs s rest h) ht
  · cases ht
    exact inv_hostStep a _ (inv_inputs s rest h)
  · cases ht
    exact inv_powerOn _ (inv_inputs s rest h)

/-! ### The host's operands (R32, R73, R126) -/

/-- `t` has the operands that only the host writes as `s` has them. -/
structure SameHostOperands (s t : State) : Prop where
  inLen       : t.inLen = s.inLen
  codeSel     : t.codeSel = s.codeSel
  irqEn       : t.irqEn = s.irqEn
  caps        : t.caps = s.caps
  pendingWord : t.pendingWord = s.pendingWord
  readData    : t.readData = s.readData
  inputs      : t.inputs = s.inputs
  inBuf       : ∀ j, j < s.caps.maxIn → t.bufByte .inBuf j = s.bufByte .inBuf j

theorem SameHostOperands.refl (s : State) : SameHostOperands s s :=
  ⟨rfl, rfl, rfl, rfl, rfl, rfl, rfl, fun _ _ => rfl⟩

theorem SameHostOperands.trans {s t u : State} (h1 : SameHostOperands s t) (h2 : SameHostOperands t u) :
    SameHostOperands s u where
  inLen := h2.inLen.trans h1.inLen
  codeSel := h2.codeSel.trans h1.codeSel
  irqEn := h2.irqEn.trans h1.irqEn
  caps := h2.caps.trans h1.caps
  pendingWord := h2.pendingWord.trans h1.pendingWord
  readData := h2.readData.trans h1.readData
  inputs := h2.inputs.trans h1.inputs
  inBuf j hj := (h2.inBuf j (by rw [h1.caps]; exact hj)).trans (h1.inBuf j hj)

theorem sameHostOperands_runCount (s : State) : SameHostOperands s (runCount s).state := by
  rcases runCount_cases s with ⟨_, hr⟩ | ⟨_, hr⟩ <;> rw [hr]
  · exact .refl s
  · exact { SameHostOperands.refl s with }

theorem sameHostOperands_runBuild (s : State) : SameHostOperands s (runBuild s).state :=
  { SameHostOperands.refl s with }

theorem sameHostOperands_runGenCodes (s : State) : SameHostOperands s (runGenCodes s).state := by
  rcases runGenCodes_cases s with ⟨_, hr⟩ | ⟨_, hr⟩ | ⟨t, _, hr⟩ <;> rw [hr]
  · exact .refl s
  · exact { SameHostOperands.refl s with }
  · exact { SameHostOperands.refl s with }

/-- Bytes written in a buffer below or above IN_BUF leave IN_BUF (R57, R155). -/
theorem sameHostOperands_writeBuf (s : State) (b : Buffer) (vs : List Byte)
    (h : Buffer.inBuf.base + s.caps.maxIn ≤ b.base ∨ b.base + vs.length ≤ Buffer.inBuf.base) :
    SameHostOperands s (s.writeBuf b 0 vs) where
  inLen := writeBuf_inLen ..
  codeSel := writeBuf_codeSel ..
  irqEn := writeBuf_irqEn ..
  caps := writeBuf_caps ..
  pendingWord := writeBuf_pendingWord ..
  readData := writeBuf_readData ..
  inputs := writeBuf_inputs ..
  inBuf j hj := bufByte_writeBuf_other _ _ _ _ _ _ (by omega)

/-- IN_BUF ends below PAY_BUF and OUT_BUF (R11, R57). -/
theorem inBuf_below {c : Caps} (hc : c.wf = true) :
    Buffer.inBuf.base + c.maxIn ≤ Buffer.payBuf.base ∧ Buffer.inBuf.base + c.maxIn ≤ Buffer.outBuf.base := by
  have := caps_bounds hc
  simp only [Buffer.base]
  omega

theorem sameHostOperands_runSerialize (s : State) (h : Inv s) : SameHostOperands s (runSerialize s).state := by
  rcases runSerialize_cases s with ⟨_, hr⟩ | ⟨_, hr⟩ | ⟨t, ht, hr⟩ <;> rw [hr]
  · exact .refl s
  · exact { SameHostOperands.refl s with }
  · have hs := h.tree_small
    rw [ht] at hs
    simp only [TreeReg.leafTotal] at hs
    have hw := sameHostOperands_writeBuf s .treeBuf (ser t)
      (.inr (by rw [ser_length]; simp only [Buffer.base]; omega))
    exact { hw with }

theorem sameHostOperands_runDeserialize (s : State) : SameHostOperands s (runDeserialize s).state := by
  rcases runDeserialize_cases s with ⟨_, hr⟩ | ⟨_, hr⟩ | ⟨_, _, t, rest, _, hr⟩ | ⟨_, _, e, _, hr⟩ <;> rw [hr]
  · exact .refl s
  · exact { SameHostOperands.refl s with }
  · exact { SameHostOperands.refl s with }
  · exact { SameHostOperands.refl s with }

theorem sameHostOperands_writePayload (s : State) (h : Inv s) (bits : Bits) :
    SameHostOperands s (writePayload bits s) :=
  { sameHostOperands_writeBuf s .payBuf (payloadOf bits) (.inl (inBuf_below h.caps_wf).1) with }

theorem sameHostOperands_spoilPayload (s : State) (h : Inv s) : SameHostOperands s (spoilPayload s) :=
  { SameHostOperands.refl s with
    inBuf := fun j hj => by
      have := (inBuf_below h.caps_wf).1
      exact (bufByte_congr (s.redraw .payBuf) _ rfl rfl _ _).trans
        (bufByte_redraw_other s .payBuf .inBuf j (by simp) (.inl (by omega))) }

theorem sameHostOperands_runPack (s : State) (h : Inv s) : SameHostOperands s (runPack s).state := by
  rcases runPack_cases s with ⟨_, hr⟩ | ⟨_, _, hr⟩ | ⟨_, _, bits, _, hr⟩ | ⟨_, _, e, _, hr⟩ <;> rw [hr]
  · exact .refl s
  · exact .refl s
  · exact sameHostOperands_writePayload s h bits
  · exact sameHostOperands_spoilPayload s h

theorem sameHostOperands_unpackWalk (s : State) (h : Inv s) (t : HuffTree) (p n : Nat) :
    SameHostOperands s (unpackWalk t p n s).state := by
  have hout (out : List Byte) : SameHostOperands s (writeOutput p n out s) :=
    { sameHostOperands_writeBuf s .outBuf out (.inl (inBuf_below h.caps_wf).2) with }
  rcases unpackWalk_cases t p n s with ⟨out, _, _, hr⟩ | ⟨out, _, hr⟩ | ⟨out, _, _, _, hr⟩ <;> rw [hr] <;>
    exact hout out

theorem sameHostOperands_runUnpack (s : State) (h : Inv s) : SameHostOperands s (runUnpack s).state := by
  have hzero : SameHostOperands s { s with outLen := 0 } := { SameHostOperands.refl s with }
  rcases runUnpack_cases s with ⟨_, hr⟩ | ⟨_, _, hr⟩ | ⟨_, _, hr⟩ | ⟨_, _, _, hr⟩ | ⟨_, _, _, _, _, hr⟩ |
    ⟨_, _, _, _, _, _, hr⟩ | ⟨t, _, _, _, _, _, hr⟩ <;> rw [hr]
  · exact .refl s
  · exact .refl s
  · exact hzero
  · exact hzero
  · exact hzero
  · exact hzero
  · exact sameHostOperands_unpackWalk s h t _ _

/-- A step list keeps the host's operands where each of its steps does so from every state that meets the invariant. -/
theorem sameHostOperands_runSteps (fs : List (State → CmdResult)) (s : State) (h : Inv s)
    (hf : ∀ f ∈ fs, ∀ u, Inv u → Inv (f u).state ∧ SameHostOperands u (f u).state) :
    SameHostOperands s (runSteps fs s).state := by
  refine (runSteps_keeps (fun u => Inv u ∧ SameHostOperands s u) fs ?_ s ⟨h, .refl s⟩).2
  intro f hm u ⟨hu, hsu⟩
  obtain ⟨hi, hk⟩ := hf f hm u hu
  exact ⟨hi, hsu.trans hk⟩

theorem sameHostOperands_runOf (i : Instr) (s : State) (h : Inv s) : SameHostOperands s (runOf i s).state := by
  cases i with
  | nop => exact .refl s
  | count => exact sameHostOperands_runCount s
  | build => exact sameHostOperands_runBuild s
  | genCodes => exact sameHostOperands_runGenCodes s
  | serialize => exact sameHostOperands_runSerialize s h
  | deserialize => exact sameHostOperands_runDeserialize s
  | pack => exact sameHostOperands_runPack s h
  | unpack => exact sameHostOperands_runUnpack s h
  | encode =>
    refine sameHostOperands_runSteps _ s h ?_
    simp only [List.forall_mem_cons, List.not_mem_nil, false_implies, implies_true, and_true]
    exact ⟨fun u hu => ⟨inv_runCount u hu, sameHostOperands_runCount u⟩,
      fun u hu => ⟨inv_runBuild u hu, sameHostOperands_runBuild u⟩,
      fun u hu => ⟨inv_runGenCodes u hu, sameHostOperands_runGenCodes u⟩,
      fun u hu => ⟨inv_runSerialize u hu, sameHostOperands_runSerialize u hu⟩,
      fun u hu => ⟨inv_runPack u hu, sameHostOperands_runPack u hu⟩⟩
  | decode =>
    refine sameHostOperands_runSteps _ s h ?_
    simp only [List.forall_mem_cons, List.not_mem_nil, false_implies, implies_true, and_true]
    exact ⟨fun u hu => ⟨inv_runDeserialize u hu, sameHostOperands_runDeserialize u⟩,
      fun u hu => ⟨inv_runUnpack u hu, sameHostOperands_runUnpack u hu⟩⟩

/-- Completion writes no operand of the host (R125). -/
theorem sameHostOperands_finish (r : CmdResult) : SameHostOperands r.state (finish r) := by
  cases r with
  | complete s => exact { SameHostOperands.refl s with }
  | raised s r => exact { SameHostOperands.refl s with }

/-- Settles O12: the pseudocode of each command, and then its completion, keeps the host's operands. -/
theorem commandsLeaveHostOperands : Obligations.CommandsLeaveHostOperands := by
  unfold Obligations.CommandsLeaveHostOperands
  intro i s t h ht
  rw [exec_eq] at ht
  cases ht
  obtain ⟨h1, h2, h3, h4, h5, h6, h7, h8⟩ := (sameHostOperands_runOf i s h).trans (sameHostOperands_finish _)
  exact ⟨h1, h2, h3, h4, h5, h6, h7, h8⟩

/-! ### FREQ (R45) -/

@[simp] theorem finish_freq (r : CmdResult) : (finish r).freq = r.state.freq := by
  cases r <;> rfl

theorem unpackWalk_freq (t : HuffTree) (p n : Nat) (s : State) : (unpackWalk t p n s).state.freq = s.freq := by
  rcases unpackWalk_cases t p n s with ⟨_, _, _, hr⟩ | ⟨_, _, hr⟩ | ⟨_, _, _, _, hr⟩ <;> rw [hr] <;>
    exact writeOutput_freq _ _ _ _

theorem runGenCodes_freq (s : State) : (runGenCodes s).state.freq = s.freq := by
  rcases runGenCodes_cases s with ⟨_, hr⟩ | ⟨_, hr⟩ | ⟨_, _, hr⟩ <;> rw [hr] <;> rfl

theorem runSerialize_freq (s : State) : (runSerialize s).state.freq = s.freq := by
  rcases runSerialize_cases s with ⟨_, hr⟩ | ⟨_, hr⟩ | ⟨_, _, hr⟩ <;> rw [hr]
  · rfl
  · rfl
  · exact writeBuf_freq _ _ _ _

theorem runDeserialize_freq (s : State) : (runDeserialize s).state.freq = s.freq := by
  rcases runDeserialize_cases s with ⟨_, hr⟩ | ⟨_, hr⟩ | ⟨_, _, _, _, _, hr⟩ | ⟨_, _, _, _, hr⟩ <;> rw [hr] <;> rfl

theorem runPack_freq (s : State) : (runPack s).state.freq = s.freq := by
  rcases runPack_cases s with ⟨_, hr⟩ | ⟨_, _, hr⟩ | ⟨_, _, _, _, hr⟩ | ⟨_, _, _, _, hr⟩ <;> rw [hr]
  · rfl
  · rfl
  · exact writePayload_freq _ _
  · rfl

theorem runUnpack_freq (s : State) : (runUnpack s).state.freq = s.freq := by
  rcases runUnpack_cases s with ⟨_, hr⟩ | ⟨_, _, hr⟩ | ⟨_, _, hr⟩ | ⟨_, _, _, hr⟩ | ⟨_, _, _, _, _, hr⟩ |
    ⟨_, _, _, _, _, _, hr⟩ | ⟨_, _, _, _, _, _, hr⟩ <;> rw [hr]
  · rfl
  · rfl
  · rfl
  · rfl
  · rfl
  · rfl
  · exact unpackWalk_freq _ _ _ s

/-- Every command but COUNT and ENCODE leaves FREQ (R45). -/
theorem runOf_freq (i : Instr) (hc : i ≠ .count) (he : i ≠ .encode) (s : State) : (runOf i s).state.freq = s.freq := by
  cases i with
  | nop => rfl
  | count => exact absurd rfl hc
  | build => rfl
  | genCodes => exact runGenCodes_freq s
  | serialize => exact runSerialize_freq s
  | deserialize => exact runDeserialize_freq s
  | pack => exact runPack_freq s
  | unpack => exact runUnpack_freq s
  | encode => exact absurd rfl he
  | decode =>
    refine runSteps_keeps (fun u => u.freq = s.freq) _ ?_ s rfl
    simp only [List.forall_mem_cons, List.not_mem_nil, false_implies, implies_true, and_true]
    exact ⟨fun u hu => (runDeserialize_freq u).trans hu, fun u hu => (runUnpack_freq u).trans hu⟩

/-- An ENGINE turn that changes FREQ runs COUNT or ENCODE (R45). -/
theorem engineTurn_freq (s t : State) (h : engineTurn s = .next t) (hf : t.freq ≠ s.freq) :
    s.status.busy = true ∧ (decode s.pendingWord = .ok .count ∨ decode s.pendingWord = .ok .encode) := by
  rcases engineTurn_cases s with ⟨_, he⟩ | ⟨hb, i, hd, he⟩ | ⟨_, e, _, he⟩ <;> rw [he] at h <;> cases h
  · exact absurd rfl hf
  · refine ⟨hb, ?_⟩
    by_contra hn
    rw [hd, not_or] at hn
    refine hf ((finish_freq _).trans (runOf_freq i ?_ ?_ s)) <;> rintro rfl
    · exact hn.1 rfl
    · exact hn.2 rfl
  · exact absurd rfl hf

theorem softReset_freq (s : State) (b : Byte) : tableGet (softReset s).freq b = 0 := by
  simp [softReset, State.reset]

theorem powerOn_freq (s : State) (b : Byte) : tableGet (powerOn s).freq b = 0 := by
  simp [powerOn, State.reset]

theorem issue_freq (v : Word) (s : State) : (issue v s).freq = s.freq := by
  rcases issue_cases v s with ⟨_, hr⟩ | ⟨_, hr⟩ <;> rw [hr]
  exact accept_freq v s

theorem storeReg_freq (r : Reg) (v : Word) (s : State) : (storeReg r v s).freq = s.freq := by
  unfold storeReg
  split <;> rfl

/-- A register write changes FREQ only where it is a soft reset (R45, R143). -/
theorem hostWriteReg_freq (r : Reg) (v : Word) (s : State) (h : (hostWriteReg r v s).freq ≠ s.freq) :
    r = .ctrl ∧ v.getLsbD 1 = true ∧ hostWriteReg r v s = softReset s := by
  rcases hostWriteReg_cases r v s with ⟨hc, hr⟩ | ⟨_, hr⟩ | ⟨_, hr⟩ | ⟨_, _, _, _, hr⟩ | ⟨_, _, _, _, hr⟩ <;>
    rw [hr] at h
  · unfold writeCtrl at h hr
    split at h
    · next hv => exact ⟨hc, hv, hr.trans (if_pos hv)⟩
    · exact absurd rfl h
  · unfold writeIntStatus at h
    split at h <;> exact absurd rfl h
  · exact absurd (issue_freq v s) h
  · exact absurd rfl h
  · exact absurd (storeReg_freq r v s) h

theorem hostWriteBuffer_freq (b : Buffer) (i n : Nat) (v : Word) (s : State) :
    (hostWriteBuffer b i n v s).freq = s.freq := by
  rcases hostWriteBuffer_cases b i n v s with ⟨_, _, hr⟩ | ⟨_, _, hr⟩ | ⟨_, _, hr⟩ | ⟨_, _, hr⟩ <;> rw [hr]
  · rfl
  · rw [foldl_hostWriteByte_frame]

/-- CTRL stands at 0x008 alone (R23). -/
theorem off_of_regAt_ctrl {off : Nat} (h : regAt off = some .ctrl) : off = 0x008 := by
  simp only [regAt, ite_eq_iff', Option.some.injEq, reduceCtorEq, imp_false, not_not] at h
  omega

theorem windowOffset_eq_some {addr off : Nat} (h : windowOffset addr = some off) : addr = Config.hcbBase + off := by
  unfold windowOffset at h
  split at h
  · simp only [Option.some.injEq] at h; omega
  · cases h

/-- A host access changes FREQ only where it resets the block, and then to zeros (R45, R143). -/
theorem hostStep_freq (a : BusAccess) (s : State) (h : (hostStep a s).freq ≠ s.freq) :
    resetsBlock (.host a) ∧ ∀ b, tableGet (hostStep a s).freq b = 0 := by
  obtain ⟨addr, w, op⟩ := a
  unfold hostStep at h ⊢
  cases hoff : windowOffset addr with
  | none => simp [hoff] at h
  | some off =>
    simp only [hoff, windowAccess] at h ⊢
    cases op with
    | read => exact absurd rfl h
    | write d =>
      simp only [hostWrite] at h ⊢
      cases ht : target off w with
      | none => simp [ht] at h
      | buffer b i n => exact absurd (by rw [ht]; exact hostWriteBuffer_freq b i n _ s) h
      | reg r =>
        simp only [ht] at h ⊢
        obtain ⟨rfl, hv, hr⟩ := hostWriteReg_freq r _ s h
        obtain ⟨_, rfl, _, hreg⟩ := (target_reg_iff off w .ctrl).1 ht
        have haddr := windowOffset_eq_some hoff
        rw [off_of_regAt_ctrl hreg] at haddr
        refine ⟨⟨d, rfl, rfl, haddr, by simpa using hv⟩, fun b => ?_⟩
        rw [hr, softReset_freq]

/-- Settles O13: the three kinds of event, each with what it can do to FREQ. -/
theorem onlyCountWritesFreq : Obligations.OnlyCountWritesFreq := by
  unfold Obligations.OnlyCountWritesFreq
  intro s t ht hf
  rcases step_event_cases s with ⟨hn, rest, hs⟩ | ⟨a, rest, hi, hs⟩ | ⟨rest, hi, hs⟩ <;> rw [hs] at ht
  · exact .inl ⟨hn, engineTurn_freq { s with inputs := rest } t ht hf⟩
  · cases ht
    obtain ⟨hr, hz⟩ := hostStep_freq a { s with inputs := rest } hf
    exact .inr ⟨_, rest, hi, hr, hz⟩
  · cases ht
    exact .inr ⟨_, rest, hi, trivial, powerOn_freq _⟩

end Sys2Proof.Machine
end

section
/-! PROOF. What host reads return (R23 to R45, R55, R59). -/

namespace Sys2Proof.Machine

/-! ### Which register stands at an offset (R23) -/

theorem regAt_codeWord (k : Nat) (hk : k < 8) : regAt (0x050 + 4 * k) = some (.codeWord (Fin.ofNat 8 k)) := by
  have hdiv : (0x050 + 4 * k - 0x050) / 4 = k := by omega
  rw [regAt]
  iterate 20 rw [if_neg (by omega)]
  rw [if_pos (by omega), hdiv]

theorem regAt_freq (b : Byte) : regAt (0x400 + 4 * b.toNat) = some (.freq b) := by
  have hb := b.isLt
  have hdiv : (0x400 + 4 * b.toNat - 0x400) / 4 = b.toNat := by omega
  rw [regAt]
  iterate 24 rw [if_neg (by omega)]
  rw [if_pos (by omega), hdiv, BitVec.ofNat_toNat, BitVec.setWidth_eq]

theorem regAt_reserved (off : Nat) (h : 0x07C ≤ off ∧ off < 0x400 ∨ 0x800 ≤ off) : regAt off = none := by
  rw [regAt]
  iterate 25 rw [if_neg (by omega)]

/-- An access to the reserved part of the register window reaches nothing (R23). -/
theorem target_reserved (off : Nat) (w : Width) (h : 0x07C ≤ off ∧ off < 0x400 ∨ 0x800 ≤ off ∧ off < 0x1000) :
    target off w = .none := by
  rw [target, if_pos (by omega), regAt_reserved off (by omega), ite_self]

/-! ### Register reads -/

theorem step_rd32_eq (s : State) (off : Nat) (rest : List Input) (h : s.inputs = rd32 off :: rest) :
    step s = .next (hostStep { addr := Config.hcbBase + off, width := .w32, op := .read } { s with inputs := rest }) := by
  simp [step, h, rd32]

/-- The schedule is no part of what a register reads as. -/
theorem hostReadReg_inputs (d : Word) (s : State) (l : List Input) (r : Reg) :
    hostReadReg d { s with inputs := l } r = hostReadReg d s r := by
  cases r <;> rfl

/-- What a 32-bit read reaches decides what it returns (R55, R61). -/
theorem readData_of_step_rd32 {s t : State} {off : Nat} {rest : List Input} (hin : s.inputs = rd32 off :: rest)
    (ht : step s = .next t) (ho : off < 0x1000) :
    t.readData = readValue (Config.freeWord s.draws.next) { s with inputs := rest } (target off .w32) := by
  rw [step_rd32 s off rest (by simp only [windowSize]; omega) hin] at ht
  cases ht
  rfl

/-- A read at the offset of a register returns what the host reads of that register (R55). -/
theorem readData_of_step_rd32_reg {s t : State} {off : Nat} {r : Reg} {rest : List Input}
    (hin : s.inputs = rd32 off :: rest) (ht : step s = .next t) (ho : off < 0x1000) (h4 : off % 4 = 0)
    (hr : regAt off = some r) : t.readData = hostReadReg (Config.freeWord s.draws.next) s r := by
  rw [readData_of_step_rd32 hin ht ho, (target_reg_iff off .w32 r).2 ⟨ho, rfl, h4, hr⟩, readValue, hostReadReg_inputs]

/-- The step of a 32-bit read of a register. -/
theorem step_rd32_reg {s : State} {off : Nat} {r : Reg} {rest : List Input} (hin : s.inputs = rd32 off :: rest)
    (ho : off < 0x1000) (h4 : off % 4 = 0) (hr : regAt off = some r) :
    ∃ t, step s = .next t ∧ t.readData = hostReadReg (Config.freeWord s.draws.next) s r :=
  ⟨_, step_rd32_eq s off rest hin, readData_of_step_rd32_reg hin (step_rd32_eq s off rest hin) ho h4 hr⟩

theorem hostReadReg_idle (d : Word) (s : State) (r : Reg) (h : s.status.busy = false) :
    hostReadReg d s r = readReg s r := by
  simp [hostReadReg, h]

/-- A field of a register word that is given as a number. -/
theorem extractLsb'_ofNat32 (n k w : Nat) (v : BitVec w) (hn : n < 2 ^ 32) (h : n / 2 ^ k % 2 ^ w = v.toNat) :
    (BitVec.ofNat 32 n).extractLsb' k w = v := by
  apply BitVec.eq_of_toNat_eq
  rw [BitVec.extractLsb'_toNat, toNat_ofNat32 hn, Nat.shiftRight_eq_div_pow, h]

/-- A bit of a register word that is given as a number. -/
theorem getLsbD_ofNat32 (n k : Nat) (b : Bool) (hk : k < 32) (h : n / 2 ^ k % 2 = b.toNat) :
    (BitVec.ofNat 32 n).getLsbD k = b := by
  rw [BitVec.getLsbD_ofNat, Nat.testBit_eq_decide_div_mod_eq, h]
  cases b <;> simp [hk]

/-- The fields of ERROR as read (R29). -/
theorem errorWord_fields (s : State) :
    (errorWord s).extractLsb' 0 8 = s.error.code ∧ (errorWord s).extractLsb' 8 8 = s.error.detail ∧
      (errorWord s).extractLsb' 16 8 = s.error.stage ∧ (errorWord s).extractLsb' 24 8 = 0 := by
  have hc := s.error.code.isLt
  have hd := s.error.detail.isLt
  have hs := s.error.stage.isLt
  unfold errorWord
  refine ⟨?_, ?_, ?_, ?_⟩ <;> apply extractLsb'_ofNat32 <;> simp <;> omega

theorem boolWord_toNat (b : Bool) : (BitVec.ofNat 32 b.toNat).toNat = b.toNat := by
  cases b <;> rfl

/-- Settles O17: an idle read returns the register's current value, register by register. -/
theorem idleRegisterReads : Obligations.IdleRegisterReads := by
  unfold Obligations.IdleRegisterReads
  intro s off rest hbusy hin
  obtain ⟨t, ht⟩ : ∃ t, step s = .next t := ⟨_, step_rd32_eq s off rest hin⟩
  have read {r : Reg} {a : Nat} (ha : off = a) (hm : a < 0x1000 ∧ a % 4 = 0 ∧ regAt a = some r) :
      t.readData = readReg s r := by
    subst ha
    obtain ⟨ho, h4, hr⟩ := hm
    rw [readData_of_step_rd32_reg hin ht ho h4 hr, hostReadReg_idle _ _ _ hbusy]
  have wide {n : Nat} (v : BitVec n) (hn : n ≤ 32) : (v.setWidth 32).toNat = v.toNat :=
    BitVec.toNat_setWidth_of_le hn
  refine ⟨t, ht, fun h => ?_, fun h => ?_, fun h => ?_, fun h => ?_, fun h => ?_, fun h => ?_, fun h => ?_, fun h => ?_,
    fun h => ?_, fun h => ?_, fun h => ?_, fun h => ?_, fun h => ?_, fun h => ?_, fun h => ?_, fun h => ?_,
    fun h => ?_, fun h => ?_, fun h hc => ?_, fun h hc => ?_, fun h hc => ?_, fun b h => ?_,
    fun h => ?_⟩
  · exact read (r := .id) h (by decide)
  · exact read (r := .version) h (by decide)
  · rw [read (r := .ctrl) h (by decide)]; exact boolWord_toNat _
  · exact read (r := .cmd) h (by decide)
  · rw [read (r := .error) h (by decide)]; exact errorWord_fields s
  · exact read (r := .errPos) h (by decide)
  · rw [read (r := .intStatus) h (by decide)]; exact boolWord_toNat _
  · exact read (r := .inLen) h (by decide)
  · exact read (r := .treeLen) h (by decide)
  · exact read (r := .payLen) h (by decide)
  · exact read (r := .outLen) h (by decide)
  · rw [read (r := .padCount) h (by decide)]; exact wide _ (by decide)
  · exact read (r := .totalBits) h (by decide)
  · rw [read (r := .leafCount) h (by decide)]; exact wide _ (by decide)
  · rw [read (r := .nodeCount) h (by decide)]; exact wide _ (by decide)
  · rw [read (r := .treeUsed) h (by decide)]; exact wide _ (by decide)
  · rw [read (r := .maxDepth) h (by decide)]; exact wide _ (by decide)
  · rw [read (r := .codeSel) h (by decide)]; exact wide _ (by decide)
  · have hb := caps_bounds hc
    rw [read (r := .capIn) h (by decide)]; exact toNat_ofNat32 (by omega)
  · have hb := caps_bounds hc
    rw [read (r := .capPay) h (by decide)]; exact toNat_ofNat32 (by omega)
  · have hb := caps_bounds hc
    rw [read (r := .capOut) h (by decide)]; exact toNat_ofNat32 (by omega)
  · have hb := b.isLt
    exact read (r := .freq b) h ⟨by omega, by omega, regAt_freq b⟩
  · rw [readData_of_step_rd32 hin ht (by omega), target_reserved off .w32 h]; rfl

/-! ### STATUS (R28) -/

/-- The layout of STATUS with a TREE_STATE that fits its two bits (R28). -/
theorem statusWordOf_fields (st : Status) (ts : Nat) (cv : Bool) (hts : ts < 4) :
    (statusWordOf st ts cv).getLsbD 0 = st.busy ∧ (statusWordOf st ts cv).getLsbD 1 = st.err ∧
    (statusWordOf st ts cv).getLsbD 2 = st.overrun ∧ (statusWordOf st ts cv).getLsbD 3 = st.busyAccess ∧
    (statusWordOf st ts cv).getLsbD 7 = false ∧ (statusWordOf st ts cv).extractLsb' 8 8 = st.lastOp ∧
    (statusWordOf st ts cv).extractLsb' 16 16 = 0 ∧ (statusWordOf st ts cv).extractLsb' 4 2 = BitVec.ofNat 2 ts ∧
    (statusWordOf st ts cv).getLsbD 6 = cv := by
  obtain ⟨busy, err, overrun, busyAccess, codesValid, lastOp⟩ := st
  have h0 := busy.toNat_lt
  have h1 := err.toNat_lt
  have h2 := overrun.toNat_lt
  have h3 := busyAccess.toNat_lt
  have h6 := cv.toNat_lt
  have hl := lastOp.isLt
  unfold statusWordOf
  refine ⟨?_, ?_, ?_, ?_, ?_, ?_, ?_, ?_, ?_⟩
  case refine_6 | refine_7 | refine_8 => apply extractLsb'_ofNat32 <;> simp <;> omega
  all_goals
    apply getLsbD_ofNat32 <;> simp
    omega

/-- Where no primitive step of the pending command has a property, `pendingAny` answers no (R126). -/
theorem pendingAny_eq_false (s : State) (p : Instr → Bool)
    (h : ∀ i, decode s.pendingWord = .ok i → ¬ (primitives i).any p = true) : pendingAny s p = false := by
  unfold pendingAny pendingInstr
  cases hd : decode s.pendingWord with
  | error e => rfl
  | ok i => exact Bool.eq_false_of_not_eq_true (h i hd)

theorem tree_code_lt (r : TreeReg) : r.code < 3 := by
  cases r <;> simp [TreeReg.code]

theorem primitives_any_treeState (i : Instr) :
    (primitives i).any primitiveWritesTreeState = true ↔ i ∈ treeStateWriters := by
  cases i <;> decide

theorem primitives_any_codesValid (i : Instr) :
    (primitives i).any primitiveWritesCodesValid = true ↔ i ∈ codesValidWriters := by
  cases i <;> decide

/-- What STATUS reads as (R28, R55, R126): its stored fields, with a TREE_STATE below 3 and a CODES_VALID that are the current
ones where no pending command writes them. -/
theorem hostReadReg_status (d : Word) (s : State) :
    ∃ ts cv, hostReadReg d s .status = statusWordOf s.status ts cv ∧ ts < 3 ∧
      (nonePending s treeStateWriters → ts = s.tree.code) ∧
      (nonePending s codesValidWriters → cv = s.status.codesValid) := by
  cases hb : s.status.busy with
  | false =>
    exact ⟨_, _, hostReadReg_idle d s .status hb, tree_code_lt _, fun _ => rfl, fun _ => rfl⟩
  | true =>
    refine ⟨_, _, by rw [hostReadReg, if_pos hb, if_pos rfl]; rfl, ?_, fun hn => ?_, fun hn => ?_⟩
    · split
      · exact Nat.mod_lt _ (by omega)
      · exact tree_code_lt _
    · have hw := hn.resolve_left (by simp [hb])
      rw [pendingAny_eq_false s _ fun i hd hp => hw i ((primitives_any_treeState i).1 hp) hd]
      rfl
    · have hw := hn.resolve_left (by simp [hb])
      rw [pendingAny_eq_false s _ fun i hd hp => hw i ((primitives_any_codesValid i).1 hp) hd]
      rfl

/-- Settles O18: STATUS is the word of its fields, read bit by bit. -/
theorem statusReads : Obligations.StatusReads := by
  unfold Obligations.StatusReads
  intro s rest hin
  obtain ⟨t, ht, hread⟩ := step_rd32_reg hin (by decide) rfl rfl
  obtain ⟨ts, cv, hw, hts, htree, hcv⟩ := hostReadReg_status (Config.freeWord s.draws.next) s
  obtain ⟨h0, h1, h2, h3, h7, hop, hhi, hstate, h6⟩ := statusWordOf_fields s.status ts cv (by omega)
  rw [← hw, ← hread] at h0 h1 h2 h3 h7 hop hhi hstate h6
  refine ⟨t, ht, h0, h1, h2, h3, h7, hop, hhi, ?_, fun hn => h6.trans (hcv hn), fun hn => ?_⟩
  · rw [hstate]
    interval_cases ts <;> decide
  · rw [hstate, htree hn]
    exact ⟨fun h => by rw [h]; rfl, fun h => by rw [h]; rfl, fun tree h => by rw [h]; rfl⟩

/-! ### The selected code (R42, R43) -/

/-- Bit by bit from the most significant: what the fold of `wordOfBits` builds (R43). -/
theorem foldl_bits_testBit (f : Nat → Bool) (n m : Nat) (hm : m < n) :
    ((List.range n).foldl (fun acc m => 2 * acc + (f m).toNat) 0).testBit (n - 1 - m) = f m := by
  induction n with
  | zero => omega
  | succ n ih =>
    rw [List.range_succ, List.foldl_append, List.foldl_cons, List.foldl_nil]
    have hb := (f n).toNat_lt
    rcases Nat.lt_succ_iff_lt_or_eq.1 hm with hlt | rfl
    · have hpos : n + 1 - 1 - m = (n - 1 - m) + 1 := by omega
      rw [hpos, Nat.testBit_succ, ← ih hlt]
      congr 1
      omega
    · have hpos : m + 1 - 1 - m = 0 := by omega
      rw [hpos, Nat.testBit_zero, Nat.mul_add_mod, Nat.mod_eq_of_lt hb]
      cases f m <;> rfl

/-- The bits of the word made of 32 bits of a code, the first at the top (R43). -/
theorem wordOfBits_getLsbD (c : Bits) (m : Nat) (hm : m < 32) : (wordOfBits c).getLsbD (31 - m) = c.getD m false := by
  have hk : 31 - m < 32 := by omega
  rw [wordOfBits, BitVec.getLsbD_ofNat, foldl_bits_testBit (fun m => c.getD m false) 32 m hm]
  simp [hk]

/-- Settles O19: CODE_LEN holds every length that the invariant allows, and CODE_WORDk the code from bit 32k on. -/
theorem codeReadback : Obligations.CodeReadback := by
  unfold Obligations.CodeReadback
  intro s rest hinv hbusy
  refine ⟨fun hin => ?_, fun k hk hin => ?_⟩
  · obtain ⟨t, ht, hread⟩ := step_rd32_reg hin (by decide) rfl rfl
    refine ⟨t, ht, ?_⟩
    have hlen := hinv.code_length s.codeSel
    rw [hread, hostReadReg_idle _ _ _ hbusy]
    show (BitVec.ofNat 32 ((tableGet s.codes s.codeSel).length % 2 ^ 8)).toNat = _
    rw [toNat_ofNat32 (by omega), Nat.mod_eq_of_lt (by omega)]
  · obtain ⟨t, ht, hread⟩ := step_rd32_reg hin (by omega) (by omega) (regAt_codeWord k hk)
    refine ⟨t, ht, fun m hm => ?_⟩
    rw [hread, hostReadReg_idle _ _ _ hbusy]
    show (wordOfBits ((tableGet s.codes s.codeSel).drop (32 * (k % 8)))).getLsbD (31 - m) = _
    rw [wordOfBits_getLsbD _ m hm, Nat.mod_eq_of_lt hk]
    simp [List.getD_eq_getElem?_getD, List.getElem?_drop]

/-! ### Reads during BUSY (R55, R126) -/

/-- A register that a primitive step writes is in the list of R126's table for that step. -/
theorem mem_writtenRegs_of_primitive {i : Instr} {r : Reg} (h : primitiveWritesReg i r = true) :
    r ∈ writtenRegs i := by
  unfold primitiveWritesReg at h
  split at h
  case h_17 => cases h
  all_goals simp [writtenRegs]

/-- The write set of a command has that of each of its primitive steps (R118, R119, R126). -/
theorem writtenRegs_primitives_subset (i j : Instr) (hj : j ∈ primitives i) : writtenRegs j ⊆ writtenRegs i := by
  cases i
  case encode =>
    simp only [primitives, List.mem_cons, List.not_mem_nil, or_false] at hj
    intro r
    rcases hj with rfl | rfl | rfl | rfl | rfl <;> simp only [writtenRegs, List.mem_append] <;> tauto
  case decode =>
    simp only [primitives, List.mem_cons, List.not_mem_nil, or_false] at hj
    intro r
    rcases hj with rfl | rfl <;> simp only [writtenRegs, List.mem_append] <;> tauto
  all_goals
    rw [List.mem_singleton.1 hj]
    exact List.Subset.refl _

theorem pendingWritesReg_eq_false (s : State) (r : Reg) (he : r ≠ .error) (hp : r ≠ .errPos)
    (h : ∀ j, decode s.pendingWord = .ok j → r ∉ writtenRegs j) : pendingWritesReg s r = false := by
  have hany : pendingAny s (fun i => primitiveWritesReg i r) = false := by
    refine pendingAny_eq_false s _ fun i hd hw => h i hd ?_
    obtain ⟨j, hj, hr⟩ := List.any_eq_true.1 hw
    exact writtenRegs_primitives_subset i j hj (mem_writtenRegs_of_primitive hr)
  unfold pendingWritesReg
  split
  · exact absurd rfl he
  · exact absurd rfl hp
  · exact hany

theorem primitives_any_buffer (i : Instr) (b : Buffer) :
    ((primitives i).any fun j => primitiveWritesBuffer j b) = true ↔ b ∈ writtenBuffers i := by
  cases i <;> cases b <;> decide

theorem bufferDrawn_eq_false (s : State) (b : Buffer)
    (h : ∀ j, decode s.pendingWord = .ok j → b ∉ writtenBuffers j) : bufferDrawn s b = false := by
  have hw : pendingWritesBuffer s b = pendingAny s fun j => primitiveWritesBuffer j b := rfl
  rw [bufferDrawn, hw, pendingAny_eq_false s _ fun i hd hp => h i hd ((primitives_any_buffer i b).1 hp), Bool.and_false]

/-- A byte that is not drawn reads as it is, and as 0 from the capacity on (R57, R61). -/
theorem hostReadByte_of_not_drawn (d : Word) (s : State) (b : Buffer) (i j : Nat) (h : bufferDrawn s b = false) :
    hostReadByte d s b i j = if i + j < b.cap s.caps then s.bufByte b (i + j) else 0 := by
  simp [hostReadByte, h]

/-- A 32-bit read is little-endian (R59). -/
theorem wordOfBytes_extract (f : Nat → Byte) (j : Nat) (hj : j < 4) :
    (BitVec.ofNat 32 (wordOfBytes ((List.range 4).map f))).extractLsb' (8 * j) 8 = f j := by
  have h0 := (f 0).isLt
  have h1 := (f 1).isLt
  have h2 := (f 2).isLt
  have h3 := (f 3).isLt
  have hw : wordOfBytes ((List.range 4).map f) =
      (f 0).toNat + 256 * ((f 1).toNat + 256 * ((f 2).toNat + 256 * ((f 3).toNat + 256 * 0))) := rfl
  rw [hw]
  apply extractLsb'_ofNat32
  · omega
  · interval_cases j <;> omega

/-- An 8-bit read is zero-extended (log entry 15). -/
theorem wordOfBytes_single (f : Nat → Byte) :
    (BitVec.ofNat 32 (wordOfBytes ((List.range 1).map f))).toNat = (f 0).toNat := by
  have h0 := (f 0).isLt
  have hw : wordOfBytes ((List.range 1).map f) = (f 0).toNat + 256 * 0 := rfl
  rw [hw, toNat_ofNat32 (by omega)]
  omega

theorem base_add_lt_windowSize (b : Buffer) (i : Nat) (hi : i < 2 ^ 24) : b.base + i < windowSize := by
  have := base_ge b
  simp only [windowSize]
  omega

/-- A buffer byte lies in the host window and in its buffer's own (R11, R56, R57). -/
theorem bufferByte_in_window {c : Caps} (hc : c.wf = true) {b : Buffer} {i : Nat} (hi : i < b.cap c) :
    b.base + i < windowSize ∧ i < (if b = .treeBuf then treeBufSize else 2 ^ 24) := by
  have hw := hi.trans_le (cap_le_window c hc b)
  refine ⟨base_add_lt_windowSize b i (hw.trans_le ?_), hw⟩
  split <;> decide

/-- Settles O20: outside the write set a read of a register or a buffer byte is not a draw. -/
theorem busyReadsOutsideWriteSetExact : Obligations.BusyReadsOutsideWriteSetExact := by
  unfold Obligations.BusyReadsOutsideWriteSetExact
  intro s rest hbusy hc
  refine ⟨fun off r ho h4 hr hs he hp hw hin => ?_, fun b i hi hw => ⟨fun hin => ?_, fun h4 hin => ?_⟩⟩
  · obtain ⟨t, ht, hread⟩ := step_rd32_reg hin ho h4 hr
    refine ⟨t, ht, ?_⟩
    rw [hread, hostReadReg, if_pos hbusy, if_neg hs, pendingWritesReg_eq_false s r he hp hw]
    rfl
  · obtain ⟨hwin, hbuf⟩ := bufferByte_in_window hc hi
    refine ⟨_, step_rd8 s _ rest hwin hin, ?_⟩
    rw [target_buffer8 b i hbuf]
    refine (wordOfBytes_single _).trans (congrArg BitVec.toNat ?_)
    exact (hostReadByte_of_not_drawn _ _ b i 0 (bufferDrawn_eq_false _ b hw)).trans (if_pos hi)
  · obtain ⟨hwin, hbuf⟩ := bufferByte_in_window hc hi
    refine ⟨_, step_rd32 s _ rest hwin hin, fun j hj => ?_⟩
    rw [target_buffer32 b i hbuf h4]
    refine (wordOfBytes_extract _ j hj).trans ?_
    exact hostReadByte_of_not_drawn _ _ b i j (bufferDrawn_eq_false _ b hw)

/-! ### Reserved bits (R23) -/

theorem setWidth32_toNat_le {n : Nat} (v : BitVec n) (hn : n ≤ 32) : (v.setWidth 32).toNat ≤ 2 ^ n - 1 := by
  rw [BitVec.toNat_setWidth_of_le hn]
  exact Nat.le_sub_one_of_lt v.isLt

/-- A register's current value has its reserved bits 0 (R23). -/
theorem readReg_le_implementedBits (s : State) (r : Reg) : (readReg s r).toNat ≤ (implementedBits r).toNat := by
  cases r with
  | error =>
    have hc := s.error.code.isLt
    have hd := s.error.detail.isLt
    have hs := s.error.stage.isLt
    have hw : (errorWord s).toNat ≤ 2 ^ 24 - 1 := by
      rw [errorWord, toNat_ofNat32 (by omega)]
      omega
    exact hw.trans (by decide)
  | padCount => exact (setWidth32_toNat_le s.padCount (by decide)).trans (by decide)
  | leafCount => exact (setWidth32_toNat_le s.leafCount (by decide)).trans (by decide)
  | nodeCount => exact (setWidth32_toNat_le s.nodeCount (by decide)).trans (by decide)
  | treeUsed => exact (setWidth32_toNat_le s.treeUsed (by decide)).trans (by decide)
  | maxDepth => exact (setWidth32_toNat_le s.maxDepth (by decide)).trans (by decide)
  | codeLen =>
    have hw : (codeLenWord s).toNat ≤ 2 ^ 8 - 1 := by
      rw [codeLenWord, toNat_ofNat32 (by omega)]
      omega
    exact hw.trans (by decide)
  | _ =>
    have hones : 2 ^ 32 - 1 ≤ (0xFFFFFFFF : Word).toNat := by decide
    exact (Nat.le_sub_one_of_lt (BitVec.isLt _)).trans hones

/-- Whatever a read returns, drawn or not, its reserved bits are 0 (R23; log entry 9). -/
theorem hostReadReg_le_implementedBits (d : Word) (s : State) (r : Reg) :
    (hostReadReg d s r).toNat ≤ (implementedBits r).toNat := by
  unfold hostReadReg
  split
  · split
    · next hr => rw [hr]; exact (Nat.le_sub_one_of_lt (BitVec.isLt _)).trans (by decide)
    · split
      · rw [BitVec.toNat_and]; exact Nat.and_le_right
      · exact readReg_le_implementedBits s r
  · exact readReg_le_implementedBits s r

/-- Settles O21: each of these registers reads within the bits it implements. -/
theorem drawnReadsKeepReservedBitsZero : Obligations.DrawnReadsKeepReservedBitsZero := by
  unfold Obligations.DrawnReadsKeepReservedBitsZero
  intro s off rest hin
  obtain ⟨t, ht⟩ : ∃ t, step s = .next t := ⟨_, step_rd32_eq s off rest hin⟩
  have bound {r : Reg} {a n : Nat} (ha : off = a) (hm : a < 0x1000 ∧ a % 4 = 0 ∧ regAt a = some r)
      (hn : (implementedBits r).toNat < n) : t.readData.toNat < n := by
    subst ha
    obtain ⟨ho, h4, hr⟩ := hm
    rw [readData_of_step_rd32_reg hin ht ho h4 hr]
    exact (hostReadReg_le_implementedBits _ s r).trans_lt hn
  exact ⟨t, ht, fun h => bound (r := .error) h (by decide) (by decide),
    fun h => bound (r := .padCount) h (by decide) (by decide),
    fun h => bound (r := .leafCount) h (by decide) (by decide),
    fun h => bound (r := .nodeCount) h (by decide) (by decide),
    fun h => bound (r := .treeUsed) h (by decide) (by decide),
    fun h => bound (r := .maxDepth) h (by decide) (by decide),
    fun h => bound (r := .codeLen) h (by decide) (by decide)⟩

end Sys2Proof.Machine
end

section
/-! PROOF. What host writes do (R23, R26, R31, R55, R57, R149). -/

namespace Sys2Proof.Machine

/-! ### Register writes -/

/-- The step of a 32-bit write at the offset of a register. -/
theorem step_wr32_reg {s : State} {off : Nat} {r : Reg} {v : Word} {rest : List Input}
    (hin : s.inputs = wr32 off v :: rest) (ho : off < 0x1000) (h4 : off % 4 = 0) (hr : regAt off = some r) :
    step s = .next (hostWriteReg r v { s with inputs := rest }) := by
  rw [step_wr32 s off v rest (by simp only [windowSize]; omega) hin,
    (target_reg_iff off .w32 r).2 ⟨ho, rfl, h4, hr⟩, hostWrite]

/-- While BUSY a write to a register it protects sets BUSY_ACCESS and nothing else (R55). -/
theorem hostWriteReg_busy (r : Reg) (v : Word) (s : State) (hp : busyProtects r) (hb : s.status.busy = true) :
    hostWriteReg r v s = dropWrite s := by
  obtain ⟨hctrl, hcmd, hint⟩ := hp
  rcases hostWriteReg_cases r v s with ⟨h, _⟩ | ⟨h, _⟩ | ⟨h, _⟩ | ⟨_, _, _, _, h⟩ | ⟨_, _, _, h, _⟩
  · exact absurd h hctrl
  · exact absurd h hint
  · exact absurd h hcmd
  · exact h
  · simp [hb] at h

/-- While idle a write to a register that BUSY protects stores the word, where the register stores (R23). -/
theorem hostWriteReg_idle (r : Reg) (v : Word) (s : State) (hp : busyProtects r) (hb : s.status.busy = false) :
    hostWriteReg r v s = storeReg r v s := by
  obtain ⟨hctrl, hcmd, hint⟩ := hp
  rcases hostWriteReg_cases r v s with ⟨h, _⟩ | ⟨h, _⟩ | ⟨h, _⟩ | ⟨_, _, _, h, _⟩ | ⟨_, _, _, _, h⟩
  · exact absurd h hctrl
  · exact absurd h hint
  · exact absurd h hcmd
  · simp [hb] at h
  · exact h

/-! ### Buffer writes while BUSY -/

theorem hostWriteBuffer_busy_byte (b : Buffer) (i n : Nat) (v : Word) (s : State) (hb : s.status.busy = true)
    (hi : i < b.cap s.caps) : hostWriteBuffer b i n v s = dropWrite s := by
  simp [hostWriteBuffer, hb, hi]

theorem hostWriteBuffer_busy_past (b : Buffer) (i n : Nat) (v : Word) (s : State) (hb : s.status.busy = true)
    (hi : b.cap s.caps ≤ i) : hostWriteBuffer b i n v s = s := by
  simp [hostWriteBuffer, hb, Nat.not_lt.2 hi]

/-- A write in a buffer's window from its capacity on changes nothing while BUSY (R57, R149). -/
theorem hostWrite_busy_past (b : Buffer) (i : Nat) (w : Width) (v : Word) (s : State) (hb : s.status.busy = true)
    (hi : b.cap s.caps ≤ i) (hwin : i < 2 ^ 24) (ht : b = .treeBuf → i < 0x1000000 - 0x1000) :
    hostWrite (target (b.base + i) w) v s = s := by
  rcases target_window b i w hwin ht with h | ⟨n, h⟩ <;> rw [h]
  · rfl
  · exact hostWriteBuffer_busy_past b i n v s hb hi

/-- Settles O26: each kind of write during BUSY is dropped, and sets BUSY_ACCESS where it reaches a register or a byte. -/
theorem busyWritesDropped : Obligations.BusyWritesDropped := by
  unfold Obligations.BusyWritesDropped
  intro s rest hb hc
  refine ⟨fun off r v ho h4 hr hp hin => ?_, fun b i v hi hin => ?_, fun b i v hi h4 hin => ?_,
    fun b i hi hw ht => ⟨fun v hin => ?_, fun v hin => ?_⟩⟩
  · rw [step_wr32_reg hin ho h4 hr, hostWriteReg_busy r v { s with inputs := rest } hp hb]
    rfl
  · obtain ⟨hwin, hbuf⟩ := bufferByte_in_window hc hi
    rw [step_wr8 s _ v rest hwin hin, target_buffer8 b i hbuf]
    exact congrArg _ (hostWriteBuffer_busy_byte b i 1 _ { s with inputs := rest } hb hi)
  · obtain ⟨hwin, hbuf⟩ := bufferByte_in_window hc hi
    rw [step_wr32 s _ v rest hwin hin, target_buffer32 b i hbuf h4]
    exact congrArg _ (hostWriteBuffer_busy_byte b i 4 _ { s with inputs := rest } hb hi)
  · rw [step_wr8 s _ v rest (base_add_lt_windowSize b i hw) hin,
      hostWrite_busy_past b i .w8 _ { s with inputs := rest } hb hi hw ht]
  · rw [step_wr32 s _ v rest (base_add_lt_windowSize b i hw) hin,
      hostWrite_busy_past b i .w32 _ { s with inputs := rest } hb hi hw ht]

/-! ### Register writes while idle -/

/-- The step of an idle 32-bit write to a register that BUSY protects. -/
theorem step_wr32_idle {s : State} {off : Nat} {r : Reg} {v : Word} {rest : List Input}
    (hb : s.status.busy = false) (hin : s.inputs = wr32 off v :: rest) (ho : off < 0x1000) (h4 : off % 4 = 0)
    (hr : regAt off = some r) (hp : busyProtects r) :
    step s = .next (storeReg r v { s with inputs := rest }) := by
  rw [step_wr32_reg hin ho h4 hr, hostWriteReg_idle r v { s with inputs := rest } hp hb]

/-- The registers that a host write can do something to while idle (R23). -/
def writableRegs : List Reg := [.ctrl, .cmd, .intStatus, .inLen, .treeLen, .payLen, .codeSel]

theorem storeReg_of_not_writable (r : Reg) (v : Word) (s : State) (h : r ∉ writableRegs) : storeReg r v s = s := by
  unfold storeReg
  split
  case h_5 => rfl
  all_goals exact absurd (by simp [writableRegs]) h

theorem busyProtects_of_not_writable {r : Reg} (h : r ∉ writableRegs) : busyProtects r := by
  simp only [writableRegs, List.mem_cons, not_or] at h
  obtain ⟨h1, h2, h3, _⟩ := h
  exact ⟨h1, h2, h3⟩

/-- A write to a read-only register changes nothing while idle (R23). -/
theorem step_wr32_readOnly {s : State} {off : Nat} {r : Reg} {v : Word} {rest : List Input}
    (hb : s.status.busy = false) (hin : s.inputs = wr32 off v :: rest) (ho : off < 0x1000) (h4 : off % 4 = 0)
    (hr : regAt off = some r) (hw : r ∉ writableRegs) : step s = .next { s with inputs := rest } := by
  rw [step_wr32_idle hb hin ho h4 hr (busyProtects_of_not_writable hw), storeReg_of_not_writable r v _ hw]

/-- The offsets of the registers that are read-only, FREQ apart (R23). -/
theorem regAt_readOnly : ∀ off ∈ [0x000, 0x004, 0x010, 0x014, 0x018, 0x02C, 0x030, 0x034, 0x038, 0x03C, 0x040, 0x044,
      0x04C, 0x050, 0x054, 0x058, 0x05C, 0x060, 0x064, 0x068, 0x06C, 0x070, 0x074, 0x078],
    off < 0x1000 ∧ off % 4 = 0 ∧ ((regAt off).any fun r => decide (r ∉ writableRegs)) = true := by
  decide

/-- Settles O27: four registers store the word, and the others an idle write can reach are read-only. -/
theorem idleRegisterWrites : Obligations.IdleRegisterWrites := by
  unfold Obligations.IdleRegisterWrites
  intro s v rest hb
  refine ⟨fun hin => ?_, fun hin => ?_, fun hin => ?_, fun hin => ?_, fun off hoff hin => ?_, fun b hin => ?_⟩
  · exact step_wr32_idle hb hin (by decide) rfl rfl ⟨by simp, by simp, by simp⟩
  · exact step_wr32_idle hb hin (by decide) rfl rfl ⟨by simp, by simp, by simp⟩
  · exact step_wr32_idle hb hin (by decide) rfl rfl ⟨by simp, by simp, by simp⟩
  · rw [step_wr32_idle hb hin (by decide) rfl rfl ⟨by simp, by simp, by simp⟩, storeReg, BitVec.setWidth_eq_extractLsb']
    decide
  · obtain ⟨ho, h4, hany⟩ := regAt_readOnly off hoff
    obtain ⟨r, hr, hw⟩ := (Option.any_eq_true _ _).1 hany
    exact step_wr32_readOnly hb hin ho h4 hr (of_decide_eq_true hw)
  · have hlt := b.isLt
    exact step_wr32_readOnly hb hin (by omega) (by omega) (regAt_freq b) (by simp [writableRegs])

/-! ### The interrupt (R26, R31, R134) -/

/-- Settles O28: CTRL and INT_STATUS take a write whatever BUSY is. -/
theorem interruptControl : Obligations.InterruptControl := by
  unfold Obligations.InterruptControl
  intro s v rest
  refine ⟨fun hin hv => ?_, fun hin => ?_, ?_⟩
  · rw [step_wr32_reg hin (by decide) rfl rfl]
    show Host.Outcome.next (writeCtrl v { s with inputs := rest }) = _
    rw [writeCtrl, hv]
    rfl
  · rw [step_wr32_reg hin (by decide) rfl rfl]
    show Host.Outcome.next (writeIntStatus v { s with inputs := rest }) = _
    rw [writeIntStatus]
    cases v.getLsbD 0 <;> rfl
  · simp [irq]

end Sys2Proof.Machine
end

section
/-! PROOF. The node arena represents the tree (R51, R89). -/

namespace Sys2Proof.Machine

/-! ### What an arena holds at an index -/

/-- The tree `t` is found below index `i`, by any walk that may go deep enough. -/
def HoldsTree (nodes : List ArenaNode) (i : Nat) (t : HuffTree) : Prop :=
  ∀ fuel, t.depth < fuel → treeAt nodes fuel i = some t

theorem holdsTree_leaf {nodes : List ArenaNode} {i : Nat} {b : Byte} {w : Option Word}
    (h : nodes[i]? = some (.leaf b w)) : HoldsTree nodes i (.leaf b) := by
  intro fuel hf
  obtain ⟨n, rfl⟩ := Nat.exists_eq_add_one_of_ne_zero (Nat.ne_zero_of_lt hf)
  simp [treeAt, h]

theorem holdsTree_node {nodes : List ArenaNode} {i : Nat} {a b : BitVec 9} {w : Option Word} {l r : HuffTree}
    (h : nodes[i]? = some (.internal a b w)) (hl : HoldsTree nodes a.toNat l) (hr : HoldsTree nodes b.toNat r) :
    HoldsTree nodes i (.node l r) := by
  intro fuel hf
  obtain ⟨n, rfl⟩ := Nat.exists_eq_add_one_of_ne_zero (Nat.ne_zero_of_lt hf)
  simp only [HuffTree.depth] at hf
  simp [treeAt, h, hl n (by omega), hr n (by omega)]

theorem holdsTree_lt {nodes : List ArenaNode} {i : Nat} {t : HuffTree} (h : HoldsTree nodes i t) :
    i < nodes.length := by
  have hw := h (t.depth + 1) (by omega)
  by_contra hn
  simp [treeAt, List.getElem?_eq_none (Nat.le_of_not_lt hn)] at hw

/-- What a walk finds stays where nodes are placed after those in use. -/
theorem treeAt_append (nodes more : List ArenaNode) (fuel i : Nat) (t : HuffTree) (h : treeAt nodes fuel i = some t) :
    treeAt (nodes ++ more) fuel i = some t := by
  induction fuel generalizing i t with
  | zero => simp [treeAt] at h
  | succ fuel ih =>
    unfold treeAt at h ⊢
    cases hn : nodes[i]? with
    | none => simp [hn] at h
    | some node =>
      rw [List.getElem?_append_left (List.getElem?_eq_some_iff.1 hn).1, hn]
      rw [hn] at h
      cases node with
      | leaf b w => exact h
      | internal a b w =>
        simp only at h ⊢
        cases hl : treeAt nodes fuel a.toNat with
        | none => simp [hl] at h
        | some l =>
          cases hr : treeAt nodes fuel b.toNat with
          | none => simp [hl, hr] at h
          | some r =>
            rw [ih _ _ hl, ih _ _ hr]
            simpa [hl, hr] using h

theorem holdsTree_append {nodes : List ArenaNode} {i : Nat} {t : HuffTree} (h : HoldsTree nodes i t)
    (more : List ArenaNode) : HoldsTree (nodes ++ more) i t :=
  fun fuel hf => treeAt_append nodes more fuel i t (h fuel hf)

/-- An arena whose root index holds a tree of n leaves in 2n - 1 entries represents that tree. -/
theorem arena_tree_of_holdsTree {a : Arena} {t : HuffTree} (h : HoldsTree a.nodes a.root.toNat t)
    (hlen : a.nodes.length = 2 * t.numLeaves - 1) : a.tree = some t := by
  have hd := depth_lt_numLeaves t
  exact h a.nodes.length (by omega)

/-! ### DESERIALIZE's placement (R51) -/

theorem placePreorder_length (t : HuffTree) (i : Nat) : (placePreorder t i).length = t.numNodes := by
  induction t generalizing i with
  | leaf s => rfl
  | node l r ihl ihr => simp [placePreorder, HuffTree.numNodes, ihl, ihr]

theorem numNodes_pos (t : HuffTree) : 0 < t.numNodes := by
  cases t <;> simp [HuffTree.numNodes]

theorem toNat_ofNat9 {n : Nat} (h : n < 512) : (BitVec.ofNat 9 n).toNat = n := by
  rw [BitVec.toNat_ofNat, Nat.mod_eq_of_lt h]

/-- Pre-order placement puts the tree at its first index, where the indices fit the 9 bits of a link. -/
theorem holdsTree_placePreorder (t : HuffTree) (before after : List ArenaNode)
    (h : before.length + t.numNodes ≤ 512) :
    HoldsTree (before ++ placePreorder t before.length ++ after) before.length t := by
  induction t generalizing before after with
  | leaf s => exact holdsTree_leaf (w := none) (by simp [placePreorder])
  | node l r ihl ihr =>
    have hl := numNodes_pos l
    have hr := numNodes_pos r
    simp only [HuffTree.numNodes] at h
    rw [placePreorder]
    generalize hx : ArenaNode.internal _ _ none = x
    have hleft := ihl (before ++ [x]) (placePreorder r (before.length + 1 + l.numNodes) ++ after) (by simp; omega)
    have hright := ihr (before ++ [x] ++ placePreorder l (before.length + 1)) after
      (by simp [placePreorder_length]; omega)
    have hnext : (before ++ [x] ++ placePreorder l (before.length + 1)).length = before.length + 1 + l.numNodes := by
      simp [placePreorder_length]
      omega
    rw [hnext] at hright
    simp only [List.length_append, List.length_singleton, List.append_assoc, List.cons_append, List.nil_append]
      at hleft hright ⊢
    refine holdsTree_node (a := BitVec.ofNat 9 (before.length + 1))
      (b := BitVec.ofNat 9 (before.length + 1 + l.numNodes)) (w := none) (by simp [hx]) ?_ ?_
    · rw [toNat_ofNat9 (by omega)]; exact hleft
    · rw [toNat_ofNat9 (by omega)]; exact hright

/-- The arena that pre-order placement gives represents the tree (R51). -/
theorem preorderArena_represents (t : HuffTree) (h : t.numLeaves ≤ 256) :
    (preorderArena t).tree = some t ∧ (preorderArena t).nodes.length = 2 * t.numLeaves - 1 := by
  have hlen : (preorderArena t).nodes.length = 2 * t.numLeaves - 1 := by
    rw [preorderArena, placePreorder_length, numNodes_eq]
  have hroot : HoldsTree ([] ++ placePreorder t 0 ++ []) 0 t :=
    holdsTree_placePreorder t [] [] (by rw [numNodes_eq]; simp; omega)
  rw [List.nil_append, List.append_nil] at hroot
  exact ⟨arena_tree_of_holdsTree hroot hlen, hlen⟩

/-! ### BUILD's placement (R89) -/

/-- A heap element stands for a queue element: the keys are equal, and its index holds the element's tree. -/
structure SameItem (nodes : List ArenaNode) (x : QueueItem Nat) (y : QueueItem HuffTree) : Prop where
  weight : x.weight = y.weight
  seq    : x.seq = y.seq
  tree   : HoldsTree nodes x.node y.node

theorem SameItem.append {nodes : List ArenaNode} {x : QueueItem Nat} {y : QueueItem HuffTree}
    (h : SameItem nodes x y) (more : List ArenaNode) : SameItem (nodes ++ more) x y :=
  ⟨h.weight, h.seq, holdsTree_append h.tree more⟩

/-- Elements with the same keys go to the same place (R86). -/
theorem enqueue_forall₂ {nodes : List ArenaNode} {x : QueueItem Nat} {y : QueueItem HuffTree}
    {q : List (QueueItem Nat)} {p : List (QueueItem HuffTree)} (hxy : SameItem nodes x y)
    (h : List.Forall₂ (SameItem nodes) q p) : List.Forall₂ (SameItem nodes) (enqueue x q) (enqueue y p) := by
  induction h with
  | nil => exact .cons hxy .nil
  | @cons a b q p hab hqp ih =>
    have hlt : x.keyLt a = y.keyLt b := by
      simp only [QueueItem.keyLt, hxy.weight, hxy.seq, hab.weight, hab.seq]
    simp only [enqueue, hlt]
    split
    · exact .cons hxy (.cons hab hqp)
    · exact .cons hab ih

theorem foldl_enqueue_forall₂ {β : Type} {nodes : List ArenaNode} (g : β → QueueItem Nat)
    (g' : β → QueueItem HuffTree) (l : List β) (hg : ∀ b ∈ l, SameItem nodes (g b) (g' b))
    (q : List (QueueItem Nat)) (p : List (QueueItem HuffTree)) (h : List.Forall₂ (SameItem nodes) q p) :
    List.Forall₂ (SameItem nodes) (l.foldl (fun q b => enqueue (g b) q) q)
      (l.foldl (fun p b => enqueue (g' b) p) p) := by
  induction l generalizing q p with
  | nil => exact h
  | cons b l ih =>
    exact ih (fun c hc => hg c (List.mem_cons_of_mem b hc)) _ _ (enqueue_forall₂ (hg b List.mem_cons_self) h)

/-- Leaf S[j] stands in NODE[j], so the first heap stands for the first queue (R89). -/
theorem initialHeap_forall₂ (f : Table Word) :
    List.Forall₂ (SameItem ((presentSymbols f).map (leafNode f))) (initialHeap f) (initialQueue f) := by
  have hq : initialQueue f =
      (presentSymbols f).zipIdx.foldl (fun q bj => enqueue (leafItem f bj.1) q) [] := by
    rw [initialQueue, ← List.foldl_map (f := Prod.fst) (g := fun q b => enqueue (leafItem f b) q),
      List.zipIdx_map_fst]
  rw [hq]
  refine foldl_enqueue_forall₂ _ _ _ ?_ [] [] .nil
  intro ⟨b, j⟩ hbj
  refine ⟨rfl, rfl, holdsTree_leaf (w := some (tableGet f b)) ?_⟩
  have hj := List.mem_zipIdx_iff_getElem?.1 hbj
  simp only at hj
  simp [hj, leafNode]

/-- Where one element is left, the loops are done, and the last node placed holds the last tree. -/
theorem arenaLoop_last (n fuel k : Nat) (x : QueueItem Nat) (y : QueueItem HuffTree) (nodes : List ArenaNode)
    (hxy : SameItem nodes x y) (hnodes : nodes.length = n + k) (hk : 1 + k = n) (hlast : x.node + 1 = nodes.length) :
    (arenaLoop n fuel k [x] nodes).length = 2 * n - 1 ∧
      ∃ z, mergeLoop fuel k [y] = [z] ∧ HoldsTree (arenaLoop n fuel k [x] nodes) (2 * n - 2) z.node := by
  have ha : arenaLoop n fuel k [x] nodes = nodes := by cases fuel <;> rfl
  have hm : mergeLoop fuel k [y] = [y] := by cases fuel <;> rfl
  have hx : x.node = 2 * n - 2 := by omega
  rw [ha, hm]
  exact ⟨by omega, y, rfl, hx ▸ hxy.tree⟩

/-- Merging the first two elements puts the new node at the next free index, where it holds the merged tree (R87, R89). -/
theorem sameItem_merge {nodes : List ArenaNode} {x x' : QueueItem Nat} {y y' : QueueItem HuffTree} (k : Nat)
    (h512 : nodes.length ≤ 512) (hx : SameItem nodes x y) (hx' : SameItem nodes x' y') (w : Option Word) :
    SameItem (nodes ++ [.internal (BitVec.ofNat 9 x'.node) (BitVec.ofNat 9 x.node) w])
      { weight := x.weight + x'.weight, seq := 256 + k, node := nodes.length } (mergeItems k y y') := by
  have hlt := holdsTree_lt hx.tree
  have hlt' := holdsTree_lt hx'.tree
  refine ⟨by simp only [mergeItems, hx.weight, hx'.weight], rfl, ?_⟩
  refine holdsTree_node (List.getElem?_concat_length) ?_ ?_
  · rw [toNat_ofNat9 (by omega)]; exact holdsTree_append hx'.tree _
  · rw [toNat_ofNat9 (by omega)]; exact holdsTree_append hx.tree _

/-- The merge loop on indices follows the merge loop on trees, and the last node it places holds the last tree (R89). -/
theorem arenaLoop_holds (n fuel k : Nat) (q : List (QueueItem Nat)) (p : List (QueueItem HuffTree))
    (nodes : List ArenaNode) (hqp : List.Forall₂ (SameItem nodes) q p) (hn : n ≤ 256)
    (hnodes : nodes.length = n + k) (hq : q.length + k = n) (h0 : 0 < q.length) (hf : q.length ≤ fuel + 1)
    (hlast : ∀ x, q = [x] → x.node + 1 = nodes.length) :
    (arenaLoop n fuel k q nodes).length = 2 * n - 1 ∧
      ∃ z, mergeLoop fuel k p = [z] ∧ HoldsTree (arenaLoop n fuel k q nodes) (2 * n - 2) z.node := by
  induction fuel generalizing k q p nodes with
  | zero =>
    match hqp with
    | .nil => simp at h0
    | .cons hxy .nil => exact arenaLoop_last n 0 k _ _ nodes hxy hnodes hq (hlast _ rfl)
    | .cons _ (.cons _ _) => simp at hf
  | succ fuel ih =>
    match hqp with
    | .nil => simp at h0
    | .cons hxy .nil => exact arenaLoop_last n _ k _ _ nodes hxy hnodes hq (hlast _ rfl)
    | .cons (a := x) (b := y) hxy (.cons (a := x') (b := y') (l₁ := q) (l₂ := p) hxy' hqp) =>
      simp only [List.length_cons] at hq hf
      rw [arenaLoop, mergeLoop]
      have hlen : (enqueue { weight := x.weight + x'.weight, seq := 256 + k, node := n + k } q).length = q.length + 1 :=
        (enqueue_perm _ q).length_eq
      have hnew := sameItem_merge k (by omega) hxy hxy' (some (BitVec.ofNat 32 (x.weight + x'.weight)))
      rw [hnodes] at hnew
      refine ih (k + 1) _ _ _ (enqueue_forall₂ hnew (hqp.imp fun _ _ h => h.append _)) ?_ ?_ ?_ ?_ ?_
      · simp [hnodes]; omega
      · omega
      · omega
      · omega
      · intro z hz
        obtain rfl : q = [] := by
          rw [hz] at hlen
          exact List.length_eq_zero_iff.1 (by simpa using hlen.symm)
        obtain rfl := List.singleton_inj.1 hz
        simp [hnodes]

/-- The arena that BUILD's placement gives represents BUILD's tree, its root at the last node placed (R89). -/
theorem buildArena_represents (f : Table Word) (t : HuffTree) (h : buildTree f = .present t) :
    (buildArena f).tree = some t ∧ (buildArena f).nodes.length = 2 * t.numLeaves - 1 ∧
      (buildArena f).root.toNat = 2 * t.numLeaves - 2 := by
  have hsym : t.numLeaves = (presentSymbols f).length := by
    rw [← leaves_length, (buildTree_leaves f t h).length_eq]
  have hn := presentSymbols_length_le f
  have hpos := numLeaves_pos t
  have hheap := (initialHeap_forall₂ f).length_eq.trans (initialQueue_perm f).length_eq
  rw [List.length_map] at hheap
  have hlast : ∀ x, initialHeap f = [x] → x.node + 1 = ((presentSymbols f).map (leafNode f)).length := by
    intro x hx
    have hall := initialHeap_forall₂ f
    rw [hx] at hall hheap
    obtain ⟨_, _, hxy, _, _⟩ := List.forall₂_cons_left_iff.1 hall
    have hlt := holdsTree_lt hxy.tree
    simp only [List.length_map, List.length_singleton] at hlt hheap ⊢
    omega
  obtain ⟨hlen, z, hz, hholds⟩ := arenaLoop_holds (presentSymbols f).length (presentSymbols f).length 0
    (initialHeap f) (initialQueue f) ((presentSymbols f).map (leafNode f)) (initialHeap_forall₂ f) hn
    (by simp) (by omega) (by omega) (by omega) hlast
  have htree : t = z.node := by
    rw [buildTree, hz] at h
    exact (TreeReg.present.inj h).symm
  have hroot : (buildArena f).root.toNat = 2 * (presentSymbols f).length - 2 := by
    show (BitVec.ofNat 9 _).toNat = _
    rw [toNat_ofNat9 (by split <;> omega)]
    split <;> omega
  rw [← hroot, ← htree] at hholds
  rw [hsym]
  exact ⟨arena_tree_of_holdsTree hholds (hsym ▸ hlen), hlen, hroot⟩

/-- Settles O38: the index loop of BUILD follows its tree loop, and pre-order placement fits the 9 bits of a link. -/
theorem arenaRepresentsTree : Obligations.ArenaRepresentsTree := by
  unfold Obligations.ArenaRepresentsTree
  refine ⟨fun s t h hs ht => ?_, fun h hle => ?_⟩
  · have hb : buildTree s.freq = .present h := by
      rw [exec_complete (s := s) rfl] at hs
      cases hs
      exact ht
    have hn := (buildTree_leaves s.freq h hb).length_eq.trans_le (presentSymbols_length_le s.freq)
    obtain ⟨htree, hlen, hroot⟩ := buildArena_represents s.freq h hb
    rw [leaves_length] at hn ⊢
    exact ⟨htree, hlen, by omega, hroot⟩
  · rw [leaves_length] at hle ⊢
    obtain ⟨htree, hlen⟩ := preorderArena_represents h hle
    exact ⟨htree, hlen, rfl⟩

end Sys2Proof.Machine
end

section
/-! PROOF. Host accesses to the window: reads change nothing (R63), accesses that reach nothing (R57, R61), and the bytes
of the buffers while idle (R59, R61). -/

namespace Sys2Proof.Machine

/-! ### Reads have no side effect (R63) -/

theorem step_host_event {s : State} {a : BusAccess} {rest : List Input} (h : s.inputs = .host a :: rest) :
    step s = .next (hostStep a { s with inputs := rest }) := by
  simp only [step, h]

/-- A host read is a read of some target, or falls outside the window (R58). -/
theorem hostStep_read_cases (a : BusAccess) (s : State) (h : a.op = .read) :
    hostStep a s = s ∨ ∃ t, hostStep a s = hostRead t s := by
  unfold hostStep
  cases windowOffset a.addr with
  | none => exact .inl rfl
  | some off =>
    simp only [windowAccess, h]
    exact .inr ⟨_, rfl⟩

/-- A read may advance the number of the next draw, but no buffer's own draw (log entry 8). -/
theorem hostRead_draws_of (t : Target) (s : State) (b : Buffer) : (hostRead t s).draws.of b = s.draws.of b := by
  unfold hostRead
  cases readDraws s <;> cases b <;> rfl

theorem bufByte_hostRead (t : Target) (s : State) (b : Buffer) (i : Nat) :
    (hostRead t s).bufByte b i = s.bufByte b i := by
  rw [State.bufByte, hostRead_draws_of]
  rfl

/-- Settles O16: a read inside the window changes what `hostRead` does, and one outside it changes nothing. -/
theorem readsHaveNoSideEffect : Obligations.ReadsHaveNoSideEffect := by
  unfold Obligations.ReadsHaveNoSideEffect
  intro s a rest hop hin
  refine ⟨_, step_host_event hin, ?_⟩
  rcases hostStep_read_cases a { s with inputs := rest } hop with h | ⟨t, h⟩ <;> rw [h]
  · exact ⟨rfl, fun _ _ => rfl⟩
  · exact ⟨hostRead_frame t _, bufByte_hostRead t _⟩

/-! ### Accesses that reach nothing (R57, R61) -/

/-- The accesses that are not accepted by a buffer window (R61). -/
theorem bufferBytes_eq_none_iff (w : Width) (off : Nat) :
    bufferBytes w off = none ↔ w = .w16 ∨ w = .w64 ∨ w = .w32 ∧ off % 4 ≠ 0 := by
  cases w <;> simp [bufferBytes]

/-- The register window takes aligned 32-bit accesses only (R61). -/
theorem target_reg_not_accepted (off : Nat) (w : Width) (ho : off < 0x1000) (h : w ≠ .w32 ∨ off % 4 ≠ 0) :
    target off w = .none := by
  rw [target, if_pos ho, if_neg (by tauto)]

/-- An access that no buffer window accepts reaches nothing, in the register window too (R61). -/
theorem target_not_accepted (off : Nat) (w : Width) (h : bufferBytes w off = none) : target off w = .none := by
  by_cases ho : off < 0x1000
  · refine target_reg_not_accepted off w ho ?_
    rcases (bufferBytes_eq_none_iff w off).1 h with rfl | rfl | ⟨_, h4⟩
    · exact .inl (by decide)
    · exact .inl (by decide)
    · exact .inr h4
  · rw [target, if_neg ho, h]
    cases bufferAt off <;> rfl

/-- An access to the reserved space between TREE_BUF and IN_BUF reaches nothing (R57). -/
theorem target_hole (off : Nat) (w : Width) (h : 0x1300 ≤ off ∧ off < 0x1000000) : target off w = .none := by
  have hb : bufferAt off = none := by
    rw [bufferAt]
    iterate 4 rw [if_neg (by omega)]
  rw [target, if_neg (by omega), hb]

/-- Settles O22: each such access has no target, where a read returns 0 and a write is ignored. -/
theorem rejectedAccessesDoNothing : Obligations.RejectedAccessesDoNothing := by
  unfold Obligations.RejectedAccessesDoNothing
  intro s off w op rest hin hoff hrej
  have htarget : target off w = .none := by
    rcases hrej with ⟨ho, h⟩ | h | h | h | h | h
    · exact target_reg_not_accepted off w ho h
    · exact target_not_accepted off w ((bufferBytes_eq_none_iff w off).2 (by tauto))
    · exact target_not_accepted off w ((bufferBytes_eq_none_iff w off).2 (.inr (.inr h)))
    · exact target_reserved off w (.inl h)
    · exact target_reserved off w (.inr h)
    · exact target_hole off w h
  refine ⟨_, step_host s off w op rest hoff hin, ?_, ?_⟩
  · rintro rfl
    rw [windowAccess, htarget]
    rfl
  · rintro d rfl
    rw [windowAccess, htarget]
    rfl

/-! ### Buffer writes while idle (R59, R61) -/

theorem hostWriteBuffer_idle (b : Buffer) (i n : Nat) (v : Word) (s : State) (hb : s.status.busy = false)
    (ho : b ≠ .outBuf) : hostWriteBuffer b i n v s = (List.range n).foldl (hostWriteByte b i v) s := by
  simp [hostWriteBuffer, hb, ho]

/-- What an accepted idle write of `n` bytes at byte `i` does: little-endian bytes below the capacity, and nothing
else. -/
structure StoresBytes (b : Buffer) (i n : Nat) (v : Word) (s t : State) : Prop where
  frame : t = { s with mem := t.mem }
  stored : ∀ j, j < n → i + j < b.cap s.caps → t.bufByte b (i + j) = byteOf v j
  kept : ∀ c j, j < c.cap s.caps → c ≠ b ∨ j < i ∨ i + n ≤ j → t.bufByte c j = s.bufByte c j

/-- An accepted write to a writable buffer while idle stores its bytes; the bytes of the other buffers stay, for the
buffers do not meet (R155). -/
theorem storesBytes_hostWriteBuffer (b : Buffer) (i n : Nat) (v : Word) (s : State) (hc : s.caps.wf = true)
    (hb : s.status.busy = false) (ho : b ≠ .outBuf) : StoresBytes b i n v s (hostWriteBuffer b i n v s) := by
  rw [hostWriteBuffer_idle b i n v s hb ho]
  refine ⟨foldl_hostWriteByte_frame b i v _ s, fun j hj hcap => ?_, fun c j hj hout => ?_⟩
  · rw [bufByte_foldl_hostWriteByte, if_pos (by omega)]
    congr 1
    omega
  · rw [bufByte_foldl_hostWriteByte, if_neg]
    rintro ⟨hlo, hhi, hcap⟩
    by_cases hcb : c = b
    · subst hcb
      have := hout.resolve_left (by simp)
      omega
    · exact buffers_disjoint s.caps hc b c (c.base + j - b.base) j (Ne.symm hcb) (by omega) hj (by omega)

theorem byteOf_setWidth_zero (v : Byte) : byteOf (v.setWidth 32) 0 = v := by
  rw [byteOf, BitVec.extractLsb'_setWidth_of_le (by decide), BitVec.extractLsb'_eq_self]

/-- Settles O23: a 32-bit write stores four bytes and an 8-bit write one. -/
theorem idleBufferWritesStoreBytes : Obligations.IdleBufferWritesStoreBytes := by
  unfold Obligations.IdleBufferWritesStoreBytes
  intro s b i rest hc hb ho hi
  obtain ⟨hwin, hbuf⟩ := bufferByte_in_window hc hi
  refine ⟨fun v h4 hin => ?_, fun v hin => ?_⟩
  · obtain ⟨hframe, hstored, hkept⟩ := storesBytes_hostWriteBuffer b i 4 v { s with inputs := rest } hc hb ho
    refine ⟨_, step_wr32 s _ v rest hwin hin, ?_⟩
    rw [target_buffer32 b i hbuf h4]
    exact ⟨hframe, hstored, hkept⟩
  · obtain ⟨hframe, hstored, hkept⟩ :=
      storesBytes_hostWriteBuffer b i 1 (v.setWidth 32) { s with inputs := rest } hc hb ho
    refine ⟨_, step_wr8 s _ v rest hwin hin, ?_⟩
    rw [target_buffer8 b i hbuf]
    refine ⟨hframe, (hstored 0 (by decide) hi).trans (byteOf_setWidth_zero v), fun c j hj hne => hkept c j hj ?_⟩
    rcases hne with hne | hne
    · exact .inl hne
    · exact .inr (by omega)

/-! ### Bytes the host cannot write (R57, R61) -/

/-- Bytes at and past the capacity are not stored (R61). -/
theorem foldl_hostWriteByte_past (b : Buffer) (i : Nat) (v : Word) (js : List Nat) (s : State)
    (hi : b.cap s.caps ≤ i) : js.foldl (hostWriteByte b i v) s = s := by
  induction js with
  | nil => rfl
  | cons j js ih =>
    have hj : hostWriteByte b i v s j = s := by rw [hostWriteByte, if_neg (by omega)]
    rw [List.foldl_cons, hj, ih]

/-- An idle write to OUT_BUF, or at or past a buffer's capacity in its window, changes nothing (R57, R61). -/
theorem hostWrite_idle_readOnly (b : Buffer) (i : Nat) (w : Width) (v : Word) (s : State) (hb : s.status.busy = false)
    (hro : b = .outBuf ∨ b.cap s.caps ≤ i) (hwin : i < 2 ^ 24) (ht : b = .treeBuf → i < 0x1000000 - 0x1000) :
    hostWrite (target (b.base + i) w) v s = s := by
  rcases target_window b i w hwin ht with h | ⟨n, h⟩ <;> rw [h]
  · rfl
  · rcases hostWriteBuffer_cases b i n v s with ⟨h1, _, _⟩ | ⟨_, _, hr⟩ | ⟨_, _, hr⟩ | ⟨_, ho, hr⟩
    · simp [hb] at h1
    · exact hr
    · exact hr
    · exact hr.trans (foldl_hostWriteByte_past b i v _ s (hro.resolve_left ho))

/-- Settles O24: whatever of the window such a write reaches, it stores no byte. -/
theorem readOnlyBytesIgnoreWrites : Obligations.ReadOnlyBytesIgnoreWrites := by
  unfold Obligations.ReadOnlyBytesIgnoreWrites
  intro s b i rest _ hb hwin hro ht
  have hoff := base_add_lt_windowSize b i hwin
  refine ⟨fun v hin => ?_, fun v hin => ?_⟩
  · rw [step_wr32 s _ v rest hoff hin, hostWrite_idle_readOnly b i .w32 v { s with inputs := rest } hb hro hwin ht]
  · rw [step_wr8 s _ v rest hoff hin, hostWrite_idle_readOnly b i .w8 _ { s with inputs := rest } hb hro hwin ht]

/-! ### Buffer reads while idle (R57, R59, R61) -/

/-- An offset of a buffer's window, that of TREE_BUF counted with the reserved space above it, is in the buffer's own
window or in that space (R57). -/
theorem window_or_hole (b : Buffer) (i : Nat) (hi : i < 2 ^ 24) (ht : b = .treeBuf → i < 0x1000000 - 0x1000) :
    i < (if b = .treeBuf then treeBufSize else 2 ^ 24) ∨
      b = .treeBuf ∧ treeBufSize ≤ i ∧ 0x1300 ≤ b.base + i ∧ b.base + i < 0x1000000 := by
  by_cases hb : b = .treeBuf
  · subst hb
    have := ht rfl
    simp only [if_true, treeBufSize, Buffer.base, true_and]
    omega
  · rw [if_neg hb]
    exact .inl hi

theorem bufferDrawn_idle (s : State) (b : Buffer) (hb : s.status.busy = false) : bufferDrawn s b = false := by
  rw [bufferDrawn, hb, Bool.false_and]

/-- The reserved space above TREE_BUF is past its capacity, so a byte there counts as 0 (R57). -/
theorem hostReadByte_hole (d : Word) (s : State) (i j : Nat) (hi : treeBufSize ≤ i) :
    hostReadByte d s .treeBuf i j = 0 := by
  rw [hostReadByte, if_neg]
  simp only [Buffer.cap]
  omega

/-- Byte `j` of what an aligned 32-bit read in a buffer's window returns (R59, R61). -/
theorem readValue_window32 (d : Word) (s : State) (b : Buffer) (i j : Nat) (hi : i < 2 ^ 24)
    (ht : b = .treeBuf → i < 0x1000000 - 0x1000) (h4 : i % 4 = 0) (hj : j < 4) :
    (readValue d s (target (b.base + i) .w32)).extractLsb' (8 * j) 8 = hostReadByte d s b i j := by
  rcases window_or_hole b i hi ht with hw | ⟨rfl, hcap, hhole⟩
  · rw [target_buffer32 b i hw h4]
    exact wordOfBytes_extract _ j hj
  · rw [target_hole _ .w32 hhole, hostReadByte_hole d s i j hcap]
    exact BitVec.extractLsb'_zero

/-- What an 8-bit read in a buffer's window returns, zero-extended (R61; log entry 15). -/
theorem readValue_window8 (d : Word) (s : State) (b : Buffer) (i : Nat) (hi : i < 2 ^ 24)
    (ht : b = .treeBuf → i < 0x1000000 - 0x1000) :
    (readValue d s (target (b.base + i) .w8)).toNat = (hostReadByte d s b i 0).toNat := by
  rcases window_or_hole b i hi ht with hw | ⟨rfl, hcap, hhole⟩
  · rw [target_buffer8 b i hw]
    exact wordOfBytes_single _
  · rw [target_hole _ .w8 hhole, hostReadByte_hole d s i 0 hcap]
    rfl

/-- Settles O25: an idle read returns the bytes as they are, in the reserved space above TREE_BUF too. -/
theorem idleBufferReads : Obligations.IdleBufferReads := by
  unfold Obligations.IdleBufferReads
  intro s b i rest _ hb hi ht
  have hoff := base_add_lt_windowSize b i hi
  have hidle := bufferDrawn_idle { s with inputs := rest } b hb
  refine ⟨fun h4 hin => ⟨_, step_rd32 s _ rest hoff hin, fun j hj => ?_⟩,
    fun hin => ⟨_, step_rd8 s _ rest hoff hin, ?_⟩⟩
  · exact (readValue_window32 _ _ b i j hi ht h4 hj).trans (hostReadByte_of_not_drawn _ _ b i j hidle)
  · refine (readValue_window8 _ _ b i hi ht).trans ?_
    rw [hostReadByte_of_not_drawn _ _ b i 0 hidle, apply_ite BitVec.toNat]
    rfl

end Sys2Proof.Machine
end

section
/-! PROOF. The command word (30_encoding.md): which words select a command (R75), and how every other word is illegal
(R76). -/

namespace Sys2Proof.Machine

/-! ### The two fields (R72) -/

theorem opcodeField_toNat (w : Word) : (opcodeField w).toNat = w.toNat % 2 ^ 8 := by
  rw [opcodeField, BitVec.extractLsb'_toNat, Nat.shiftRight_zero]

theorem reservedField_toNat (w : Word) : (reservedField w).toNat = w.toNat / 2 ^ 8 := by
  have hlt : w.toNat / 2 ^ 8 < 2 ^ 24 := by omega
  rw [reservedField, BitVec.extractLsb'_toNat, Nat.shiftRight_eq_div_pow, Nat.mod_eq_of_lt hlt]

theorem reservedField_eq_zero_iff (w : Word) : reservedField w = 0#24 ↔ w.toNat / 2 ^ 8 = 0 := by
  rw [← BitVec.toNat_inj, reservedField_toNat]
  rfl

/-! ### The opcode table (R75) -/

theorem instrOfOpcode_opcode (i : Instr) : instrOfOpcode (opcode i) = some i := by
  cases i <;> rfl

theorem opcode_of_instrOfOpcode {op : Byte} {i : Instr} (h : instrOfOpcode op = some i) : opcode i = op := by
  unfold instrOfOpcode at h
  split at h
  case h_11 => cases h
  all_goals
    next hop =>
      cases h
      exact (BitVec.eq_of_toNat_eq hop).symm

theorem instrOfOpcode_eq_some_iff (op : Byte) (i : Instr) :
    instrOfOpcode op = some i ↔ op.toNat = (opcode i).toNat := by
  constructor
  · intro h
    rw [opcode_of_instrOfOpcode h]
  · intro h
    rw [BitVec.eq_of_toNat_eq h, instrOfOpcode_opcode]

/-- The rows of the table are the opcodes 0x00 to 0x09. -/
theorem instrOfOpcode_eq_none_iff (op : Byte) : instrOfOpcode op = none ↔ 0x0A ≤ op.toNat := by
  unfold instrOfOpcode
  split
  case h_11 =>
    refine iff_of_true rfl ?_
    simp only [imp_false] at *
    omega
  all_goals simp [*]

/-! ### The three outcomes of the decoder (R75, R76, R128) -/

theorem decode_cases (w : Word) :
    (instrOfOpcode (opcodeField w) = none ∧ decode w = .error .unknownOpcode) ∨
    (∃ i, instrOfOpcode (opcodeField w) = some i ∧ reservedField w ≠ 0#24 ∧ decode w = .error .reservedBits) ∨
    (∃ i, instrOfOpcode (opcodeField w) = some i ∧ reservedField w = 0#24 ∧ decode w = .ok i) := by
  rw [decode]
  cases instrOfOpcode (opcodeField w) with
  | none => exact .inl ⟨rfl, rfl⟩
  | some i =>
    by_cases hr : reservedField w = 0#24
    · exact .inr (.inr ⟨i, rfl, hr, if_pos hr⟩)
    · exact .inr (.inl ⟨i, rfl, hr, if_neg hr⟩)

theorem decode_eq_ok_iff (w : Word) (i : Instr) :
    decode w = .ok i ↔ instrOfOpcode (opcodeField w) = some i ∧ reservedField w = 0#24 := by
  rcases decode_cases w with ⟨hi, hd⟩ | ⟨j, hi, hr, hd⟩ | ⟨j, hi, hr, hd⟩
  · simp [hi, hd]
  · simp [hi, hd, hr]
  · simp [hi, hd, hr]

theorem decode_eq_unknownOpcode_iff (w : Word) :
    decode w = .error .unknownOpcode ↔ instrOfOpcode (opcodeField w) = none := by
  rcases decode_cases w with ⟨hi, hd⟩ | ⟨j, hi, _, hd⟩ | ⟨j, hi, _, hd⟩ <;> simp [hi, hd]

theorem decode_eq_reservedBits_iff (w : Word) :
    decode w = .error .reservedBits ↔ instrOfOpcode (opcodeField w) ≠ none ∧ reservedField w ≠ 0#24 := by
  rcases decode_cases w with ⟨hi, hd⟩ | ⟨j, hi, hr, hd⟩ | ⟨j, hi, hr, hd⟩
  · simp [hi, hd]
  · simp [hi, hd, hr]
  · simp [hi, hd, hr]

/-! ### The statements -/

/-- Settles O3: the decoder answers a command exactly where the table has the opcode and RSV is 0. -/
theorem wordSelectsCommandExactly : Obligations.WordSelectsCommandExactly := by
  unfold Obligations.WordSelectsCommandExactly
  intro w
  refine ⟨fun i => ?_, by decide⟩
  rw [decode_eq_ok_iff, instrOfOpcode_eq_some_iff, opcodeField_toNat, reservedField_eq_zero_iff]

/-- Settles O4: the decoder rejects where the table has no row for the opcode, and else where RSV is not 0. -/
theorem otherWordsIllegal : Obligations.OtherWordsIllegal := by
  unfold Obligations.OtherWordsIllegal
  intro w
  refine ⟨?_, ?_, rfl, rfl⟩
  · rw [decode_eq_unknownOpcode_iff, instrOfOpcode_eq_none_iff, opcodeField_toNat]
  · rw [decode_eq_reservedBits_iff, Ne, instrOfOpcode_eq_none_iff, opcodeField_toNat, Ne, reservedField_eq_zero_iff,
      Nat.not_le, Nat.lt_succ_iff]

end Sys2Proof.Machine
end

section
/-! PROOF. COUNT (40_frequency.md): FREQ becomes the number of occurrences of each byte value (R84, R85). -/

namespace Sys2Proof.Machine

@[simp] theorem inBytes_length (s : State) : (inBytes s).length = s.inLen.toNat := readBuf_length _ _ _

theorem readBuf_count (s : State) (buf : Buffer) (n : Nat) (b : Byte) :
    (s.readBuf buf n).count b = (List.range n).countP fun i => decide (s.bufByte buf i = b) := by
  rw [State.readBuf, List.count, List.countP_map]
  rfl

/-- An input in range is too short to overflow a 32-bit count (R11, R84). -/
theorem inBytes_length_lt {s : State} (hcaps : s.caps.wf = true) (hlen : s.inLen.toNat ≤ s.caps.maxIn) :
    (inBytes s).length < 2 ^ 32 := by
  have hmax := (caps_bounds hcaps).2.1
  rw [inBytes_length]
  exact hlen.trans_lt (by omega)

/-- How COUNT ends on an input in range (R84, R125). -/
theorem exec_count_of_inRange {s : State} (hlen : s.inLen.toNat ≤ s.caps.maxIn) :
    exec .count s = .next (endsWell { s with freq := countTable (inBytes s) }) := by
  rcases runCount_cases s with ⟨hgt, _⟩ | ⟨_, hrun⟩
  · exact absurd hlen (Nat.not_le.mpr hgt)
  · exact exec_complete hrun

/-- Settles O33: COUNT's loop counts the bytes of its operand, and an input in range overflows no count. -/
theorem countCountsOccurrences : Obligations.CountCountsOccurrences := by
  unfold Obligations.CountCountsOccurrences
  intro s hcaps hlen
  have hshort := inBytes_length_lt hcaps hlen
  refine ⟨_, exec_count_of_inRange hlen, rfl, fun b => ?_, ?_⟩
  · exact (countTable_toNat _ hshort b).trans (readBuf_count s .inBuf _ b)
  · exact (freqTotal_countTable _ hshort).trans (inBytes_length s)

end Sys2Proof.Machine
end

section
/-! PROOF. BUILD (41_tree_builder.md): the shape of its tree (R91), the merges that give it (R86 to R88), and why no strict
tree on the present symbols is cheaper (R92, R93).

The cheapness is proved on placements, lists of (weight, depth) pairs whose depths meet Kraft's inequality. A strict tree
gives such a placement of its leaves, and merging the two least weights of a placement gives one of the merged queue
that costs less by the merged weight. So no tree has to be rearranged. -/

namespace Sys2Proof.Machine

/-! ### How BUILD ends (R88) -/

theorem exec_build_eq (s : State) :
    exec .build s = .next (endsWell { s with
      status := { s.status with codesValid := false }
      tree := buildTree s.freq
      leafCount := BitVec.ofNat 9 (presentSymbols s.freq).length
      nodeCount := BitVec.ofNat 10 (2 * (presentSymbols s.freq).length - 1) }) :=
  exec_complete rfl

theorem tree_of_exec_build {s t : State} (h : exec .build s = .next t) : t.tree = buildTree s.freq := by
  rw [exec_build_eq] at h
  cases h
  rfl

theorem presentSymbols_eq_nil {f : Table Word} (h : ∀ b, tableGet f b = 0) : presentSymbols f = [] :=
  List.eq_nil_iff_forall_not_mem.2 fun b hb => (mem_presentSymbols f b).1 hb (h b)

theorem presentSymbols_ne_nil {f : Table Word} (h : ∃ b, tableGet f b ≠ 0) : presentSymbols f ≠ [] := by
  obtain ⟨b, hb⟩ := h
  exact List.ne_nil_of_mem ((mem_presentSymbols f b).2 hb)

/-- The leaves of a tree are the present symbols, each once, exactly where they are a permutation of them. -/
theorem perm_presentSymbols {f : Table Word} {t : HuffTree} (hn : t.leaves.Nodup)
    (hm : ∀ b, b ∈ t.leaves ↔ tableGet f b ≠ 0) : t.leaves.Perm (presentSymbols f) :=
  (List.perm_ext_iff_of_nodup hn (presentSymbols_nodup f)).2 fun b => (hm b).trans (mem_presentSymbols f b).symm

/-! ### Shape and merges (R87, R88, R91) -/

/-- In a tree of two leaves or more every leaf stands below the root (R91). -/
theorem paths_ne_root {t : HuffTree} (h : 2 ≤ t.numLeaves) : ∀ c ∈ t.paths, 1 ≤ c.2.length := by
  cases t with
  | leaf b => simp [HuffTree.numLeaves] at h
  | node l r =>
    simp only [HuffTree.paths, List.mem_append, List.mem_map]
    rintro c (⟨d, _, rfl⟩ | ⟨d, _, rfl⟩) <;> simp

/-- Settles O34: the merges keep the leaves, so the tree's shape is that of any strict tree on the present symbols. -/
theorem buildTreeShape : Obligations.BuildTreeShape := by
  unfold Obligations.BuildTreeShape
  refine fun s => ⟨fun h0 => ?_, fun h0 => ?_⟩
  · have hnil := presentSymbols_eq_nil h0
    rw [exec_build_eq, buildTree_nil s.freq hnil, hnil]
    rfl
  · obtain ⟨h, hb, _⟩ := buildTree_present s.freq (presentSymbols_ne_nil h0)
    have hperm := buildTree_leaves s.freq h hb
    have hlen : h.numLeaves = (presentSymbols s.freq).length := by rw [← leaves_length, hperm.length_eq]
    have hle := presentSymbols_length_le s.freq
    have hdepth := depth_lt_numLeaves h
    rw [exec_build_eq, hb]
    refine ⟨_, h, rfl, rfl, rfl, hperm.nodup_iff.2 (presentSymbols_nodup _),
      fun b => hperm.mem_iff.trans (mem_presentSymbols _ b), ?_⟩
    rw [leaves_length]
    refine ⟨?_, ?_, numNodes_eq h, by omega, by omega, paths_ne_root⟩
    · show (BitVec.ofNat 9 _).toNat = _
      rw [BitVec.toNat_ofNat, ← hlen]
      omega
    · show (BitVec.ofNat 10 _).toNat = _
      rw [BitVec.toNat_ofNat, ← hlen]
      omega

/-- Settles O35: the loop on the sorted queue merges the two least keys at each turn. -/
theorem buildMergesLeastKeys : Obligations.BuildMergesLeastKeys := by
  unfold Obligations.BuildMergesLeastKeys
  intro s h0
  obtain ⟨h, hb, hm⟩ := buildTree_present s.freq (presentSymbols_ne_nil h0)
  exact ⟨_, h, exec_build_eq s, hb, hm⟩

/-! ### The cost of a tree, level by level (R92) -/

/-- The weight of a tree: the sum of its leaves' counts (R86). -/
def HuffTree.total (f : Table Word) (t : HuffTree) : Nat := (t.leaves.map fun b => (tableGet f b).toNat).sum

@[simp] theorem total_leaf (f : Table Word) (b : Byte) : (HuffTree.leaf b).total f = (tableGet f b).toNat := by
  simp [HuffTree.total, HuffTree.leaves]

@[simp] theorem total_node (f : Table Word) (l r : HuffTree) :
    (HuffTree.node l r).total f = l.total f + r.total f := by
  simp [HuffTree.total, HuffTree.leaves]

@[simp] theorem cost_leaf (f : Table Word) (b : Byte) : (HuffTree.leaf b).cost f = 0 := by
  simp [HuffTree.cost, HuffTree.paths]

/-- One level deeper, each leaf costs its count more. -/
theorem cost_one_deeper (f : Table Word) (t : HuffTree) :
    (t.paths.map fun c => (tableGet f c.1).toNat * (c.2.length + 1)).sum = t.cost f + t.total f := by
  simp only [Nat.mul_succ, List.sum_map_add, HuffTree.cost, HuffTree.total, ← paths_leaves, List.map_map]
  rfl

@[simp] theorem cost_node (f : Table Word) (l r : HuffTree) :
    (HuffTree.node l r).cost f = (l.cost f + l.total f) + (r.cost f + r.total f) := by
  rw [← cost_one_deeper, ← cost_one_deeper]
  simp [HuffTree.cost, HuffTree.paths, Function.comp_def]

/-! ### Placements: weights at depths that meet Kraft's inequality -/

/-- What weights at depths cost, each pair being (weight, depth). -/
def placedCost (p : List (Nat × Nat)) : Nat := (p.map fun c => c.1 * c.2).sum

@[simp] theorem placedCost_cons (w d : Nat) (p : List (Nat × Nat)) :
    placedCost ((w, d) :: p) = w * d + placedCost p := rfl

theorem placedCost_perm {p q : List (Nat × Nat)} (h : p.Perm q) : placedCost p = placedCost q := (h.map _).sum_eq

/-- The share of the `2 ^ D` places at level `D` that leaves at the given depths take. -/
def kraftSum (D : Nat) (ds : List Nat) : Nat := (ds.map fun d => 2 ^ (D - d)).sum

@[simp] theorem kraftSum_cons (D d : Nat) (ds : List Nat) : kraftSum D (d :: ds) = 2 ^ (D - d) + kraftSum D ds := rfl

theorem kraftSum_perm {D : Nat} {ds es : List Nat} (h : ds.Perm es) : kraftSum D ds = kraftSum D es :=
  (h.map _).sum_eq

/-- Depths up to `D` that meet Kraft's inequality. -/
def Fits (D : Nat) (ds : List Nat) : Prop := (∀ d ∈ ds, d ≤ D) ∧ kraftSum D ds ≤ 2 ^ D

theorem Fits.perm {D : Nat} {ds es : List Nat} (h : Fits D ds) (hp : ds.Perm es) : Fits D es :=
  ⟨fun d hd => h.1 d (hp.mem_iff.2 hd), kraftSum_perm hp ▸ h.2⟩

/-- The leaves of a tree of depth at most `D` take all places at level `D`. -/
theorem kraftSum_paths (t : HuffTree) (D : Nat) (h : t.depth ≤ D) :
    kraftSum D (t.paths.map fun c => c.2.length) = 2 ^ D := by
  induction t generalizing D with
  | leaf b => simp [HuffTree.paths, kraftSum]
  | node l r ihl ihr =>
    simp only [HuffTree.depth] at h
    obtain ⟨E, rfl⟩ : ∃ E, D = E + 1 := ⟨D - 1, by omega⟩
    have hl := ihl E (by omega)
    have hr := ihr E (by omega)
    simp only [kraftSum, List.map_map, Function.comp_def] at hl hr
    simp [kraftSum, HuffTree.paths, Function.comp_def, hl, hr, pow_succ, Nat.mul_two]

theorem fits_paths (t : HuffTree) : Fits t.depth (t.paths.map fun c => c.2.length) := by
  refine ⟨fun d hd => ?_, (kraftSum_paths t _ le_rfl).le⟩
  obtain ⟨c, hc, rfl⟩ := List.mem_map.1 hd
  exact paths_length_le_depth t c hc

/-- At most `2 ^ D` leaves can all stand at depth `D`. -/
theorem fits_replicate {D n : Nat} (h : n ≤ 2 ^ D) : Fits D (List.replicate n D) :=
  ⟨fun _ hd => (List.eq_of_mem_replicate hd).le, by simpa [kraftSum] using h⟩

/-! ### Merging the two least weights of a placement -/

/-- The exchange: the least weight may take the greatest depth, and the cost does not rise. -/
theorem leastWeight_deepest (w d : Nat) (p : List (Nat × Nat)) (hw : ∀ v ∈ p.map Prod.fst, w ≤ v) :
    ∃ e q, q.map Prod.fst = p.map Prod.fst ∧ (d :: p.map Prod.snd).Perm (e :: q.map Prod.snd) ∧
      (∀ g ∈ q.map Prod.snd, g ≤ e) ∧ placedCost ((w, e) :: q) ≤ placedCost ((w, d) :: p) := by
  induction p with
  | nil => exact ⟨d, [], rfl, .refl _, by simp, le_rfl⟩
  | cons c p ih =>
    obtain ⟨v, g⟩ := c
    simp only [List.map_cons, List.forall_mem_cons] at hw ⊢
    obtain ⟨hwv, hw⟩ := hw
    obtain ⟨e, q, hfst, hsnd, hmax, hcost⟩ := ih hw
    have hperm : (d :: g :: p.map Prod.snd).Perm (g :: e :: q.map Prod.snd) := (List.Perm.swap ..).trans (hsnd.cons g)
    simp only [placedCost_cons] at hcost ⊢
    rcases le_total g e with hge | heg
    · refine ⟨e, (v, g) :: q, by simp [hfst], hperm.trans (.swap ..), List.forall_mem_cons.2 ⟨hge, hmax⟩, ?_⟩
      rw [placedCost_cons]
      omega
    · refine ⟨g, (v, e) :: q, by simp [hfst], hperm,
        List.forall_mem_cons.2 ⟨heg, fun c hc => (hmax c hc).trans heg⟩, ?_⟩
      have hswap : w * g + v * e ≤ w * e + v * g := mul_add_mul_le_mul_add_mul hwv heg
      rw [placedCost_cons]
      omega

/-- A power of 2 that divides every term of a sum divides the sum. -/
theorem pow_dvd_kraftSum {D m : Nat} {ds : List Nat} (h : ∀ d ∈ ds, d ≤ m) : 2 ^ (D - m) ∣ kraftSum D ds := by
  refine List.dvd_sum (l := ds.map fun d => 2 ^ (D - d)) fun x hx => ?_
  obtain ⟨d, hd, rfl⟩ := List.mem_map.1 hx
  exact pow_dvd_pow 2 (Nat.sub_le_sub_left (h d hd) D)

/-- The deepest leaf may rise to the level of the next deepest: all other leaves take places in blocks of that level, so
the block it stands in is its own. -/
theorem Fits.raise_deepest {D d m : Nat} {ds : List Nat} (h : Fits D (d :: m :: ds)) (hm : ∀ e ∈ ds, e ≤ m) :
    Fits D (m :: m :: ds) := by
  obtain ⟨hle, hsum⟩ := h
  simp only [List.forall_mem_cons] at hle
  obtain ⟨_, hmD, hds⟩ := hle
  refine ⟨by simpa [hmD] using hds, ?_⟩
  rw [kraftSum_cons] at hsum ⊢
  have hrest : kraftSum D (m :: ds) < 2 ^ D := by
    have := Nat.two_pow_pos (D - d)
    omega
  have hdvd : 2 ^ (D - m) ∣ 2 ^ D - kraftSum D (m :: ds) :=
    Nat.dvd_sub (pow_dvd_pow 2 (Nat.sub_le D m)) (pow_dvd_kraftSum (by simpa using hm))
  have := Nat.le_of_dvd (by omega) hdvd
  omega

/-- Two leaves of one level make room for one of the level above. -/
theorem Fits.merge {D m : Nat} {ds : List Nat} (h : Fits D (m :: m :: ds)) : ∃ e, m = e + 1 ∧ Fits D (e :: ds) := by
  obtain ⟨hle, hsum⟩ := h
  simp only [List.forall_mem_cons] at hle
  obtain ⟨hmD, _, hds⟩ := hle
  simp only [kraftSum_cons] at hsum
  cases m with
  | zero =>
    have := Nat.two_pow_pos D
    rw [Nat.sub_zero] at hsum
    omega
  | succ e =>
    refine ⟨e, rfl, ?_, ?_⟩
    · simp only [List.forall_mem_cons]
      exact ⟨by omega, hds⟩
    · have hpow : 2 ^ (D - e) = 2 ^ (D - (e + 1)) + 2 ^ (D - (e + 1)) := by
        rw [← Nat.two_mul, ← pow_succ']
        congr 1
        omega
      rw [kraftSum_cons]
      omega

/-- The step of Huffman's theorem: a placement of a queue with least weights `a` and `b` gives one of the queue with `a`
and `b` merged, which is cheaper by at least the merged weight (R92). -/
theorem placement_merge {D a b da db : Nat} {p : List (Nat × Nat)} (hab : a ≤ b) (hb : ∀ v ∈ p.map Prod.fst, b ≤ v)
    (hfit : Fits D (da :: db :: p.map Prod.snd)) :
    ∃ e q, q.map Prod.fst = p.map Prod.fst ∧ Fits D (e :: q.map Prod.snd) ∧
      placedCost ((a + b, e) :: q) + (a + b) ≤ placedCost ((a, da) :: (b, db) :: p) := by
  obtain ⟨d₁, p₁, hfst₁, hsnd₁, hmax₁, hcost₁⟩ := leastWeight_deepest a da ((b, db) :: p)
    (List.forall_mem_cons.2 ⟨hab, fun v hv => hab.trans (hb v hv)⟩)
  obtain ⟨⟨b', db'⟩, p₂, rfl⟩ : ∃ c q, p₁ = c :: q := List.exists_cons_of_ne_nil (by rintro rfl; simp at hfst₁)
  simp only [List.map_cons, List.cons.injEq] at hfst₁ hsnd₁ hmax₁
  obtain ⟨rfl, hfst₂⟩ := hfst₁
  obtain ⟨d₂, q, hfst, hsnd₂, hmax₂, hcost₂⟩ := leastWeight_deepest b' db' p₂ (hfst₂ ▸ hb)
  have hle : d₂ ≤ d₁ := hmax₁ d₂ (hsnd₂.mem_iff.2 List.mem_cons_self)
  obtain ⟨e, rfl, hfit'⟩ := ((hfit.perm (hsnd₁.trans (hsnd₂.cons d₁))).raise_deepest hmax₂).merge
  refine ⟨e, q, hfst.trans hfst₂, hfit', ?_⟩
  have hrise : a * (e + 1) ≤ a * d₁ := Nat.mul_le_mul_left a hle
  simp only [placedCost_cons, Nat.mul_succ, Nat.add_mul] at hcost₁ hcost₂ hrise ⊢
  omega

/-! ### Huffman's theorem (R92) -/

/-- A placement of a weight and others has the weight at some depth. -/
theorem exists_depth_of_weight {p : List (Nat × Nat)} {w : Nat} {ws : List Nat} (h : (p.map Prod.fst).Perm (w :: ws)) :
    ∃ d p', p.Perm ((w, d) :: p') ∧ (p'.map Prod.fst).Perm ws := by
  obtain ⟨⟨_, d⟩, hc, rfl⟩ := List.mem_map.1 (h.mem_iff.2 List.mem_cons_self)
  have hp := List.perm_cons_erase hc
  exact ⟨d, _, hp, List.Perm.cons_inv ((hp.map Prod.fst).symm.trans h)⟩

theorem weight_le_of_keyLt {x y : QueueItem HuffTree} (h : x.keyLt y = true) : x.weight ≤ y.weight := by
  rw [keyLt_iff] at h
  omega

/-- Greedy merging of a queue whose weights are those of its trees gives a tree that costs no more than the queue's trees
put at the depths of any placement of their weights. -/
theorem mergesTo_cost_le {f : Table Word} {k D : Nat} {q : List (QueueItem HuffTree)} {t : HuffTree}
    (hm : MergesTo k q t) (hq : ∀ x ∈ q, x.weight = x.node.total f) {p : List (Nat × Nat)}
    (hp : (p.map Prod.fst).Perm (q.map QueueItem.weight)) (hfit : Fits D (p.map Prod.snd)) :
    t.cost f ≤ placedCost p + (q.map fun x => x.node.cost f).sum := by
  induction hm generalizing p with
  | done x => simp
  | @more k q q' t h1 _ ih =>
    obtain ⟨x, y, rest, hxy, hx, hy, hq'⟩ := h1
    obtain ⟨hwx, hwy, hwrest⟩ : x.weight = x.node.total f ∧ y.weight = y.node.total f ∧
        ∀ z ∈ rest, z.weight = z.node.total f := by
      simpa using fun z hz => hq z (hxy.mem_iff.2 hz)
    obtain ⟨da, p₁, hp₁, hfst₁⟩ := exists_depth_of_weight (hp.trans (hxy.map _))
    obtain ⟨db, p₂, hp₂, hfst₂⟩ := exists_depth_of_weight hfst₁
    have hpp : p.Perm ((x.weight, da) :: (y.weight, db) :: p₂) := hp₁.trans (hp₂.cons _)
    have hleast : ∀ v ∈ p₂.map Prod.fst, y.weight ≤ v := by
      intro v hv
      obtain ⟨z, hz, rfl⟩ := List.mem_map.1 (hfst₂.mem_iff.1 hv)
      exact weight_le_of_keyLt (hy z hz)
    obtain ⟨e, r, hr, hfit', hcost⟩ := placement_merge (da := da) (db := db)
      (weight_le_of_keyLt (hx y List.mem_cons_self)) hleast (hfit.perm (hpp.map Prod.snd))
    have hih := ih (p := (x.weight + y.weight, e) :: r)
      (fun z hz => by
        rcases List.mem_cons.1 (hq'.mem_iff.1 hz) with rfl | hz
        · simp [hwx, hwy, Nat.add_comm]
        · exact hwrest z hz)
      (((hr ▸ hfst₂).cons _).trans (hq'.map QueueItem.weight).symm) hfit'
    rw [(hq'.map _).sum_eq] at hih
    rw [(hxy.map _).sum_eq, placedCost_perm hpp]
    simp only [List.map_cons, List.sum_cons, cost_node, ← hwx, ← hwy] at hih ⊢
    omega

/-- BUILD's tree costs no more than any placement of the present symbols' counts (R92). -/
theorem buildTree_cost_le {f : Table Word} {t : HuffTree} (h : buildTree f = .present t) {D : Nat}
    {p : List (Nat × Nat)} (hp : (p.map Prod.fst).Perm ((presentSymbols f).map fun b => (tableGet f b).toNat))
    (hfit : Fits D (p.map Prod.snd)) : t.cost f ≤ placedCost p := by
  obtain ⟨u, hu, hm⟩ := buildTree_present f (fun e => by simp [buildTree_nil f e] at h)
  obtain rfl : t = u := TreeReg.present.inj (h.symm.trans hu)
  have hle := mergesTo_cost_le (f := f) hm (by simp [leafItem]) (by simpa [leafItem, Function.comp_def] using hp) hfit
  simpa [leafItem, Function.comp_def] using hle

/-- Settles O36: the other tree's leaves at their depths are a placement of the counts. -/
theorem buildIsOptimal : Obligations.BuildIsOptimal := by
  unfold Obligations.BuildIsOptimal
  intro s t h u hs ht hn hm
  have hb : buildTree s.freq = .present h := (tree_of_exec_build hs).symm.trans ht
  have hle := buildTree_cost_le (p := u.paths.map fun c => ((tableGet s.freq c.1).toNat, c.2.length)) hb
    (by simpa [← paths_leaves, Function.comp_def] using
      (perm_presentSymbols hn hm).map fun b => (tableGet s.freq b).toNat)
    (by simpa [Function.comp_def] using fits_paths u)
  simpa [placedCost, HuffTree.cost, Function.comp_def] using hle

/-! ### The bound of 8 bits per byte (R93) -/

/-- A sum over the symbols, weighted by their counts, is the sum over the present ones. -/
theorem sum_over_present (f : Table Word) (g : Byte → Nat) :
    (allSymbols.map fun b => (tableGet f b).toNat * g b).sum =
      ((presentSymbols f).map fun b => (tableGet f b).toNat * g b).sum := by
  rw [presentSymbols]
  generalize allSymbols = l
  induction l with
  | nil => rfl
  | cons b l ih =>
    rw [List.map_cons, List.sum_cons, ih]
    by_cases hb : tableGet f b = 0
    · rw [List.filter_cons_of_neg (by simpa using hb), hb]
      simp
    · rw [List.filter_cons_of_pos (by simpa using hb), List.map_cons, List.sum_cons]

theorem sum_counts_times (f : Table Word) (n : Nat) :
    (allSymbols.map fun b => (tableGet f b).toNat * n).sum = n * freqTotal f := by
  rw [List.sum_map_mul_right, freqTotal, Nat.mul_comm]

/-- BUILD's tree costs at most 8 per input byte: 256 leaves have room at depth 8 (R93). -/
theorem buildTree_cost_le_eight {f : Table Word} {t : HuffTree} (h : buildTree f = .present t) :
    t.cost f ≤ 8 * freqTotal f := by
  rw [← sum_counts_times, sum_over_present]
  simpa [placedCost, Function.comp_def] using
    buildTree_cost_le (D := 8) (p := (presentSymbols f).map fun b => ((tableGet f b).toNat, 8)) h
      (by simp [Function.comp_def])
      (by simpa [Function.comp_def] using fits_replicate (presentSymbols_length_le f))

/-- Codes of at most 8 bits spend at most 8 bits on each counted byte. -/
theorem codeBits_le_of_length_le (f : Table Word) (codes : Table Bits) (h : ∀ b, (tableGet codes b).length ≤ 8) :
    (allSymbols.map fun b => (tableGet f b).toNat * (tableGet codes b).length).sum ≤ 8 * freqTotal f := by
  rw [← sum_counts_times]
  exact List.sum_le_sum fun b _ => Nat.mul_le_mul_left _ (h b)

/-- With two leaves or more, the codes of BUILD's tree spend on the counted bytes what the tree costs (R93). -/
theorem codeBits_eq_cost {f : Table Word} {l r : HuffTree} (h : buildTree f = .present (.node l r)) :
    (allSymbols.map fun b => (tableGet f b).toNat * (tableGet (genOfTree (.node l r)).codes b).length).sum =
      (HuffTree.node l r).cost f := by
  have hperm := buildTree_leaves f _ h
  have hn := hperm.nodup_iff.2 (presentSymbols_nodup f)
  rw [sum_over_present, ← (hperm.map _).sum_eq, ← paths_leaves, List.map_map, HuffTree.cost]
  congr 1
  refine List.map_congr_left fun c hc => ?_
  simp only [Function.comp_apply, genOfTree_node, lastPath_of_nodup _ c hn hc, Option.getD_some]

/-- The code table of BUILD's tree spends at most 8 bits on each counted byte (R93). -/
theorem codeTable_bits_le (f : Table Word) :
    (allSymbols.map fun b => (tableGet f b).toNat * (tableGet (buildTree f).codeTable b).length).sum ≤
      8 * freqTotal f := by
  cases h : buildTree f with
  | none => exact absurd h (buildTree_ne_none f)
  | absent => exact codeBits_le_of_length_le f _ fun b => by simp [TreeReg.codeTable]
  | present t =>
    cases t with
    | leaf a =>
      refine codeBits_le_of_length_le f _ fun b => (genOfTree_length (.leaf a) b).trans ?_
      simp [HuffTree.numLeaves]
    | node l r => exact (codeBits_eq_cost h).trans_le (buildTree_cost_le_eight h)

/-- GEN_CODES of a tree register that is not NONE leaves the register's code table, and FREQ as it was (R96). -/
theorem exec_genCodes_codeTable {s : State} (h : s.tree ≠ .none) :
    ∃ t, exec .genCodes s = .next t ∧ t.codes = s.tree.codeTable ∧ t.freq = s.freq := by
  rcases runGenCodes_cases s with ⟨hn, _⟩ | ⟨ht, hrun⟩ | ⟨t, ht, hrun⟩
  · exact absurd hn h
  · exact ⟨_, exec_complete hrun, by rw [ht]; rfl, rfl⟩
  · exact ⟨_, exec_complete hrun, by rw [ht]; rfl, rfl⟩

/-- BUILD and GEN_CODES, one after the other, leave the code table of BUILD's tree, and FREQ as it was (R88, R96). -/
theorem exec_build_genCodes (s : State) :
    ∃ t u, exec .build s = .next t ∧ exec .genCodes t = .next u ∧ u.codes = (buildTree s.freq).codeTable ∧
      u.freq = s.freq := by
  have htree := tree_of_exec_build (exec_build_eq s)
  obtain ⟨u, hgen, hcodes, hfreq⟩ := exec_genCodes_codeTable (htree.trans_ne (buildTree_ne_none s.freq))
  exact ⟨_, u, exec_build_eq s, hgen, hcodes, hfreq⟩

/-- Settles O37: a placement of all present symbols at depth 8 bounds the cost of BUILD's tree, and so its codes. -/
theorem codeBitsAtMostEightPerByte : Obligations.CodeBitsAtMostEightPerByte := by
  unfold Obligations.CodeBitsAtMostEightPerByte
  intro s hcaps hlen
  have hcount := exec_count_of_inRange hlen
  obtain ⟨u, v, hbuild, hgen, hcodes, hfreq⟩ := exec_build_genCodes (endsWell { s with freq := countTable (inBytes s) })
  refine ⟨_, u, v, hcount, hbuild, hgen, ?_⟩
  rw [hcodes, hfreq, ← inBytes_length, ← freqTotal_countTable _ (inBytes_length_lt hcaps hlen)]
  exact codeTable_bits_le _

end Sys2Proof.Machine
end

section
/-! PROOF. GEN_CODES (42_code_table.md): the codes are the paths of the tree's last leaves, with MAX_DEPTH beside them (R95,
R96, R99), and no code of a tree is a prefix of another symbol's (R100). -/

namespace Sys2Proof.Machine

/-! ### How GEN_CODES ends (R96) -/

theorem exec_genCodes_present {s : State} {t : HuffTree} (h : s.tree = .present t) :
    exec .genCodes s = .next (endsWell (writeCodes (genOfTree t) s)) := by
  rcases runGenCodes_cases s with ⟨hn, _⟩ | ⟨ha, _⟩ | ⟨u, hu, hrun⟩
  · cases h.symm.trans hn
  · cases h.symm.trans ha
  · cases h.symm.trans hu
    exact exec_complete hrun

theorem exec_genCodes_absent {s : State} (h : s.tree = .absent) :
    exec .genCodes s = .next (endsWell (writeCodes emptyGen s)) := by
  rcases runGenCodes_cases s with ⟨hn, _⟩ | ⟨_, hrun⟩ | ⟨u, hu, _⟩
  · cases h.symm.trans hn
  · exact exec_complete hrun
  · cases h.symm.trans hu

/-! ### The table and MAX_DEPTH (R40, R95, R96, R99) -/

/-- MAX_DEPTH holds the depth of every tree the block can hold: 256 leaves are at most 255 deep (R98). -/
theorem maxDepth_of_node (l r : HuffTree) (h : (HuffTree.node l r).leaves.length ≤ 256) :
    (BitVec.ofNat 8 (genOfTree (.node l r)).maxDepth).toNat = (HuffTree.node l r).depth := by
  rw [leaves_length] at h
  rw [genOfTree_node_maxDepth, BitVec.toNat_ofNat]
  exact Nat.mod_eq_of_lt ((depth_lt_numLeaves _).trans_le h)

/-- A single leaf's table has the one-bit code 0 for its symbol and no other (R95). -/
theorem genOfTree_leaf (a b : Byte) : tableGet (genOfTree (.leaf a)).codes b = if b = a then [false] else [] := by
  simp only [genOfTree, tableGet_tableSet, emptyGen, tableGet_replicate, eq_comm]

/-- Settles O39: the traversal writes each symbol's last path, and a depth below 256 fits MAX_DEPTH. -/
theorem codesArePathsToLeaves : Obligations.CodesArePathsToLeaves := by
  unfold Obligations.CodesArePathsToLeaves
  intro s l r htree hsmall
  have hdepth : (writeCodes (genOfTree (.node l r)) s).maxDepth.toNat = (HuffTree.node l r).depth :=
    maxDepth_of_node l r hsmall
  refine ⟨_, exec_genCodes_present htree, rfl, genOfTree_node l r, hdepth, fun b => ?_, fun hn => ?_⟩
  · exact (genOfTree_length_le_depth l r b).trans_eq hdepth.symm
  · obtain ⟨b, hb⟩ := genOfTree_depth_attained l r hn
    exact ⟨b, hb.trans hdepth.symm⟩

/-- Settles O40: the root's code of a single leaf is set apart from the traversal, and ABSENT leaves the table empty. -/
theorem singleLeafAndAbsentCodes : Obligations.SingleLeafAndAbsentCodes := by
  unfold Obligations.SingleLeafAndAbsentCodes
  refine fun s => ⟨fun a htree => ?_, fun htree => ?_⟩
  · exact ⟨_, exec_genCodes_present htree, rfl, genOfTree_leaf a⟩
  · exact ⟨_, exec_genCodes_absent htree, rfl, fun b => tableGet_replicate [] b⟩

/-! ### No code is a prefix of another (R100) -/

/-- No walk goes on below a leaf, so paths of which one is a prefix of the other are paths of one symbol. -/
theorem symbol_eq_of_path_prefix {t : HuffTree} {a b : Byte} {p q : Bits} (hp : (a, p) ∈ t.paths)
    (hq : (b, q) ∈ t.paths) (h : p <+: q) : a = b := by
  obtain ⟨m, rfl⟩ := h
  rw [mem_paths_iff] at hp hq
  rw [subtree_append, hp, Option.bind_some] at hq
  cases m with
  | nil =>
    rw [subtree] at hq
    cases hq
    rfl
  | cons x m => simp [subtree] at hq

/-- A code in the table of a tree of two leaves or more is the path of a leaf of its symbol. -/
theorem genOfTree_node_mem_paths {l r : HuffTree} {b : Byte} (h : tableGet (genOfTree (.node l r)).codes b ≠ []) :
    (b, tableGet (genOfTree (.node l r)).codes b) ∈ (HuffTree.node l r).paths := by
  rw [genOfTree_node] at h ⊢
  cases hlast : (HuffTree.node l r).lastPath b with
  | none => rw [hlast] at h; exact absurd rfl h
  | some q => exact lastPath_mem _ b q hlast

theorem symbol_eq_of_leaf_code {a b : Byte} (h : tableGet (genOfTree (.leaf a)).codes b ≠ []) : b = a := by
  rw [genOfTree_leaf] at h
  exact of_not_not fun hne => h (if_neg hne)

/-- The code table of every tree is prefix-free, of one that repeats a symbol too (R100). -/
theorem genOfTree_prefixFree (t : HuffTree) {a b : Byte} (hab : a ≠ b) (ha : tableGet (genOfTree t).codes a ≠ [])
    (hb : tableGet (genOfTree t).codes b ≠ []) : ¬ tableGet (genOfTree t).codes a <+: tableGet (genOfTree t).codes b := by
  cases t with
  | leaf s => exact absurd ((symbol_eq_of_leaf_code ha).trans (symbol_eq_of_leaf_code hb).symm) hab
  | node l r =>
    exact fun h => hab (symbol_eq_of_path_prefix (genOfTree_node_mem_paths ha) (genOfTree_node_mem_paths hb) h)

theorem codes_of_exec_build_genCodes {s t u : State} (hbuild : exec .build s = .next t)
    (hgen : exec .genCodes t = .next u) : u.codes = (buildTree s.freq).codeTable := by
  obtain ⟨t', u', hbuild', hgen', hcodes, _⟩ := exec_build_genCodes s
  cases hbuild.symm.trans hbuild'
  cases hgen.symm.trans hgen'
  exact hcodes

/-- Settles O41: a built tree's codes are paths to its leaves, and a table without a tree has no codes. -/
theorem builtCodesPrefixFree : Obligations.BuiltCodesPrefixFree := by
  unfold Obligations.BuiltCodesPrefixFree
  intro s t u hbuild hgen a b hab
  rw [codes_of_exec_build_genCodes hbuild hgen]
  cases buildTree s.freq with
  | none => exact fun ha => absurd (tableGet_replicate [] a) ha
  | absent => exact fun ha => absurd (tableGet_replicate [] a) ha
  | present h => exact genOfTree_prefixFree h hab

end Sys2Proof.Machine
end

section
/-! PROOF. SERIALIZE and DESERIALIZE (43_tree_codec.md): the stream SERIALIZE writes (R101), the streams DESERIALIZE accepts
and rejects (R102, R105), the counter scan (R103) and the round trip (R107). -/

namespace Sys2Proof.Machine

/-! ### What SERIALIZE writes (R101) -/

theorem writeBuf_readBuf (s : State) (b : Buffer) (vs : List Byte) : (s.writeBuf b 0 vs).readBuf b vs.length = vs := by
  refine List.ext_getElem (readBuf_length _ _ _) fun i h1 h2 => ?_
  rw [readBuf_getElem, bufByte_writeBuf_same]

theorem readBuf_congr {s t : State} (hm : t.mem = s.mem) (hd : t.draws = s.draws) (b : Buffer) (n : Nat) :
    t.readBuf b n = s.readBuf b n :=
  List.map_congr_left fun i _ => bufByte_congr s t hm hd b i

/-- What SERIALIZE writes for the tree `t` (R101). -/
def writeTree (t : HuffTree) (s : State) : State :=
  { s.writeBuf .treeBuf 0 (ser t) with treeLen := BitVec.ofNat 32 (ser t).length }

theorem writeTree_frame (t : HuffTree) (s : State) :
    writeTree t s = { s with mem := (writeTree t s).mem, treeLen := (writeTree t s).treeLen } := by
  unfold writeTree
  rw [writeBuf_frame]

/-- TREE_LEN holds the length of the stream of every tree the block can hold (R10). -/
theorem writeTree_treeLen {t : HuffTree} (h : t.numLeaves ≤ 256) (s : State) :
    (writeTree t s).treeLen.toNat = (ser t).length := by
  have hser := ser_length t
  exact (BitVec.toNat_ofNat _ _).trans (Nat.mod_eq_of_lt (by omega))

theorem writeTree_readBuf (t : HuffTree) (s : State) : (writeTree t s).readBuf .treeBuf (ser t).length = ser t :=
  (readBuf_congr rfl rfl _ _).trans (writeBuf_readBuf s .treeBuf (ser t))

theorem writeTree_treeBytes {t : HuffTree} (h : t.numLeaves ≤ 256) (s : State) : treeBytes (writeTree t s) = ser t := by
  rw [treeBytes, writeTree_treeLen h, writeTree_readBuf]

theorem writeTree_other (t : HuffTree) (s : State) (b : Buffer) (i : Nat)
    (h : b.base + i < Buffer.treeBuf.base ∨ Buffer.treeBuf.base + (ser t).length ≤ b.base + i) :
    (writeTree t s).bufByte b i = s.bufByte b i :=
  (bufByte_congr (s.writeBuf .treeBuf 0 (ser t)) _ rfl rfl b i).trans (bufByte_writeBuf_other s _ _ _ _ _ h)

theorem exec_serialize_present {s : State} {t : HuffTree} (h : s.tree = .present t) :
    exec .serialize s = .next (endsWell (writeTree t s)) := by
  rcases runSerialize_cases s with ⟨hn, _⟩ | ⟨ha, _⟩ | ⟨u, hu, hrun⟩
  · cases h.symm.trans hn
  · cases h.symm.trans ha
  · cases h.symm.trans hu
    exact exec_complete hrun

theorem exec_serialize_absent {s : State} (h : s.tree = .absent) :
    exec .serialize s = .next (endsWell { s with treeLen := 0 }) := by
  rcases runSerialize_cases s with ⟨hn, _⟩ | ⟨_, hrun⟩ | ⟨u, hu, _⟩
  · cases h.symm.trans hn
  · exact exec_complete hrun
  · cases h.symm.trans hu

/-- Settles O42: SERIALIZE writes `ser` of the tree, whose length TREE_LEN can hold. -/
theorem serializeWritesPreorder : Obligations.SerializeWritesPreorder := by
  unfold Obligations.SerializeWritesPreorder
  refine fun s => ⟨fun h htree hsmall => ?_, exec_serialize_absent⟩
  rw [leaves_length] at hsmall ⊢
  have hlen : (endsWell (writeTree h s)).treeLen.toNat = (ser h).length := writeTree_treeLen hsmall s
  refine ⟨_, exec_serialize_present htree, congrArg endsWell (writeTree_frame h s), hlen.trans (ser_length h), ?_, ?_⟩
  · rw [hlen]
    exact writeTree_readBuf h s
  · rw [hlen]
    exact writeTree_other h s

/-! ### The streams DESERIALIZE accepts (R102, R105) -/

theorem ser_length_pos (t : HuffTree) : 0 < (ser t).length := by
  have hpos := numLeaves_pos t
  rw [ser_length]
  omega

/-- `parse_ser` for the parser as DESERIALIZE runs it, with the stream's length for fuel. -/
theorem parseStream_ser (t : HuffTree) (rest : List Byte) : parseStream (ser t ++ rest) = .ok (t, rest) :=
  parse_ser _ t _ rest (by simp)

@[simp] theorem treeBytes_length (s : State) : (treeBytes s).length = s.treeLen.toNat := readBuf_length _ _ _

theorem exec_deserialize_zero {s : State} (h : s.treeLen.toNat = 0) :
    exec .deserialize s = .next (endsWell (loadTree .absent 0 0 0 s)) := by
  rcases runDeserialize_cases s with ⟨hgt, _⟩ | ⟨_, hrun⟩ | ⟨hpos, _⟩ | ⟨hpos, _⟩
  · omega
  · exact exec_complete hrun
  · omega
  · omega

/-- DESERIALIZE of a stream that starts with a serialized tree loads that tree (R102, R105). -/
theorem exec_deserialize_ser {s : State} {t : HuffTree} {rest : List Byte} (hle : s.treeLen.toNat ≤ 768)
    (h : treeBytes s = ser t ++ rest) :
    exec .deserialize s = .next (endsWell (loadTree (.present t) t.numLeaves t.numNodes (ser t).length s)) := by
  have hlen : s.treeLen.toNat = (ser t).length + rest.length := by rw [← treeBytes_length, h, List.length_append]
  have hpos := ser_length_pos t
  have hparse := parseStream_ser t rest
  rw [← h] at hparse
  rcases runDeserialize_cases s with ⟨hgt, _⟩ | ⟨hzero, _⟩ | ⟨_, _, u, rest', hp, hrun⟩ | ⟨_, _, e, hp, _⟩
  · omega
  · omega
  · cases hparse.symm.trans hp
    rw [hlen, Nat.add_sub_cancel] at hrun
    exact exec_complete hrun
  · cases hparse.symm.trans hp

/-- Settles O43: parsing undoes serializing whatever follows, and 768 bytes have room for 256 leaves at most. -/
theorem deserializeLoadsTree : Obligations.DeserializeLoadsTree := by
  unfold Obligations.DeserializeLoadsTree
  refine fun s => ⟨fun h after hle hbytes => ⟨?_, ?_⟩, fun hzero => exec_deserialize_zero (by rw [hzero]; rfl)⟩
  · rw [leaves_length, ← numNodes_eq, ← ser_length]
    exact exec_deserialize_ser hle hbytes
  · rw [leaves_length]
    exact (parseStream_small _ h after (hbytes ▸ parseStream_ser h after) (by simpa [treeBufSize] using hle)).1

/-! ### The streams DESERIALIZE rejects (R102) -/

/-- A stream that starts with no serialized tree fails to parse, and DESERIALIZE reports that failure (R102). -/
theorem exec_deserialize_malformed {s : State} (hpos : 0 < s.treeLen.toNat) (hle : s.treeLen.toNat ≤ 768)
    (h : ∀ t rest, treeBytes s ≠ ser t ++ rest) :
    ∃ e, parseStream (treeBytes s) = .error e ∧
      exec .deserialize s = .next (endsInError 0x05 e.detail 0x05 e.pos (loadTree .none 0 0 0 s)) := by
  rcases runDeserialize_cases s with ⟨hgt, _⟩ | ⟨hzero, _⟩ | ⟨_, _, t, rest, hp, _⟩ | ⟨_, _, e, hp, hrun⟩
  · omega
  · omega
  · exact absurd (parse_ok _ _ _ t rest hp) (h t rest)
  · exact ⟨e, hp, exec_raised (i := .deserialize) hrun⟩

/-- Bytes after which every parse fails begin no tree's stream. -/
theorem ser_ne_of_parse_error {bs : List Byte}
    (h : ∀ len fuel more, ∃ e, parse len fuel (bs ++ more) = .error e) : ¬ ∃ t more, ser t = bs ++ more := by
  rintro ⟨t, more, hser⟩
  have hok := parseStream_ser t []
  rw [List.append_nil, hser] at hok
  obtain ⟨e, he⟩ := h (bs ++ more).length (bs ++ more).length more
  cases he.symm.trans hok

/-- A read of a buffer cut at the byte `m`: where that byte stands, and the shorter reads that end before it and with it. -/
theorem readBuf_split {s : State} {b : Buffer} {n : Nat} {before after : List Byte} {m : Byte}
    (h : s.readBuf b n = before ++ m :: after) :
    n = before.length + (after.length + 1) ∧ s.bufByte b before.length = m ∧ s.readBuf b before.length = before ∧
      s.readBuf b (before.length + 1) = before ++ [m] := by
  have hn : n = before.length + (after.length + 1) := by
    rw [← readBuf_length s b n, h, List.length_append, List.length_cons]
  refine ⟨hn, ?_, ?_, ?_⟩
  · rw [← readBuf_getElem s b n before.length (by rw [readBuf_length]; omega)]
    simp [h]
  · rw [← readBuf_take s b n _ (by omega), h, List.take_left]
  · rw [← readBuf_take s b n _ (by omega), h]
    simp [List.take_append]

/-- Settles O44: such a stream fails to parse, and the parser's failure is one of the two the statement describes. -/
theorem malformedStreamsRejected : Obligations.MalformedStreamsRejected := by
  unfold Obligations.MalformedStreamsRejected
  intro s hpos hle hno
  obtain ⟨e, hparse, hexec⟩ := exec_deserialize_malformed hpos hle hno
  refine ⟨e.detail, e.pos, hexec, ?_⟩
  rcases parse_error_extends _ _ _ e hparse (Nat.le_refl _) with
    ⟨hd, hp, hmore⟩ | ⟨hd, before, m, after, hbytes, hp, hleaf, hint, hbefore, hfail⟩
  · exact .inl ⟨hd, hp.trans (treeBytes_length s), hmore⟩
  · obtain ⟨hlen, hbyte, hread, hread1⟩ := readBuf_split hbytes
    have hpos' : e.pos = before.length := by rw [hp, treeBytes_length, hlen, Nat.add_sub_cancel]
    rw [hpos', hbyte, hread, hread1]
    refine .inr ⟨hd, by omega, hint, hleaf, hbefore, ser_ne_of_parse_error fun len fuel more => ?_⟩
    rw [List.append_assoc]
    exact hfail len fuel more

/-! ### The counter scan (R103) -/

/-- Settles O45: with need at 1 the scan runs one parse and then stops. -/
theorem counterScanAgreesWithParse : Obligations.CounterScanAgreesWithParse := by
  unfold Obligations.CounterScanAgreesWithParse
  intro bs
  rw [needScan_succ bs.length 0 bs.length bs (Nat.le_refl _), parseStream]
  cases parse bs.length bs.length bs with
  | error e => rfl
  | ok x => simp only [needScan]

/-! ### The round trip (R107) -/

theorem ofNat_eq_of_toNat_eq {w n : Nat} {v : BitVec w} (h : v.toNat = n) : BitVec.ofNat w n = v := by
  rw [← h, BitVec.ofNat_toNat, BitVec.setWidth_eq]

/-- Settles O46: DESERIALIZE reads the stream SERIALIZE wrote, and the invariant says that the counts were the tree's. -/
theorem treeRoundTrip : Obligations.TreeRoundTrip := by
  unfold Obligations.TreeRoundTrip
  intro s hinv hne
  have hsmall := hinv.tree_small
  have hleaf := ofNat_eq_of_toNat_eq hinv.leaf_count
  have hnode := ofNat_eq_of_toNat_eq hinv.node_count
  cases htree : s.tree with
  | none => exact absurd htree hne
  | absent =>
    rw [htree] at hleaf hnode
    exact ⟨_, _, exec_serialize_absent htree, exec_deserialize_zero rfl, rfl, rfl, hleaf, hnode⟩
  | present t =>
    rw [htree] at hsmall hleaf hnode
    have hlen : (endsWell (writeTree t s)).treeLen.toNat = (ser t).length := writeTree_treeLen hsmall s
    have hbytes : treeBytes (endsWell (writeTree t s)) = ser t ++ [] :=
      (writeTree_treeBytes hsmall s).trans (List.append_nil _).symm
    have hle : (ser t).length < 768 := by
      have h256 : t.numLeaves ≤ 256 := hsmall
      rw [ser_length]
      omega
    refine ⟨_, _, exec_serialize_present htree, exec_deserialize_ser (hlen.trans_le hle.le) hbytes, rfl, ?_, hleaf, hnode⟩
    exact ((BitVec.toNat_ofNat _ _).trans (Nat.mod_eq_of_lt (by omega))).trans hlen.symm

end Sys2Proof.Machine
end

section
/-! PROOF. PACK and UNPACK (44_bit_packer.md): the payload PACK writes (R108, R109), how it fails (R110), UNPACK's header
checks (R112), what its walk decodes (R112 to R114), and why filler bits do not matter (R115). -/

namespace Sys2Proof.Machine

/-! ### The payload PACK writes (R80, R81, R108, R109) -/

theorem toNat_ofNat_padOf (n : Nat) {w : Nat} (hw : 3 ≤ w) : (BitVec.ofNat w (padOf n)).toNat = padOf n := by
  have hpow : 2 ^ 3 ≤ 2 ^ w := Nat.pow_le_pow_right (by decide) hw
  exact (BitVec.toNat_ofNat _ _).trans (Nat.mod_eq_of_lt ((padOf_lt n).trans_le hpow))

/-- Past its end a sequence of data bits reads as its filler does (R80). -/
theorem getD_filler (bits : Bits) (k j : Nat) :
    (bits ++ List.replicate k false).getD j false = bits.getD j false := by
  rcases lt_or_ge j bits.length with h | h
  · exact List.getD_append _ _ _ _ h
  · rw [List.getD_append_right _ _ _ _ h, List.getD_eq_default _ _ h, List.getD_eq_getElem?_getD, List.getElem?_replicate]
    split <;> rfl

theorem writePayload_frame (bits : Bits) (s : State) :
    writePayload bits s =
      { s with mem := (writePayload bits s).mem
               payLen := (writePayload bits s).payLen
               padCount := (writePayload bits s).padCount
               totalBits := (writePayload bits s).totalBits } := by
  unfold writePayload
  rw [writeBuf_frame]

/-- Byte 0 of the payload is the Padding Count (R80). -/
theorem writePayload_byte_zero (bits : Bits) (s : State) :
    (writePayload bits s).bufByte .payBuf 0 = BitVec.ofNat 8 (padOf bits.length) :=
  (bufByte_congr (s.writeBuf .payBuf 0 (payloadOf bits)) _ rfl rfl _ _).trans
    (bufByte_writeBuf_same s _ 0 (payloadOf bits) (by rw [payloadOf_length]; omega))

theorem writePayload_other (bits : Bits) (s : State) (b : Buffer) (i : Nat)
    (h : b.base + i < Buffer.payBuf.base ∨ Buffer.payBuf.base + (payloadOf bits).length ≤ b.base + i) :
    (writePayload bits s).bufByte b i = s.bufByte b i :=
  (bufByte_congr (s.writeBuf .payBuf 0 (payloadOf bits)) _ rfl rfl b i).trans (bufByte_writeBuf_other s _ _ _ _ _ h)

/-- The registers have room for the counts of every payload that PAY_BUF holds (R11, R109). -/
theorem writePayload_counts {bits : Bits} {s : State} (hc : s.caps.wf = true)
    (h : bits.length ≤ 8 * (s.caps.maxPay - 1)) :
    (writePayload bits s).totalBits.toNat = bits.length ∧
      (writePayload bits s).padCount.toNat = padOf bits.length ∧
      (writePayload bits s).payLen.toNat = 1 + (bits.length + padOf bits.length) / 8 := by
  obtain ⟨_, _, _, hmax, _, _⟩ := caps_bounds hc
  have hpad := padOf_lt bits.length
  rw [writePayload_totalBits, writePayload_padCount, writePayload_payLen, payloadOf_length]
  exact ⟨toNat_ofNat32 (by omega), toNat_ofNat_padOf _ (Nat.le_refl 3), toNat_ofNat32 (by omega)⟩

/-- How PACK ends on an input whose codes fit (R109, R125). -/
theorem exec_pack_of_codes {s : State} (hv : s.status.codesValid = true) (hl : s.inLen.toNat ≤ s.caps.maxIn)
    (hcode : ∀ i, i < s.inLen.toNat → tableGet s.codes (s.bufByte .inBuf i) ≠ [])
    (hfit : (encodedBits s.codes (s.readBuf .inBuf s.inLen.toNat)).length ≤ 8 * (s.caps.maxPay - 1)) :
    exec .pack s = .next (endsWell (writePayload (encodedBits s.codes (s.readBuf .inBuf s.inLen.toNat)) s)) := by
  have hcode' : ∀ b ∈ inBytes s, tableGet s.codes b ≠ [] := by simpa [inBytes, State.readBuf] using hcode
  exact exec_complete (runPack_of_codes s hv hl hcode' hfit)

/-- Settles O47: the packed bytes hold the data bits and their filler bit for bit, and the registers have room for the
counts. -/
theorem packWritesPayload : Obligations.PackWritesPayload := by
  unfold Obligations.PackWritesPayload
  intro s hc hv hl hcode hfit
  have hexec := exec_pack_of_codes hv hl hcode hfit
  generalize encodedBits s.codes (s.readBuf .inBuf s.inLen.toNat) = bits at hexec hfit ⊢
  obtain ⟨htotal, hpad, hlen⟩ : (endsWell (writePayload bits s)).totalBits.toNat = _ ∧
      (endsWell (writePayload bits s)).padCount.toNat = _ ∧ (endsWell (writePayload bits s)).payLen.toNat = _ :=
    writePayload_counts hc hfit
  have hmod := padOf_mod bits.length
  refine ⟨_, hexec, congrArg endsWell (writePayload_frame bits s), htotal, ?_⟩
  rw [htotal, hpad, hlen]
  refine ⟨rfl, by omega, by omega, ?_, fun j hj => ?_, fun b i hi => ?_⟩
  · exact (congrArg BitVec.toNat (writePayload_byte_zero bits s)).trans (toNat_ofNat_padOf _ (by decide))
  · exact (payloadBit_writePayload bits s j hj).trans (getD_filler bits _ j)
  · exact writePayload_other bits s b i (by rwa [payloadOf_length])

/-! ### The errors of PACK's loop (R109, R110) -/

theorem readBuf_succ (s : State) (b : Buffer) (n : Nat) : s.readBuf b (n + 1) = s.readBuf b n ++ [s.bufByte b n] := by
  simp [State.readBuf, List.range_succ]

/-- A read of a buffer goes on past each shorter one with the byte that stands there. -/
theorem readBuf_eq_append (s : State) (b : Buffer) {i n : Nat} (h : i < n) :
    ∃ after, s.readBuf b n = s.readBuf b i ++ s.bufByte b i :: after := by
  refine ⟨(s.readBuf b n).drop (i + 1), ?_⟩
  calc s.readBuf b n = (s.readBuf b n).take (i + 1) ++ (s.readBuf b n).drop (i + 1) := (List.take_append_drop _ _).symm
    _ = _ := by rw [readBuf_take s b n _ h, readBuf_succ, List.append_assoc]; rfl

/-- PACK's loop at the first byte that has no code or does not fit. -/
theorem packLoop_at {s : State} {i : Nat} (hi : i < s.inLen.toNat)
    (hcode : ∀ j, j < i → tableGet s.codes (s.bufByte .inBuf j) ≠ [])
    (hfit : (encodedBits s.codes (s.readBuf .inBuf i)).length ≤ 8 * (s.caps.maxPay - 1)) :
    ∃ after, packLoop s.codes (8 * (s.caps.maxPay - 1)) 0 [] (inBytes s) =
      packLoop s.codes (8 * (s.caps.maxPay - 1)) i (encodedBits s.codes (s.readBuf .inBuf i))
        (s.bufByte .inBuf i :: after) := by
  obtain ⟨after, h⟩ := readBuf_eq_append s .inBuf hi
  have hcode' : ∀ b ∈ s.readBuf .inBuf i, tableGet s.codes b ≠ [] := by simpa [State.readBuf] using hcode
  refine ⟨after, ?_⟩
  rw [inBytes, h, packLoop_append _ _ _ _ _ _ hcode' hfit, readBuf_length, Nat.zero_add, List.nil_append]

/-- How PACK ends when its loop raises an error (R110, R125). -/
theorem exec_pack_of_error {s : State} {e : PackFail} (hv : s.status.codesValid = true)
    (hl : s.inLen.toNat ≤ s.caps.maxIn)
    (h : packLoop s.codes (8 * (s.caps.maxPay - 1)) 0 [] (inBytes s) = .error e) :
    exec .pack s = .next (endsInError e.kind.code 0 0x06 e.pos (spoilPayload s)) := by
  rcases runPack_cases s with ⟨hv', _⟩ | ⟨_, hgt, _⟩ | ⟨_, _, bits, hbits, _⟩ | ⟨_, _, e', he', hrun⟩
  · cases hv.symm.trans hv'
  · omega
  · cases h.symm.trans hbits
  · cases h.symm.trans he'
    exact exec_raised (i := .pack) hrun

/-- What R110 says of the buffers: PAY_BUF is a new draw, and the others keep their bytes. -/
theorem spoilPayload_bytes {s : State} (hc : s.caps.wf = true) :
    (∃ n, s.draws.next ≤ n ∧ ∀ j, j < s.caps.maxPay →
      (spoilPayload s).bufByte .payBuf j = Config.freeByte n (Buffer.payBuf.base + j)) ∧
    ∀ b j, b ≠ .payBuf → j < b.cap s.caps → (spoilPayload s).bufByte b j = s.bufByte b j := by
  refine ⟨⟨_, Nat.le_refl _, bufByte_redraw_same s .payBuf⟩, fun b j hb hj => ?_⟩
  exact bufByte_redrawAll_other [.payBuf] s hc b (by simpa using hb) j hj

/-- Settles O48: the loop passes the bytes before index `i`, so it raises there what byte `i` calls for. -/
theorem packRaisesAtFirstBadByte : Obligations.PackRaisesAtFirstBadByte := by
  unfold Obligations.PackRaisesAtFirstBadByte
  intro s i hc hv hl hi hcode hfit
  obtain ⟨after, hloop⟩ := packLoop_at hi hcode hfit
  have happend : encodedBits s.codes (s.readBuf .inBuf (i + 1)) =
      encodedBits s.codes (s.readBuf .inBuf i) ++ tableGet s.codes (s.bufByte .inBuf i) := by
    simp [encodedBits, readBuf_succ]
  rw [happend]
  by_cases hempty : tableGet s.codes (s.bufByte .inBuf i) = []
  · rw [packLoop, if_pos (by rw [hempty]; rfl)] at hloop
    exact ⟨_, exec_pack_of_error hv hl hloop, fun _ => rfl, fun hne => absurd hempty hne,
      fun _ => spoilPayload_bytes hc⟩
  · by_cases hover : 8 * (s.caps.maxPay - 1) <
        (encodedBits s.codes (s.readBuf .inBuf i) ++ tableGet s.codes (s.bufByte .inBuf i)).length
    · rw [packLoop, if_neg (by simpa using hempty), if_pos hover] at hloop
      exact ⟨_, exec_pack_of_error hv hl hloop, fun h => absurd h hempty, fun _ _ => rfl,
        fun _ => spoilPayload_bytes hc⟩
    · exact ⟨_, exec_eq .pack s, fun h => absurd h hempty, fun _ h => absurd h hover,
        fun h => (h.elim hempty hover).elim⟩

/-! ### UNPACK's header checks (R112) -/

theorem exec_unpack_of_loaded {s : State} (hne : s.tree ≠ .none) (hle : s.payLen.toNat ≤ s.caps.maxPay) :
    exec .unpack s = .next (finish (unpackLoaded s.tree s)) := by
  rw [exec_eq, runOf, runUnpack, if_neg hne, if_neg hle.not_gt]

theorem unpackLoaded_empty (r : TreeReg) {s : State} (h : s.payLen.toNat = 0) :
    unpackLoaded r s = .raised { s with outLen := 0 } (raiseOf .unpack .truncatedPayload 2 0) := if_pos h

theorem unpackLoaded_absent {r : TreeReg} {s : State} (hr : r = .absent) (h : 0 < s.payLen.toNat) :
    unpackLoaded r s = .complete { s with outLen := 0 } := by
  subst hr
  exact if_neg h.ne'

theorem unpackLoaded_present {r : TreeReg} {t : HuffTree} {s : State} (hr : r = .present t) (h : 0 < s.payLen.toNat) :
    unpackLoaded r s = unpackChecked t (s.bufByte .payBuf 0).toNat (8 * (s.payLen.toNat - 1)) s := by
  subst hr
  exact if_neg h.ne'

theorem unpackChecked_above_seven (t : HuffTree) {p : Nat} (room : Nat) (s : State) (h : 7 < p) :
    unpackChecked t p room s = .raised { s with outLen := 0 } (raiseOf .unpack .badPadding 1 0) := if_pos h

theorem unpackChecked_above_room (t : HuffTree) {p room : Nat} (s : State) (h7 : p ≤ 7) (h : room < p) :
    unpackChecked t p room s = .raised { s with outLen := 0 } (raiseOf .unpack .badPadding 2 0) :=
  (if_neg h7.not_gt).trans (if_pos h)

theorem exists_present {r : TreeReg} (hn : r ≠ .none) (ha : r ≠ .absent) : ∃ t, r = .present t := by
  cases r with
  | none => exact absurd rfl hn
  | absent => exact absurd rfl ha
  | present t => exact ⟨t, rfl⟩

/-- Settles O52: the checks in R112's order, each reached where the ones before it pass. -/
theorem unpackHeaderChecks : Obligations.UnpackHeaderChecks := by
  unfold Obligations.UnpackHeaderChecks
  intro s hne hle
  rw [exec_unpack_of_loaded hne hle]
  refine ⟨fun hzero => ?_, fun hpos habs => ?_, fun hpos hna h7 => ?_, fun hpos hna h7 hroom => ?_⟩
  · rw [unpackLoaded_empty _ (by rw [hzero]; rfl)]
    rfl
  · rw [unpackLoaded_absent habs hpos]
    rfl
  · obtain ⟨t, ht⟩ := exists_present hne hna
    rw [unpackLoaded_present ht hpos, unpackChecked_above_seven t _ s h7]
    rfl
  · obtain ⟨t, ht⟩ := exists_present hne hna
    rw [unpackLoaded_present ht hpos, unpackChecked_above_room t s h7 hroom]
    rfl

/-! ### How UNPACK's walk ends (R112 to R114) -/

/-- UNPACK of a payload that passes its checks ends as its walk does (R112, R125). -/
theorem exec_unpack_of_header {s : State} {t : HuffTree} {n : Nat} (ht : s.tree = .present t) (hh : HeaderOk s n) :
    exec .unpack s = .next (finish (unpackWalk t (s.bufByte .payBuf 0).toNat n s)) := by
  rw [exec_eq, runOf, runUnpack_of_header s t n ht hh]

section WalkEnds
variable {t : HuffTree} {n : Nat} {s : State} {out : List Byte}

theorem finish_unpackWalk_atRoot (p : Nat) (h : walk t s.caps.maxOut 0 [] [] (payloadBits s n) = .atBit out []) :
    finish (unpackWalk t p n s) = endsWell (writeOutput p n out s) := by
  rw [unpackWalk, h]; rfl

theorem finish_unpackWalk_inside {q : Bits} (p : Nat) (hq : q ≠ [])
    (h : walk t s.caps.maxOut 0 [] [] (payloadBits s n) = .atBit out q) :
    finish (unpackWalk t p n s) = endsInError 0x06 1 0x07 n (writeOutput p n out s) := by
  obtain ⟨b, q, rfl⟩ := List.exists_cons_of_ne_nil hq
  rw [unpackWalk, h]; rfl

theorem finish_unpackWalk_full {j : Nat} (p : Nat)
    (h : walk t s.caps.maxOut 0 [] [] (payloadBits s n) = .full out j) :
    finish (unpackWalk t p n s) = endsInError 0x0A 0 0x07 j (writeOutput p n out s) := by
  rw [unpackWalk, h]; rfl

end WalkEnds

/-! ### What UNPACK leaves -/

/-- A payload of `n` data bits of `s` decoded to the `k` symbols `out`, as `t` shows it (R112). -/
def ShowsOutput (s : State) (n k : Nat) (out : List Byte) (t : State) : Prop :=
  t.outLen.toNat = k ∧ t.readBuf .outBuf k = out ∧ t.padCount.toNat = (s.bufByte .payBuf 0).toNat ∧
    t.totalBits.toNat = n ∧
    ∀ b i, b.base + i < Buffer.outBuf.base ∨ Buffer.outBuf.base + k ≤ b.base + i → t.bufByte b i = s.bufByte b i

/-- OUT_LEN, PAD_COUNT and TOTAL_BITS have room for what UNPACK writes (R11, R112). -/
theorem showsOutput_writeOutput {s : State} {n k : Nat} {out : List Byte} (hc : s.caps.wf = true) (hh : HeaderOk s n)
    (hk : out.length = k) (hmax : k ≤ s.caps.maxOut) :
    ShowsOutput s n k out (writeOutput (s.bufByte .payBuf 0).toNat n out s) := by
  subst hk
  obtain ⟨_, _, _, hpay, _, hout⟩ := caps_bounds hc
  obtain ⟨_, hlen, hpad, hn⟩ := hh
  refine ⟨?_, writeOutput_readBuf _ _ _ _, ?_, ?_, writeOutput_other _ _ _ _⟩
  · rw [writeOutput_outLen, toNat_ofNat32 (by omega)]
  · rw [writeOutput_padCount, BitVec.toNat_ofNat, Nat.mod_eq_of_lt (by omega)]
  · rw [writeOutput_totalBits, toNat_ofNat32 (by omega)]

/-- Settles O49: the walk decodes the paths one by one and ends at the root. -/
theorem unpackDecodesPaths : Obligations.UnpackDecodesPaths := by
  unfold Obligations.UnpackDecodesPaths
  intro s l r n cs hc ht hh hpaths hbits hmax
  have hwalk := walk_symbols l r s.caps.maxOut 0 [] cs [] hpaths (by simpa using hmax)
  rw [List.append_nil, ← hbits, walk] at hwalk
  refine ⟨_, exec_unpack_of_header ht hh, ?_⟩
  rw [finish_unpackWalk_atRoot _ hwalk]
  exact ⟨congrArg endsWell (writeOutput_frame ..), showsOutput_writeOutput hc hh (List.length_map _) hmax⟩

/-- Settles O50: after the whole paths the walk either ends on the way to a leaf, or reaches one with OUT_BUF full. -/
theorem unpackKeepsPartialOutput : Obligations.UnpackKeepsPartialOutput := by
  unfold Obligations.UnpackKeepsPartialOutput
  intro s l r n cs q more hc ht hh hpaths hbits hq
  have hwalk (hmax : cs.length ≤ s.caps.maxOut) :=
    walk_symbols l r s.caps.maxOut 0 [] cs (q ++ more) hpaths (by simpa using hmax)
  rw [← List.append_assoc, ← hbits, Nat.zero_add, List.nil_append] at hwalk
  refine ⟨_, exec_unpack_of_header ht hh, fun hinside hmore hmax => ?_, fun ⟨a, hleaf⟩ hfull => ?_⟩
  · replace hwalk := hwalk hmax
    rw [hmore, walk_inside l r _ _ [] q _ [] hinside, walk] at hwalk
    rw [finish_unpackWalk_inside _ hq hwalk]
    exact ⟨congrArg (endsInError _ _ _ _) (writeOutput_frame ..), showsOutput_writeOutput hc hh (List.length_map _) hmax⟩
  · replace hwalk := hwalk hfull.le
    rw [walk_symbol l r _ _ _ a q more ((mem_paths_iff _ a q).2 hleaf), if_pos (by simpa using hfull)] at hwalk
    rw [finish_unpackWalk_full _ hwalk]
    exact ⟨congrArg (endsInError _ _ _ _) (writeOutput_frame ..),
      showsOutput_writeOutput hc hh (List.length_map _) hfull.le⟩

/-! ### The single-leaf tree (R113) -/

/-- A single-leaf tree decodes data bits until OUT_BUF is full, and raises at the next one (R113). -/
theorem walk_leaf_full (a : Byte) {maxOut : Nat} (j : Nat) (out : List Byte) (bits : Bits) (ho : out.length ≤ maxOut)
    (h : maxOut < out.length + bits.length) :
    walk (.leaf a) maxOut j [] out bits =
      .full (out ++ List.replicate (maxOut - out.length) a) (j + (maxOut - out.length)) := by
  induction bits generalizing j out with
  | nil => rw [List.length_nil] at h; omega
  | cons b bits ih =>
    rw [walk]
    simp only [symbolDue]
    split
    · next hfull => simp [hfull]
    · next hroom =>
      have hstep : maxOut - out.length = maxOut - (out ++ [a]).length + 1 := by simp; omega
      rw [ih (j + 1) (out ++ [a]) (by simp; omega) (by simp at h ⊢; omega), hstep, List.replicate_succ,
        List.append_assoc, Nat.add_assoc, Nat.add_comm 1]
      rfl

/-- Settles O51: the walk never leaves the root, so each data bit gives the symbol until OUT_BUF is full. -/
theorem singleLeafDecodesEveryBit : Obligations.SingleLeafDecodesEveryBit := by
  unfold Obligations.SingleLeafDecodesEveryBit
  intro s a n hc ht hh
  have hpad : (s.bufByte .payBuf 0).setWidth 3 = BitVec.ofNat 3 (s.bufByte .payBuf 0).toNat :=
    (BitVec.ofNat_toNat _ _).symm
  obtain ⟨hlen, hread, _, _, hother⟩ := showsOutput_writeOutput (out := List.replicate (min n s.caps.maxOut) a) hc hh
    List.length_replicate (Nat.min_le_right _ _)
  rw [hpad]
  refine ⟨_, exec_unpack_of_header ht hh, ?_⟩
  rcases le_or_gt n s.caps.maxOut with hle | hgt
  · have hwalk := walk_leaf a s.caps.maxOut 0 [] (payloadBits s n) (by simpa [payloadBits_length] using hle)
    rw [List.nil_append, payloadBits_length] at hwalk
    rw [Nat.min_eq_left hle] at hlen hread hother ⊢
    rw [finish_unpackWalk_atRoot _ hwalk]
    exact ⟨hlen, hread, hother, fun _ => congrArg endsWell (writeOutput_frame ..), fun h => absurd h hle.not_gt⟩
  · have hwalk := walk_leaf_full a 0 [] (payloadBits s n) (Nat.zero_le _) (by simpa [payloadBits_length] using hgt)
    rw [List.nil_append, List.length_nil, Nat.sub_zero, Nat.zero_add] at hwalk
    rw [Nat.min_eq_right hgt.le] at hlen hread hother ⊢
    rw [finish_unpackWalk_full _ hwalk]
    exact ⟨hlen, hread, hother, fun h => absurd h hgt.not_ge,
      fun _ => congrArg (endsInError _ _ _ _) (writeOutput_frame ..)⟩

/-! ### Filler bits (R115) -/

theorem payloadBits_congr {s s' : State} {n : Nat} (h : ∀ j, j < n → payloadBit s' j = payloadBit s j) :
    payloadBits s' n = payloadBits s n :=
  List.map_congr_left fun j hj => h j (List.mem_range.1 hj)

/-- The symbols UNPACK writes do not depend on the block that it writes them in. -/
theorem writeOutput_same_bytes (p n : Nat) (out : List Byte) (s s' : State) (i : Nat)
    (hi : i < (writeOutput p n out s).outLen.toNat) :
    (writeOutput p n out s').bufByte .outBuf i = (writeOutput p n out s).bufByte .outBuf i := by
  have hlen : i < out.length := hi.trans_le (by rw [writeOutput_outLen, BitVec.toNat_ofNat]; exact Nat.mod_le _ _)
  have hbyte (u : State) : (writeOutput p n out u).bufByte .outBuf i = out[i] :=
    (bufByte_congr (u.writeBuf .outBuf 0 out) _ rfl rfl _ _).trans (bufByte_writeBuf_same u _ i out hlen)
  rw [hbyte, hbyte]

/-- UNPACK with the absent tree looks at PAY_LEN only (R112). -/
theorem exec_unpack_absent {s : State} {n : Nat} (ht : s.tree = .absent) (hh : HeaderOk s n) :
    exec .unpack s = .next (endsWell { s with outLen := 0 }) := by
  obtain ⟨hpos, hle, _, _⟩ := hh
  rw [exec_unpack_of_loaded (by rw [ht]; nofun) hle, unpackLoaded_absent ht hpos]
  rfl

/-- Settles O53: UNPACK reads the payload through its length, its Padding Count and its data bits only, so both blocks
walk the tree alike. -/
theorem fillerBitsIgnored : Obligations.FillerBitsIgnored := by
  unfold Obligations.FillerBitsIgnored
  intro s s' n _ hh htree hlen hcaps hpad hbits hne
  have hh' : HeaderOk s' n := by rwa [HeaderOk, hlen, hcaps, hpad]
  cases ht : s.tree with
  | none => exact absurd ht hne
  | absent =>
    exact ⟨_, _, exec_unpack_absent ht hh, exec_unpack_absent (htree.trans ht) hh', rfl,
      fun i hi => absurd hi (Nat.not_lt_zero i), fun h h' => h'.trans h.symm, fun h h' => ⟨h, h'⟩, fun h h' => ⟨h, h'⟩⟩
  | present t =>
    have hexec := exec_unpack_of_header ht hh
    have hexec' := exec_unpack_of_header (htree.trans ht) hh'
    have hsame : walk t s'.caps.maxOut 0 [] [] (payloadBits s' n) = walk t s.caps.maxOut 0 [] [] (payloadBits s n) := by
      rw [hcaps, payloadBits_congr hbits]
    have hbytes (out : List Byte) := writeOutput_same_bytes (s.bufByte .payBuf 0).toNat n out s s'
    rw [hpad] at hexec'
    cases hwalk : walk t s.caps.maxOut 0 [] [] (payloadBits s n) with
    | full out j =>
      rw [finish_unpackWalk_full _ hwalk] at hexec
      rw [finish_unpackWalk_full _ (hsame.trans hwalk)] at hexec'
      exact ⟨_, _, hexec, hexec', rfl, hbytes out, fun _ _ => rfl, fun _ _ => ⟨rfl, rfl⟩,
        fun _ _ => ⟨rfl, rfl⟩⟩
    | atBit out q =>
      cases q with
      | nil =>
        rw [finish_unpackWalk_atRoot _ hwalk] at hexec
        rw [finish_unpackWalk_atRoot _ (hsame.trans hwalk)] at hexec'
        exact ⟨_, _, hexec, hexec', rfl, hbytes out, fun h h' => by simp [endsWell, h, h'],
          fun h h' => by simp [endsWell, h, h'], fun _ _ => ⟨rfl, rfl⟩⟩
      | cons b q =>
        rw [finish_unpackWalk_inside _ (List.cons_ne_nil b q) hwalk] at hexec
        rw [finish_unpackWalk_inside _ (List.cons_ne_nil b q) (hsame.trans hwalk)] at hexec'
        exact ⟨_, _, hexec, hexec', rfl, hbytes out, fun _ _ => rfl, fun _ _ => ⟨rfl, rfl⟩,
          fun _ _ => ⟨rfl, rfl⟩⟩

end Sys2Proof.Machine
end

section
/-! PROOF. NOP and the sequencing commands as their steps (45_sequences_system.md): a command that the host issues (R117,
R123), ENCODE as its five steps (R118, R140) and DECODE as its two (R119), with what DECODE leaves. -/

namespace Sys2Proof.Machine

/-! ### A command issued and run (R123, R124) -/

theorem decode_encode (i : Instr) : decode (encode i) = .ok i := by
  cases i <;> rfl

/-- While idle, a write of a command's word to CMD is an accepted issue (R123). -/
theorem step_cmd {s : State} {i : Instr} {rest : List Input} (hb : s.status.busy = false)
    (h : s.inputs = cmd i :: rest) : step s = .next (accept (encode i) { s with inputs := rest }) := by
  rw [step_wr32_reg h (by decide) rfl rfl]
  exact congrArg _ (if_neg (by simp [hb]))

/-- The ENGINE's turn after an accepted issue runs the command (R124). -/
theorem step_accept_engine (i : Instr) (s : State) (rest : List Input) :
    step (accept (encode i) { s with inputs := .engine :: rest }) =
      exec i (accept (encode i) { s with inputs := rest }) := by
  show engineTurn (accept (encode i) { s with inputs := rest }) = _
  rcases engineTurn_cases (accept (encode i) { s with inputs := rest }) with ⟨hb, _⟩ | ⟨_, j, hj, he⟩ | ⟨_, e, hj, _⟩
  · cases hb
  · cases (decode_encode i).symm.trans hj
    rw [he, exec_eq]
  · cases (decode_encode i).symm.trans hj

theorem run_two {s t u : State} (h1 : step s = .next t) (h2 : step t = .next u) :
    Host.Core.run Sys2Proof.core 2 s = .next u := by
  have h1' : Sys2Proof.core.step s = .next t := h1
  have h2' : Sys2Proof.core.step t = .next u := h2
  simp only [Host.Core.run, h1', h2']

/-- A command issued while idle, with the ENGINE's turn next, takes two steps. -/
theorem run_issued {s t : State} {i : Instr} {rest : List Input} (hb : s.status.busy = false)
    (h : s.inputs = cmd i :: .engine :: rest) (ht : exec i (accept (encode i) { s with inputs := rest }) = .next t) :
    Host.Core.run Sys2Proof.core 2 s = .next t :=
  run_two (step_cmd hb h) ((step_accept_engine i s rest).trans ht)

/-- Settles O32: NOP's pseudocode writes nothing, so what is left is what the issue and the completion write. -/
theorem nopOnlyCompletes : Obligations.NopOnlyCompletes := by
  unfold Obligations.NopOnlyCompletes
  have hnop (s : State) : exec .nop s = .next (endsWell s) := exec_complete (i := .nop) rfl
  exact ⟨decode_encode .nop, fun s => ⟨hnop s, fun rest hb h => run_issued (i := .nop) hb h (hnop _)⟩⟩

/-! ### The completion of a step list's steps (R118, R119, R125) -/

theorem writeBuf_endsWell (s : State) (b : Buffer) (i : Nat) (vs : List Byte) :
    (endsWell s).writeBuf b i vs = endsWell (s.writeBuf b i vs) := by
  induction vs generalizing s i with
  | nil => rfl
  | cons v vs ih => exact ih (s.setBuf b i v) (i + 1)

@[simp] theorem endsWell_caps (s : State) : (endsWell s).caps = s.caps := rfl
@[simp] theorem endsWell_treeLen (s : State) : (endsWell s).treeLen = s.treeLen := rfl
@[simp] theorem endsWell_totalBits (s : State) : (endsWell s).totalBits = s.totalBits := rfl
@[simp] theorem endsWell_payLen (s : State) : (endsWell s).payLen = s.payLen := rfl
@[simp] theorem endsWell_codes (s : State) : (endsWell s).codes = s.codes := rfl
@[simp] theorem endsWell_tree (s : State) : (endsWell s).tree = s.tree := rfl
@[simp] theorem endsWell_inBytes (s : State) : inBytes (endsWell s) = inBytes s := rfl
@[simp] theorem endsWell_bufByte (s : State) (b : Buffer) (i : Nat) : (endsWell s).bufByte b i = s.bufByte b i := rfl
@[simp] theorem endsWell_payloadBits (s : State) (n : Nat) : payloadBits (endsWell s) n = payloadBits s n := rfl

/-- The pseudocode ends alike after a success and before its completion: it looks neither at BUSY nor at DONE. -/
def IgnoresCompletion (f : State → CmdResult) : Prop := ∀ s, finish (f (endsWell s)) = finish (f s)

theorem finish_ite {c : Prop} [Decidable c] {a a' b b' : CmdResult} (ha : finish a = finish a')
    (hb : finish b = finish b') : finish (if c then a else b) = finish (if c then a' else b') := by
  split
  · exact ha
  · exact hb

theorem runBuild_ignoresCompletion : IgnoresCompletion runBuild := fun _ => rfl

theorem runGenCodes_ignoresCompletion : IgnoresCompletion runGenCodes := by
  intro s
  simp only [runGenCodes, endsWell_tree]
  cases s.tree <;> rfl

theorem runSerialize_ignoresCompletion : IgnoresCompletion runSerialize := by
  intro s
  simp only [runSerialize, endsWell_tree, writeBuf_endsWell]
  cases s.tree <;> rfl

theorem runPack_ignoresCompletion : IgnoresCompletion runPack := by
  intro s
  refine finish_ite rfl (finish_ite rfl ?_)
  simp only [endsWell_caps, endsWell_codes, endsWell_inBytes]
  cases packLoop s.codes (8 * (s.caps.maxPay - 1)) 0 [] (inBytes s) with
  | ok bits => simp only [writePayload, writeBuf_endsWell]; rfl
  | error e => rfl

theorem writeOutput_endsWell (p n : Nat) (out : List Byte) (s : State) :
    writeOutput p n out (endsWell s) = endsWell (writeOutput p n out s) := by
  rw [writeOutput, writeBuf_endsWell]
  rfl

theorem unpackWalk_ignoresCompletion (t : HuffTree) (p n : Nat) : IgnoresCompletion (unpackWalk t p n) := by
  intro s
  simp only [unpackWalk, endsWell_caps, endsWell_payloadBits, writeOutput_endsWell]
  cases walk t s.caps.maxOut 0 [] [] (payloadBits s n) with
  | full out j => rfl
  | atBit out q => cases q <;> rfl

theorem unpackLoaded_ignoresCompletion (r : TreeReg) : IgnoresCompletion (unpackLoaded r) := by
  intro s
  refine finish_ite rfl ?_
  cases r with
  | none => rfl
  | absent => rfl
  | present t => exact finish_ite rfl (finish_ite rfl (unpackWalk_ignoresCompletion t _ _ s))

theorem runUnpack_ignoresCompletion : IgnoresCompletion runUnpack :=
  fun s => finish_ite rfl (finish_ite rfl (unpackLoaded_ignoresCompletion s.tree s))

/-- A step run after a success ends as within a step list (R118, R119). -/
theorem exec_endsWell (i : Instr) (h : IgnoresCompletion (runOf i)) (s : State) :
    exec i (endsWell s) = .next (finish (runOf i s)) := by
  rw [exec_eq, h]

theorem exec_endsWell_complete (i : Instr) (h : IgnoresCompletion (runOf i)) {s t : State}
    (ht : runOf i s = .complete t) : exec i (endsWell s) = .next (endsWell t) := by
  rw [exec_endsWell i h, ht]
  rfl

/-- Commands whose pseudocode answers the same end alike (R125). -/
theorem exec_congr {i j : Instr} {s t : State} (h : runOf i s = runOf j t) : exec i s = exec j t := by
  rw [exec_eq, exec_eq, h]

theorem runSteps_singleton (f : State → CmdResult) (s : State) : runSteps [f] s = f s := by
  rw [runSteps]
  cases f s <;> rfl

/-! ### ENCODE (R118, R140) -/

/-- The code table and MAX_DEPTH that GEN_CODES derives from a tree register (R96). -/
def TreeReg.gen : TreeReg → CodeGen
  | .present t => genOfTree t
  | _          => emptyGen

/-- The stream that SERIALIZE writes for a tree register: no byte for ABSENT (R101). -/
def TreeReg.stream : TreeReg → List Byte
  | .present t => ser t
  | _          => []

theorem runGenCodes_of_tree {s : State} (h : s.tree ≠ .none) : runGenCodes s = .complete (writeCodes s.tree.gen s) := by
  rcases runGenCodes_cases s with ⟨ht, _⟩ | ⟨ht, hr⟩ | ⟨t, ht, hr⟩
  · exact absurd ht h
  · rw [hr, ht]; rfl
  · rw [hr, ht]; rfl

/-- What SERIALIZE writes (R101). -/
def writeStream (bs : List Byte) (s : State) : State :=
  { s.writeBuf .treeBuf 0 bs with treeLen := BitVec.ofNat 32 bs.length }

theorem runSerialize_of_tree {s : State} (h : s.tree ≠ .none) :
    runSerialize s = .complete (writeStream s.tree.stream s) := by
  rcases runSerialize_cases s with ⟨ht, _⟩ | ⟨ht, hr⟩ | ⟨t, ht, hr⟩
  · exact absurd ht h
  · have hstream : s.tree.stream = [] := by rw [ht]; rfl
    rw [hr, hstream]; rfl
  · rw [hr, ht]; rfl

/-- What COUNT and then BUILD write, from the counts `f` (R84, R88). -/
def writeBuilt (f : Table Word) (s : State) : State :=
  { s with
    freq := f
    status := { s.status with codesValid := false }
    tree := buildTree f
    leafCount := BitVec.ofNat 9 (presentSymbols f).length
    nodeCount := BitVec.ofNat 10 (2 * (presentSymbols f).length - 1) }

/-- What COUNT, BUILD and GEN_CODES write, from the counts `f` (R84, R88, R96). -/
def writeCoded (f : Table Word) (s : State) : State := writeCodes (buildTree f).gen (writeBuilt f s)

/-- What the steps of ENCODE before PACK write, from the counts `f` (R118). -/
def writeModel (f : Table Word) (s : State) : State := writeStream (buildTree f).stream (writeCoded f s)

theorem runCount_of_inRange {s : State} (h : s.inLen.toNat ≤ s.caps.maxIn) :
    runCount s = .complete { s with freq := countTable (inBytes s) } := by
  rcases runCount_cases s with ⟨hgt, _⟩ | ⟨_, hr⟩
  · omega
  · exact hr

theorem runBuild_counted (f : Table Word) (s : State) : runBuild { s with freq := f } = .complete (writeBuilt f s) := rfl

theorem runGenCodes_built (f : Table Word) (s : State) :
    runGenCodes (writeBuilt f s) = .complete (writeCoded f s) :=
  runGenCodes_of_tree (buildTree_ne_none f)

theorem runSerialize_coded (f : Table Word) (s : State) :
    runSerialize (writeCoded f s) = .complete (writeModel f s) :=
  runSerialize_of_tree (s := writeCoded f s) (buildTree_ne_none f)

/-- Of an input in range, ENCODE's result is that of its last step (R118). -/
theorem runEncode_of_inRange {s : State} (h : s.inLen.toNat ≤ s.caps.maxIn) :
    runEncode s = runPack (writeModel (countTable (inBytes s)) s) := by
  rw [runEncode, runSteps_complete _ _ _ _ (runCount_of_inRange h), runSteps_complete _ _ _ _ (runBuild_counted _ s),
    runSteps_complete _ _ _ _ (runGenCodes_built _ s), runSteps_complete _ _ _ _ (runSerialize_coded _ s),
    runSteps_singleton]

/-- Settles O55: the first four steps cannot fail on an input in range, and no step looks at the completion before it. -/
theorem encodeIsItsFiveSteps : Obligations.EncodeIsItsFiveSteps := by
  unfold Obligations.EncodeIsItsFiveSteps
  intro s h
  refine ⟨_, _, _, _, _, exec_complete (i := .count) (runCount_of_inRange h),
    exec_endsWell_complete .build runBuild_ignoresCompletion (runBuild_counted _ s),
    exec_endsWell_complete .genCodes runGenCodes_ignoresCompletion (runGenCodes_built _ s),
    exec_endsWell_complete .serialize runSerialize_ignoresCompletion (runSerialize_coded _ s),
    exec_endsWell .pack runPack_ignoresCompletion _, ?_⟩
  calc exec .encode s
    _ = exec .pack (writeModel (countTable (inBytes s)) s) := exec_congr (runEncode_of_inRange h)
    _ = _ := exec_eq .pack _

/-! ### DECODE (R119) -/

/-- Where DESERIALIZE completes, DECODE ends as UNPACK does (R119). -/
theorem exec_decode_of_complete {s t : State} (h : runDeserialize s = .complete t) :
    exec .decode s = exec .unpack (endsWell t) := by
  have hrun : runDecode s = runUnpack t := by rw [runDecode, runSteps_complete _ _ _ _ h, runSteps_singleton]
  calc exec .decode s
    _ = exec .unpack t := exec_congr hrun
    _ = .next (finish (runUnpack t)) := exec_eq .unpack t
    _ = exec .unpack (endsWell t) := (exec_endsWell .unpack runUnpack_ignoresCompletion t).symm

/-- Where DESERIALIZE raises an error, DECODE ends there (R119). -/
theorem exec_decode_of_raised {s t : State} {r : Raise} (h : runDeserialize s = .raised t r) :
    exec .decode s = exec .deserialize s := by
  have hrun : runDecode s = runDeserialize s := by rw [runDecode, runSteps_raised _ _ _ _ _ h, h]
  exact exec_congr hrun

theorem runDeserialize_err (s : State) : (runDeserialize s).state.status.err = s.status.err := by
  rcases runDeserialize_cases s with ⟨_, hr⟩ | ⟨_, hr⟩ | ⟨_, _, _, _, _, hr⟩ | ⟨_, _, _, _, hr⟩ <;> rw [hr] <;> rfl

/-- Settles O58: ERR after DESERIALIZE tells whether it completed, and only then does DECODE go on to UNPACK. -/
theorem decodeIsItsTwoSteps : Obligations.DecodeIsItsTwoSteps := by
  unfold Obligations.DecodeIsItsTwoSteps
  intro s herr
  have hkeep := runDeserialize_err s
  cases hrun : runDeserialize s with
  | complete t =>
    rw [hrun] at hkeep
    refine ⟨_, _, exec_complete (i := .deserialize) hrun, exec_eq .unpack _,
      fun _ => (exec_decode_of_complete hrun).trans (exec_eq .unpack _), fun h => ?_⟩
    cases h.symm.trans (hkeep.trans herr)
  | raised t r =>
    have hexec := exec_raised (i := .deserialize) hrun
    exact ⟨_, _, hexec, exec_eq .unpack _, nofun, fun _ => (exec_decode_of_raised hrun).trans hexec⟩

/-- Where DESERIALIZE loads a tree, DECODE ends as UNPACK with that tree does (R119). -/
theorem exec_decode_of_loaded {s t : State} (hle : s.treeLen.toNat ≤ 768) (h : exec .deserialize s = .next t)
    (ht : t.tree ≠ .none) : exec .decode s = exec .unpack t := by
  cases hrun : runDeserialize s with
  | complete u =>
    cases h.symm.trans (exec_complete hrun)
    exact exec_decode_of_complete hrun
  | raised u r =>
    cases h.symm.trans (exec_raised hrun)
    rcases runDeserialize_cases s with ⟨hgt, _⟩ | ⟨_, hr⟩ | ⟨_, _, _, _, _, hr⟩ | ⟨_, _, e, _, hr⟩
    · omega
    · cases hrun.symm.trans hr
    · cases hrun.symm.trans hr
    · cases hrun.symm.trans hr
      exact absurd rfl ht

/-- What DESERIALIZE leaves of a stream that starts with the serialized tree `t` (R102). -/
def loaded (t : HuffTree) (s : State) : State :=
  endsWell (loadTree (.present t) t.numLeaves t.numNodes (ser t).length s)

/-- DECODE of a stream that starts with a serialized tree unpacks with that tree (R102, R119). -/
theorem exec_decode_ser {s : State} {t : HuffTree} {after : List Byte} (hle : s.treeLen.toNat ≤ 768)
    (h : treeBytes s = ser t ++ after) : exec .decode s = exec .unpack (loaded t s) :=
  exec_decode_of_loaded hle (exec_deserialize_ser hle h) nofun

/-- DECODE with a zero TREE_LEN decodes any payload in range to the empty output (R102, R112, R119). -/
theorem exec_decode_zero {s : State} (hzero : s.treeLen.toNat = 0) (hpos : 0 < s.payLen.toNat)
    (hle : s.payLen.toNat ≤ s.caps.maxPay) :
    exec .decode s = .next (endsWell { loadTree .absent 0 0 0 s with outLen := 0 }) := by
  rw [exec_decode_of_loaded (by omega) (exec_deserialize_zero hzero) nofun]
  obtain ⟨_, habsent, _, _⟩ := unpackHeaderChecks (endsWell (loadTree .absent 0 0 0 s)) nofun hle
  exact habsent hpos rfl

/-- Settles O59: DESERIALIZE loads the tree of the stream, and UNPACK decodes with it what the payload holds. -/
theorem decodeSucceeds : Obligations.DecodeSucceeds := by
  unfold Obligations.DecodeSucceeds
  intro s hc
  refine ⟨fun l r after n cs hle hbytes hh hpaths hbits hmax => ?_, fun a after n hle hbytes hh => ?_,
    fun hzero hpos hle => exec_decode_zero (by rw [hzero]; rfl) hpos hle⟩
  · rw [exec_decode_ser hle hbytes]
    obtain ⟨t, ht, hframe, hlen, hout, _, _, hother⟩ :=
      unpackDecodesPaths (loaded (.node l r) s) l r n cs hc rfl hh hpaths hbits hmax
    exact ⟨t, ht, by rw [hframe]; rfl, hlen, hout, hother⟩
  · rw [exec_decode_ser hle hbytes]
    obtain ⟨t, ht, hlen, hout, hother, hwell, herr⟩ :=
      singleLeafDecodesEveryBit (loaded (.leaf a) s) a n hc rfl hh
    exact ⟨t, _, ht, rfl, hwell, herr, hlen, hout, hother⟩

end Sys2Proof.Machine
end

section
/-! PROOF. The artifacts of ENCODE (45_sequences_system.md): ENCODE of an input in range succeeds (R111, R118), what it leaves
depends on the input bytes alone (R122), and DECODE of the two artifacts gives the input back (R121). -/

namespace Sys2Proof.Machine

/-! ### The tree of an input has a code for each of its bytes (R92, R93) -/

/-- Every leaf's symbol has a code (R95, R99). -/
theorem genOfTree_ne_nil {t : HuffTree} {b : Byte} (h : b ∈ t.leaves) : tableGet (genOfTree t).codes b ≠ [] := by
  cases t with
  | leaf a =>
    rw [genOfTree_leaf, if_pos (List.mem_singleton.1 h)]
    exact List.cons_ne_nil _ _
  | node l r =>
    obtain ⟨q, hq⟩ := lastPath_isSome _ b h
    have hl := numLeaves_pos l
    have hr := numLeaves_pos r
    have hlen := paths_ne_root (t := .node l r) (by simp only [HuffTree.numLeaves]; omega) _ (lastPath_mem _ b q hq)
    rw [genOfTree_node, hq]
    exact List.ne_nil_of_length_pos hlen

/-- The tree register that ENCODE builds for the input bytes `bs` (R84, R88). -/
def inputTree (bs : List Byte) : TreeReg := buildTree (countTable bs)

/-- The data bits of the input bytes `bs` (R109). -/
def inputBits (bs : List Byte) : Bits := encodedBits (inputTree bs).codeTable bs

theorem inputTree_code_ne_nil {bs : List Byte} {b : Byte} (hlen : bs.length < 2 ^ 32) (hb : b ∈ bs) :
    tableGet (inputTree bs).codeTable b ≠ [] := by
  have hcount : tableGet (countTable bs) b ≠ 0 := fun h0 => by
    have hpos := List.count_pos_iff.2 hb
    rw [← countTable_toNat bs hlen, h0] at hpos
    exact Nat.lt_irrefl 0 hpos
  obtain ⟨t, ht, _⟩ := buildTree_present _ (presentSymbols_ne_nil ⟨b, hcount⟩)
  rw [inputTree, ht]
  exact genOfTree_ne_nil ((buildTree_leaves _ t ht).mem_iff.2 ((mem_presentSymbols _ b).2 hcount))

theorem inputTree_nil : inputTree [] = .absent :=
  buildTree_nil _ (presentSymbols_eq_nil fun b => tableGet_replicate 0 b)

/-- An input of one byte or more has a tree (R88). -/
theorem inputTree_present {bs : List Byte} (hlen : bs.length < 2 ^ 32) (hne : bs ≠ []) :
    ∃ t, inputTree bs = .present t := by
  obtain ⟨b, bs, rfl⟩ := List.exists_cons_of_ne_nil hne
  refine exists_present (buildTree_ne_none _) fun habs => ?_
  have hcode := inputTree_code_ne_nil hlen List.mem_cons_self
  rw [habs] at hcode
  exact hcode (tableGet_replicate [] b)

theorem encodedBits_length (codes : Table Bits) (bs : List Byte) :
    (encodedBits codes bs).length = (allSymbols.map fun b => bs.count b * (tableGet codes b).length).sum := by
  rw [encodedBits, List.length_flatMap, Finset.sum_list_map_count, ← List.sum_toFinset _ allSymbols_nodup]
  simp only [smul_eq_mul]
  refine Finset.sum_subset (fun b _ => by simp) fun b _ hb => ?_
  rw [List.count_eq_zero.2 (by simpa using hb), Nat.zero_mul]

/-- The data bits of an input are at most 8 for each byte (R93). -/
theorem inputBits_length_le {bs : List Byte} (hlen : bs.length < 2 ^ 32) : (inputBits bs).length ≤ 8 * bs.length := by
  have hcost := codeTable_bits_le (countTable bs)
  simp only [freqTotal_countTable bs hlen, countTable_toNat bs hlen] at hcost
  exact (encodedBits_length _ bs).trans_le hcost

theorem inputTree_small (bs : List Byte) : (inputTree bs).leafTotal ≤ 256 :=
  (buildTree_leafTotal _).trans_le (presentSymbols_length_le _)

theorem stream_length {r : TreeReg} (h : r.leafTotal ≤ 256) : r.stream.length ≤ 767 := by
  cases r with
  | none => exact Nat.zero_le _
  | absent => exact Nat.zero_le _
  | present t =>
    have hser := ser_length t
    simp only [TreeReg.leafTotal, TreeReg.stream] at h ⊢
    omega

/-! ### Buffers read alike -/

theorem bufByte_eq_of_readBuf_eq {s t : State} {b c : Buffer} {n i : Nat} (h : s.readBuf b n = t.readBuf c n)
    (hi : i < n) : s.bufByte b i = t.bufByte c i := by
  rw [← readBuf_getElem s b n i (by rwa [readBuf_length]), ← readBuf_getElem t c n i (by rwa [readBuf_length])]
  simp only [h]

theorem treeBytes_congr {s t : State} (hlen : t.treeLen = s.treeLen)
    (h : ∀ i, i < s.treeLen.toNat → t.bufByte .treeBuf i = s.bufByte .treeBuf i) : treeBytes t = treeBytes s := by
  rw [treeBytes, hlen]
  exact List.map_congr_left fun i hi => h i (List.mem_range.1 hi)

theorem writePayload_readBuf (bits : Bits) (s : State) :
    (writePayload bits s).readBuf .payBuf (payloadOf bits).length = payloadOf bits :=
  (readBuf_congr rfl rfl _ _).trans (writeBuf_readBuf s .payBuf (payloadOf bits))

/-! ### The artifacts (R118, R121) -/

/-- The registers and buffers that hold what ENCODE sends: the stream of a tree register and the payload of data bits
(R118, R121). -/
structure HoldsArtifacts (r : TreeReg) (bits : Bits) (t : State) : Prop where
  tree : treeBytes t = r.stream
  payload : t.readBuf .payBuf t.payLen.toNat = payloadOf bits

theorem HoldsArtifacts.treeLen {r : TreeReg} {bits : Bits} {t : State} (h : HoldsArtifacts r bits t) :
    t.treeLen.toNat = r.stream.length := by
  rw [← h.tree, treeBytes_length]

theorem HoldsArtifacts.payLen {r : TreeReg} {bits : Bits} {t : State} (h : HoldsArtifacts r bits t) :
    t.payLen.toNat = (payloadOf bits).length := by
  rw [← h.payload, readBuf_length]

/-- Every block whose artifact bytes are those of `t` holds the artifacts that `t` holds. -/
theorem HoldsArtifacts.congr {r : TreeReg} {bits : Bits} {t v : State} (h : HoldsArtifacts r bits t)
    (htree : v.treeLen = t.treeLen) (hpay : v.payLen = t.payLen)
    (htreeBytes : ∀ i, i < t.treeLen.toNat → v.bufByte .treeBuf i = t.bufByte .treeBuf i)
    (hpayBytes : ∀ i, i < t.payLen.toNat → v.bufByte .payBuf i = t.bufByte .payBuf i) : HoldsArtifacts r bits v where
  tree := (treeBytes_congr htree htreeBytes).trans h.tree
  payload := by
    rw [hpay, ← h.payload]
    exact List.map_congr_left fun i hi => hpayBytes i (List.mem_range.1 hi)

/-! ### What ENCODE leaves (R118) -/

theorem writeStream_frame (bs : List Byte) (s : State) :
    writeStream bs s = { s with mem := (writeStream bs s).mem, treeLen := (writeStream bs s).treeLen } := by
  unfold writeStream
  rw [writeBuf_frame]

theorem writeStream_other (bs : List Byte) (s : State) (b : Buffer) (i : Nat)
    (h : b.base + i < Buffer.treeBuf.base ∨ Buffer.treeBuf.base + bs.length ≤ b.base + i) :
    (writeStream bs s).bufByte b i = s.bufByte b i :=
  (bufByte_congr (s.writeBuf .treeBuf 0 bs) _ rfl rfl b i).trans (bufByte_writeBuf_other s _ _ _ _ _ h)

theorem writeStream_treeBytes {bs : List Byte} (h : bs.length < 2 ^ 32) (s : State) :
    treeBytes (writeStream bs s) = bs := by
  have hlen : (writeStream bs s).treeLen.toNat = bs.length := toNat_ofNat32 h
  rw [treeBytes, hlen]
  exact (readBuf_congr rfl rfl _ _).trans (writeBuf_readBuf s .treeBuf bs)

theorem gen_codes (r : TreeReg) : r.gen.codes = r.codeTable := by
  cases r <;> rfl

/-- What the steps of ENCODE before PACK leave unchanged, and where the codes come from (R118). -/
theorem writeModel_frame (f : Table Word) (s : State) :
    writeModel f s = { s with
      freq := f
      status := { s.status with codesValid := true }
      tree := buildTree f
      leafCount := (writeBuilt f s).leafCount
      nodeCount := (writeBuilt f s).nodeCount
      codes := (buildTree f).codeTable
      maxDepth := (writeCoded f s).maxDepth
      treeLen := (writeModel f s).treeLen
      mem := (writeModel f s).mem } := by
  rw [← gen_codes]
  exact writeStream_frame (buildTree f).stream (writeCoded f s)

/-- What ENCODE of an input in range leaves before its completion (R118). -/
def encoded (s : State) : State := writePayload (inputBits (inBytes s)) (writeModel (countTable (inBytes s)) s)

/-- No step of ENCODE before PACK writes IN_BUF or IN_LEN (R126). -/
theorem writeModel_inBytes (s : State) : inBytes (writeModel (countTable (inBytes s)) s) = inBytes s := by
  have hlen := stream_length (inputTree_small (inBytes s))
  have hin : (writeModel (countTable (inBytes s)) s).inLen = s.inLen := by rw [writeModel_frame]
  have hbyte (i : Nat) : (writeModel (countTable (inBytes s)) s).bufByte .inBuf i = s.bufByte .inBuf i :=
    writeStream_other (inputTree (inBytes s)).stream (writeCoded (countTable (inBytes s)) s) .inBuf i
      (.inr (by simp only [Buffer.base]; omega))
  rw [inBytes, hin]
  exact List.map_congr_left fun i _ => hbyte i

/-- `u` with the memory and the payload's registers as in `t`. -/
def withPayloadOf (t u : State) : State :=
  { u with mem := t.mem, payLen := t.payLen, padCount := t.padCount, totalBits := t.totalBits }

/-- What ENCODE changes of an input in range, beside its completion (R118). -/
theorem encoded_frame (s : State) :
    encoded s = { s with
      freq := countTable (inBytes s)
      status := { s.status with codesValid := true }
      tree := inputTree (inBytes s)
      leafCount := (writeBuilt (countTable (inBytes s)) s).leafCount
      nodeCount := (writeBuilt (countTable (inBytes s)) s).nodeCount
      codes := (inputTree (inBytes s)).codeTable
      maxDepth := (writeCoded (countTable (inBytes s)) s).maxDepth
      treeLen := (writeModel (countTable (inBytes s)) s).treeLen
      payLen := (encoded s).payLen
      padCount := (encoded s).padCount
      totalBits := (encoded s).totalBits
      mem := (encoded s).mem } :=
  (writePayload_frame _ _).trans (congrArg (withPayloadOf (encoded s)) (writeModel_frame _ s))

section InRange
variable {s : State} (hc : s.caps.wf = true) (hl : s.inLen.toNat ≤ s.caps.maxIn)
include hc hl

theorem inputBits_in_range : (inputBits (inBytes s)).length ≤ 8 * s.inLen.toNat ∧
    (inputBits (inBytes s)).length ≤ 8 * (s.caps.maxPay - 1) := by
  have hle := inputBits_length_le (inBytes_length_lt hc hl)
  have hcaps := caps_bounds hc
  rw [inBytes_length] at hle
  omega

/-- ENCODE of every input in range succeeds (R111, R118). -/
theorem exec_encode_of_inRange : exec .encode s = .next (endsWell (encoded s)) := by
  obtain ⟨_, hfit⟩ := inputBits_in_range hc hl
  have hcode : ∀ b ∈ inBytes s, tableGet (inputTree (inBytes s)).codeTable b ≠ [] :=
    fun b hb => inputTree_code_ne_nil (inBytes_length_lt hc hl) hb
  have hbytes := writeModel_inBytes s
  have hframe := writeModel_frame (countTable (inBytes s)) s
  have hcodes : (writeModel (countTable (inBytes s)) s).codes = (inputTree (inBytes s)).codeTable := by rw [hframe]; rfl
  have hpack := runPack_of_codes (writeModel (countTable (inBytes s)) s) (by rw [hframe]) (by rw [hframe]; exact hl)
    (by rw [hbytes, hcodes]; exact hcode) (by rw [hbytes, hcodes, hframe]; exact hfit)
  rw [hbytes, hcodes] at hpack
  exact exec_complete ((runEncode_of_inRange hl).trans hpack)

/-- The counts that PACK leaves after the other steps (R109, R118). -/
theorem encoded_counts : (encoded s).totalBits.toNat = (inputBits (inBytes s)).length ∧
    (encoded s).padCount.toNat = padOf (inputBits (inBytes s)).length ∧
    (encoded s).payLen.toNat = 1 + ((inputBits (inBytes s)).length + padOf (inputBits (inBytes s)).length) / 8 := by
  obtain ⟨_, hfit⟩ := inputBits_in_range hc hl
  have hframe := writeModel_frame (countTable (inBytes s)) s
  exact writePayload_counts (by rw [hframe]; exact hc) (by rw [hframe]; exact hfit)

/-- ENCODE leaves the two artifacts of its input (R118). -/
theorem encoded_holdsArtifacts : HoldsArtifacts (inputTree (inBytes s)) (inputBits (inBytes s)) (encoded s) := by
  obtain ⟨_, _, hpayLen⟩ := encoded_counts hc hl
  have hlen := stream_length (inputTree_small (inBytes s))
  have hstream : treeBytes (writeModel (countTable (inBytes s)) s) = (inputTree (inBytes s)).stream :=
    writeStream_treeBytes (bs := (inputTree (inBytes s)).stream) (by omega) _
  refine ⟨(treeBytes_congr (writePayload_treeLen _ _) fun i hi => ?_).trans hstream, ?_⟩
  · rw [← treeBytes_length, hstream] at hi
    exact writePayload_other _ _ _ _ (.inl (by simp only [Buffer.base]; omega))
  · rw [hpayLen, ← payloadOf_length]
    exact writePayload_readBuf _ _

end InRange

theorem encoded_byte_zero (s : State) :
    ((encoded s).bufByte .payBuf 0).toNat = padOf (inputBits (inBytes s)).length :=
  (congrArg BitVec.toNat (writePayload_byte_zero _ _)).trans (toNat_ofNat_padOf _ (by decide))

theorem encoded_payloadBit (s : State) (j : Nat)
    (hj : j < (inputBits (inBytes s)).length + padOf (inputBits (inBytes s)).length) :
    payloadBit (encoded s) j = (inputBits (inBytes s)).getD j false :=
  (payloadBit_writePayload _ _ j hj).trans (getD_filler _ _ j)

/-- ENCODE keeps every buffer byte outside its two artifacts (R118, R126). -/
theorem encoded_other (s : State) (b : Buffer) (i : Nat)
    (ht : b.base + i < Buffer.treeBuf.base ∨
      Buffer.treeBuf.base + (inputTree (inBytes s)).stream.length ≤ b.base + i)
    (hp : b.base + i < Buffer.payBuf.base ∨
      Buffer.payBuf.base + (payloadOf (inputBits (inBytes s))).length ≤ b.base + i) :
    (encoded s).bufByte b i = s.bufByte b i :=
  (writePayload_other _ _ b i hp).trans (writeStream_other (inputTree (inBytes s)).stream
    (writeCoded (countTable (inBytes s)) s) b i ht)

/-- Settles O56: the codes of the built tree spend at most 8 bits on a byte, so PACK, and with it ENCODE, succeeds. -/
theorem encodeSucceeds : Obligations.EncodeSucceeds := by
  unfold Obligations.EncodeSucceeds
  intro s hc hl
  have hexec := exec_encode_of_inRange hc hl
  have hframe := encoded_frame s
  have hcounts := encoded_counts hc hl
  have hholds := encoded_holdsArtifacts hc hl
  have hzero := encoded_byte_zero s
  have hbit := encoded_payloadBit s
  have hother := encoded_other s
  generalize encoded s = t at hexec hframe hcounts hholds hzero hbit hother
  have htree : t.tree = inputTree (inBytes s) := by rw [hframe]
  have hdata : encodedBits t.codes (s.readBuf .inBuf s.inLen.toNat) = inputBits (inBytes s) := by rw [hframe]; rfl
  obtain ⟨htotal, _, hlen⟩ := hcounts
  obtain ⟨hbits, _⟩ := inputBits_in_range hc hl
  have hpad := padOf_lt (inputBits (inBytes s)).length
  have hmod := padOf_mod (inputBits (inBytes s)).length
  refine ⟨endsWell t, hexec, by rw [hframe]; rfl, fun hin => ?_, fun hin => ?_, ?_⟩
  · have hnil : inBytes s = [] := List.length_eq_zero_iff.1 (by rw [inBytes_length, hin]; rfl)
    rw [hnil, inputTree_nil] at htree hholds
    exact ⟨htree, BitVec.eq_of_toNat_eq hholds.treeLen, BitVec.eq_of_toNat_eq hholds.payLen⟩
  · have hne : inBytes s ≠ [] := fun hnil => hin (BitVec.eq_of_toNat_eq (by rw [← inBytes_length, hnil]; rfl))
    obtain ⟨h, hh⟩ := inputTree_present (inBytes_length_lt hc hl) hne
    rw [hh] at htree hholds
    refine ⟨h, htree, ?_, hholds.tree⟩
    rw [leaves_length, ← ser_length]
    exact hholds.treeLen
  · simp only [endsWell_payLen, endsWell_totalBits, endsWell_treeLen, endsWell_bufByte, endsWell_codes, htotal, hlen,
      hzero, hdata]
    refine ⟨by omega, by omega, trivial, hbit, by omega, by omega, fun b i h1 h2 => ?_⟩
    rw [hholds.treeLen] at h1
    exact hother b i h1 (by rwa [payloadOf_length])

/-! ### The artifacts depend on the input alone (R122) -/

/-- ENCODE ends idle with the two artifacts of its input, and without an error of its own (R118). -/
theorem exec_encode_artifacts {s : State} (hc : s.caps.wf = true) (hl : s.inLen.toNat ≤ s.caps.maxIn) :
    ∃ t, exec .encode s = .next t ∧ t.caps = s.caps ∧ t.inputs = s.inputs ∧ t.status.busy = false ∧
      t.status.err = s.status.err ∧ HoldsArtifacts (inputTree (inBytes s)) (inputBits (inBytes s)) t := by
  have hexec := exec_encode_of_inRange hc hl
  have hholds := encoded_holdsArtifacts hc hl
  have hframe := encoded_frame s
  generalize encoded s = t at hexec hholds hframe
  refine ⟨_, hexec, ?_, ?_, rfl, ?_, hholds.tree, hholds.payload⟩ <;> rw [hframe] <;> rfl

/-- Settles O57: the tree and the data bits are functions of the input bytes, and the artifacts of those. -/
theorem encodeIsDeterministic : Obligations.EncodeIsDeterministic := by
  unfold Obligations.EncodeIsDeterministic
  intro s s' hc hcaps hin hl hbytes
  have hc' : s'.caps.wf = true := by rwa [hcaps]
  have hl' : s'.inLen.toNat ≤ s'.caps.maxIn := by rwa [hin, hcaps]
  have hsame : inBytes s' = inBytes s := by
    rw [inBytes, hin]
    exact List.map_congr_left fun i hi => hbytes i (List.mem_range.1 hi)
  obtain ⟨t, hexec, _, _, _, _, hholds⟩ := exec_encode_artifacts hc hl
  obtain ⟨t', hexec', _, _, _, _, hholds'⟩ := exec_encode_artifacts hc' hl'
  rw [hsame] at hholds'
  have htree : t'.treeLen = t.treeLen := BitVec.eq_of_toNat_eq (hholds'.treeLen.trans hholds.treeLen.symm)
  have hpay : t'.payLen = t.payLen := BitVec.eq_of_toNat_eq (hholds'.payLen.trans hholds.payLen.symm)
  have htreeBytes := hholds'.tree.trans hholds.tree.symm
  have hpayBytes := hholds'.payload.trans hholds.payload.symm
  rw [treeBytes, htree] at htreeBytes
  rw [hpay] at hpayBytes
  exact ⟨_, _, hexec, hexec', htree, hpay, fun i hi => bufByte_eq_of_readBuf_eq htreeBytes hi,
    fun i hi => bufByte_eq_of_readBuf_eq hpayBytes hi⟩

/-! ### DECODE of the artifacts (R121) -/

section Artifacts
variable {r : TreeReg} {bits : Bits} {v : State} (h : HoldsArtifacts r bits v)
include h

/-- A payload reads, wherever it came from, as PACK would have written it. -/
theorem HoldsArtifacts.bufByte {i : Nat} (hi : i < (payloadOf bits).length) :
    v.bufByte .payBuf i = (writePayload bits v).bufByte .payBuf i := by
  have hread := h.payload
  rw [h.payLen] at hread
  exact bufByte_eq_of_readBuf_eq (hread.trans (writePayload_readBuf bits v).symm) hi

/-- The payload passes UNPACK's checks, with its bits for data bits (R80, R112). -/
theorem HoldsArtifacts.headerOk (hcap : 1 ≤ v.caps.maxPay) (hfit : bits.length ≤ 8 * (v.caps.maxPay - 1)) :
    HeaderOk v bits.length := by
  have hlen := h.payLen
  have hbyte : (v.bufByte .payBuf 0).toNat = padOf bits.length := by
    rw [h.bufByte (by rw [payloadOf_length]; omega), writePayload_byte_zero]
    exact toNat_ofNat_padOf _ (by decide)
  have hpad := padOf_lt bits.length
  have hmod := padOf_mod bits.length
  rw [payloadOf_length] at hlen
  rw [HeaderOk, hbyte, hlen]
  omega

theorem HoldsArtifacts.payloadBits : payloadBits v bits.length = bits := by
  refine (payloadBits_congr fun j hj => ?_).trans (payloadBits_writePayload bits v)
  have hmod := padOf_mod bits.length
  rw [payloadBit, h.bufByte (by rw [payloadOf_length]; omega), ← payloadBit]

end Artifacts

/-- The data bits of an input are the paths of the leaves of its bytes (R109, R112). -/
theorem encodedBits_eq_paths (codes : Table Bits) (bs : List Byte) :
    encodedBits codes bs = (bs.map fun b => (b, tableGet codes b)).flatMap Prod.snd := by
  rw [List.flatMap_map]
  rfl

/-- `w` shows the output `bs`, and the ERR of `v`. -/
structure Outputs (bs : List Byte) (v w : State) : Prop where
  err : w.status.err = v.status.err
  outLen : w.outLen.toNat = bs.length
  bytes : w.readBuf .outBuf bs.length = bs

section Decode
variable {v : State} {bs : List Byte} (hc : v.caps.wf = true) (hmax : bs.length ≤ v.caps.maxOut)
  (hle : v.treeLen.toNat ≤ 768)
include hc hmax hle

/-- A payload of the codes of a single leaf has a data bit for each byte, whose symbol it is (R95, R113). -/
theorem exec_decode_leaf_codes {a : Byte} (hstream : treeBytes v = ser (.leaf a))
    (hcode : ∀ b ∈ bs, tableGet (genOfTree (.leaf a)).codes b ≠ [])
    (hhead : HeaderOk v (encodedBits (genOfTree (.leaf a)).codes bs).length) :
    ∃ w, exec .decode v = .next w ∧ Outputs bs v w := by
  obtain ⟨n, rfl⟩ : ∃ n, bs = List.replicate n a :=
    ⟨_, List.eq_replicate_of_mem fun b hb => symbol_eq_of_leaf_code (hcode b hb)⟩
  have hn : (encodedBits (genOfTree (.leaf a)).codes (List.replicate n a)).length = n := by
    have ha : tableGet (genOfTree (.leaf a)).codes a = [false] := (genOfTree_leaf a a).trans (if_pos rfl)
    simp [encodedBits, List.length_flatMap, ha]
  rw [hn] at hhead
  rw [List.length_replicate] at hmax
  obtain ⟨_, hleaf, _⟩ := decodeSucceeds v hc
  obtain ⟨w, u, hexec, hu, hwell, _, hlen, hbytes, _⟩ :=
    hleaf a [] n hle (hstream.trans (List.append_nil _).symm) hhead
  rw [Nat.min_eq_left hmax] at hlen hbytes
  refine ⟨w, hexec, ?_, hlen.trans List.length_replicate.symm, by rwa [List.length_replicate]⟩
  rw [hwell hmax, hu]
  rfl

/-- With two leaves or more, a payload of codes has the paths of its bytes' leaves for data bits (R99, R112). -/
theorem exec_decode_node_codes {l r : HuffTree} (hstream : treeBytes v = ser (.node l r))
    (hcode : ∀ b ∈ bs, tableGet (genOfTree (.node l r)).codes b ≠ [])
    (hhead : HeaderOk v (encodedBits (genOfTree (.node l r)).codes bs).length)
    (hdata : payloadBits v (encodedBits (genOfTree (.node l r)).codes bs).length =
      encodedBits (genOfTree (.node l r)).codes bs) :
    ∃ w, exec .decode v = .next w ∧ Outputs bs v w := by
  obtain ⟨hnode, _, _⟩ := decodeSucceeds v hc
  obtain ⟨w, hexec, hframe, hlen, hbytes, _⟩ :=
    hnode l r [] _ (bs.map fun b => (b, tableGet (genOfTree (.node l r)).codes b)) hle
      (hstream.trans (List.append_nil _).symm) hhead
      (by simpa using fun b hb => genOfTree_node_mem_paths (hcode b hb))
      (hdata.trans (encodedBits_eq_paths _ bs)) (by rwa [List.length_map])
  rw [List.length_map] at hlen hbytes
  refine ⟨w, hexec, by rw [hframe]; rfl, hlen, hbytes.trans ?_⟩
  rw [List.map_map]
  exact List.map_id bs

end Decode

/-- DECODE of the artifacts of an input gives the input back (R121). -/
theorem exec_decode_of_artifacts {bs : List Byte} {v : State} (hc : v.caps.wf = true) (hmax : bs.length ≤ v.caps.maxIn)
    (h : HoldsArtifacts (inputTree bs) (inputBits bs) v) : ∃ w, exec .decode v = .next w ∧ Outputs bs v w := by
  obtain ⟨_, hin, hpay, _, hout, _⟩ := caps_bounds hc
  have hlen : bs.length < 2 ^ 32 := by omega
  have hbits := inputBits_length_le hlen
  have hhead := h.headerOk (by omega) (by omega)
  have hdata := h.payloadBits
  have hle : v.treeLen.toNat ≤ 768 := by
    have hsmall := stream_length (inputTree_small bs)
    rw [h.treeLen]
    omega
  by_cases hne : bs = []
  · subst hne
    obtain ⟨hpos, hpayLen, _, _⟩ := hhead
    have hzero : v.treeLen.toNat = 0 := by rw [h.treeLen, inputTree_nil]; rfl
    exact ⟨_, exec_decode_zero hzero hpos hpayLen, rfl, rfl, rfl⟩
  · obtain ⟨t, ht⟩ := inputTree_present hlen hne
    have hcode (b : Byte) (hb : b ∈ bs) := inputTree_code_ne_nil hlen hb
    have hstream := h.tree
    rw [inputBits] at hhead hdata
    rw [ht] at hhead hdata hcode hstream
    cases t with
    | leaf a => exact exec_decode_leaf_codes hc (hmax.trans hout) hle hstream hcode hhead
    | node l r => exact exec_decode_node_codes hc (hmax.trans hout) hle hstream hcode hhead hdata

/-- Settles O60: ENCODE leaves the artifacts of its input, no issue touches them, and DECODE gives the input back. -/
theorem encodeDecodeRoundTrip : Obligations.EncodeDecodeRoundTrip := by
  unfold Obligations.EncodeDecodeRoundTrip
  intro s rest hc hl hb hin
  obtain ⟨t, hexec, hcaps, hinputs, hbusy, herr, hholds⟩ := exec_encode_artifacts
    (s := accept (encode .encode) { s with inputs := cmd .decode :: .engine :: rest }) hc hl
  have decodes (v : State) (hv : v.caps = s.caps)
      (h : HoldsArtifacts (inputTree (inBytes s)) (inputBits (inBytes s)) v) :
      ∃ w, exec .decode v = .next w ∧ w.status.err = v.status.err ∧ w.outLen = s.inLen ∧
        ∀ i, i < s.inLen.toNat → w.bufByte .outBuf i = s.bufByte .inBuf i := by
    obtain ⟨w, hw, hwerr, hlen, hbytes⟩ := exec_decode_of_artifacts (v := v) (bs := inBytes s) (by rwa [hv])
      (by rwa [hv, inBytes_length]) h
    rw [inBytes_length] at hlen hbytes
    exact ⟨w, hw, hwerr, BitVec.eq_of_toNat_eq hlen, fun i hi => bufByte_eq_of_readBuf_eq hbytes hi⟩
  obtain ⟨u, hu, huerr, hulen, hubytes⟩ := decodes (accept (encode .decode) { t with inputs := rest }) hcaps
    ⟨hholds.tree, hholds.payload⟩
  refine ⟨t, u, run_issued hb hin hexec, run_issued hbusy hinputs hu, herr, huerr, hulen, hubytes, ?_⟩
  intro v hv htree hpay hverr htreeBytes hpayBytes
  obtain ⟨w, hw, hwerr, hwlen, hwbytes⟩ := decodes v hv (hholds.congr htree hpay htreeBytes hpayBytes)
  exact ⟨w, hw, hwerr.trans hverr, hwlen, hwbytes⟩

end Sys2Proof.Machine
end

section
/-! PROOF. Issue, a turn of the ENGINE and completion (60_exceptions.md): an accepted issue (R123), the command or the
illegal word that a turn takes (R124, R128), what every completion leaves (R125, R127), and the errors that change nothing
else (R129). -/

namespace Sys2Proof.Machine

/-! ### What completion leaves of the completion state (R125, R127) -/

/-- From `s` to `t` the completion state is kept: ERROR, ERR_POS, and STATUS but for CODES_VALID. -/
structure KeepsCompletionState (s t : State) : Prop where
  status : t.status = { s.status with codesValid := t.status.codesValid }
  error  : t.error = s.error
  errPos : t.errPos = s.errPos

theorem KeepsCompletionState.refl (s : State) : KeepsCompletionState s s := ⟨rfl, rfl, rfl⟩

theorem KeepsCompletionState.trans {s t u : State} (h1 : KeepsCompletionState s t) (h2 : KeepsCompletionState t u) :
    KeepsCompletionState s u where
  status := by rw [h2.status, h1.status]
  error := h2.error.trans h1.error
  errPos := h2.errPos.trans h1.errPos

theorem KeepsCompletionState.flags {s t : State} (h : KeepsCompletionState s t) :
    t.status.overrun = s.status.overrun ∧ t.status.busyAccess = s.status.busyAccess ∧
    t.status.lastOp = s.status.lastOp ∧ t.status.err = s.status.err := by
  rw [h.status]
  exact ⟨rfl, rfl, rfl, rfl⟩

theorem keepsCompletionState_writeBuf (s : State) (b : Buffer) (vs : List Byte) :
    KeepsCompletionState s (s.writeBuf b 0 vs) where
  status := by rw [writeBuf_status]
  error := writeBuf_error ..
  errPos := writeBuf_errPos ..

theorem keepsCompletionState_runCount (s : State) : KeepsCompletionState s (runCount s).state := by
  rcases runCount_cases s with ⟨_, hr⟩ | ⟨_, hr⟩ <;> rw [hr]
  · exact .refl s
  · exact ⟨rfl, rfl, rfl⟩

theorem keepsCompletionState_runBuild (s : State) : KeepsCompletionState s (runBuild s).state := ⟨rfl, rfl, rfl⟩

theorem keepsCompletionState_runGenCodes (s : State) : KeepsCompletionState s (runGenCodes s).state := by
  have hcodes (g : CodeGen) : KeepsCompletionState s (writeCodes g s) := ⟨rfl, rfl, rfl⟩
  rcases runGenCodes_cases s with ⟨_, hr⟩ | ⟨_, hr⟩ | ⟨t, _, hr⟩ <;> rw [hr]
  · exact .refl s
  · exact hcodes emptyGen
  · exact hcodes (genOfTree t)

theorem keepsCompletionState_runSerialize (s : State) : KeepsCompletionState s (runSerialize s).state := by
  rcases runSerialize_cases s with ⟨_, hr⟩ | ⟨_, hr⟩ | ⟨t, _, hr⟩ <;> rw [hr]
  · exact .refl s
  · exact ⟨rfl, rfl, rfl⟩
  · exact { keepsCompletionState_writeBuf s .treeBuf (ser t) with }

theorem keepsCompletionState_runDeserialize (s : State) : KeepsCompletionState s (runDeserialize s).state := by
  have hload (r : TreeReg) (n m u : Nat) : KeepsCompletionState s (loadTree r n m u s) := ⟨rfl, rfl, rfl⟩
  rcases runDeserialize_cases s with ⟨_, hr⟩ | ⟨_, hr⟩ | ⟨_, _, t, rest, _, hr⟩ | ⟨_, _, e, _, hr⟩ <;> rw [hr]
  · exact .refl s
  · exact hload ..
  · exact hload ..
  · exact hload ..

theorem keepsCompletionState_runPack (s : State) : KeepsCompletionState s (runPack s).state := by
  rcases runPack_cases s with ⟨_, hr⟩ | ⟨_, _, hr⟩ | ⟨_, _, bits, _, hr⟩ | ⟨_, _, e, _, hr⟩ <;> rw [hr]
  · exact .refl s
  · exact .refl s
  · exact { keepsCompletionState_writeBuf s .payBuf (payloadOf bits) with }
  · exact ⟨rfl, rfl, rfl⟩

theorem keepsCompletionState_unpackWalk (t : HuffTree) (p n : Nat) (s : State) :
    KeepsCompletionState s (unpackWalk t p n s).state := by
  have hout (out : List Byte) : KeepsCompletionState s (writeOutput p n out s) :=
    { keepsCompletionState_writeBuf s .outBuf out with }
  rcases unpackWalk_cases t p n s with ⟨out, _, _, hr⟩ | ⟨out, _, hr⟩ | ⟨out, _, _, _, hr⟩ <;> rw [hr] <;>
    exact hout out

theorem keepsCompletionState_runUnpack (s : State) : KeepsCompletionState s (runUnpack s).state := by
  have hzero : KeepsCompletionState s { s with outLen := 0 } := ⟨rfl, rfl, rfl⟩
  rcases runUnpack_cases s with ⟨_, hr⟩ | ⟨_, _, hr⟩ | ⟨_, _, hr⟩ | ⟨_, _, _, hr⟩ | ⟨_, _, _, _, _, hr⟩ |
    ⟨_, _, _, _, _, _, hr⟩ | ⟨t, _, _, _, _, _, hr⟩ <;> rw [hr]
  · exact .refl s
  · exact .refl s
  · exact hzero
  · exact hzero
  · exact hzero
  · exact hzero
  · exact keepsCompletionState_unpackWalk t _ _ s

theorem keepsCompletionState_runSteps (fs : List (State → CmdResult))
    (hf : ∀ f ∈ fs, ∀ u, KeepsCompletionState u (f u).state) (s : State) :
    KeepsCompletionState s (runSteps fs s).state :=
  runSteps_keeps (KeepsCompletionState s) fs (fun f hm u hu => hu.trans (hf f hm u)) s (.refl s)

/-- No command's pseudocode writes the completion state: that is left to its issue and its completion (R123, R125). -/
theorem keepsCompletionState_runOf (i : Instr) (s : State) : KeepsCompletionState s (runOf i s).state := by
  cases i with
  | nop => exact .refl s
  | count => exact keepsCompletionState_runCount s
  | build => exact keepsCompletionState_runBuild s
  | genCodes => exact keepsCompletionState_runGenCodes s
  | serialize => exact keepsCompletionState_runSerialize s
  | deserialize => exact keepsCompletionState_runDeserialize s
  | pack => exact keepsCompletionState_runPack s
  | unpack => exact keepsCompletionState_runUnpack s
  | encode =>
    refine keepsCompletionState_runSteps _ ?_ s
    simp only [List.forall_mem_cons, List.not_mem_nil, false_implies, implies_true, and_true]
    exact ⟨keepsCompletionState_runCount, keepsCompletionState_runBuild, keepsCompletionState_runGenCodes,
      keepsCompletionState_runSerialize, keepsCompletionState_runPack⟩
  | decode =>
    refine keepsCompletionState_runSteps _ ?_ s
    simp only [List.forall_mem_cons, List.not_mem_nil, false_implies, implies_true, and_true]
    exact ⟨keepsCompletionState_runDeserialize, keepsCompletionState_runUnpack⟩

/-- Completion clears BUSY, sets DONE, and leaves OVERRUN, BUSY_ACCESS and LAST_OP as the pseudocode does (R125). -/
theorem finish_status (r : CmdResult) :
    (finish r).status.busy = false ∧ (finish r).done = true ∧
    (finish r).status.overrun = r.state.status.overrun ∧
    (finish r).status.busyAccess = r.state.status.busyAccess ∧
    (finish r).status.lastOp = r.state.status.lastOp := by
  cases r <;> exact ⟨rfl, rfl, rfl, rfl, rfl⟩

/-- Completion records an error or leaves ERR, ERROR and ERR_POS (R125, R127). -/
theorem finish_error (r : CmdResult) :
    ((finish r).status.err = r.state.status.err ∧ (finish r).error = r.state.error ∧
      (finish r).errPos = r.state.errPos) ∨
    ((finish r).status.err = true ∧ 0x01 ≤ (finish r).error.code.toNat ∧ (finish r).error.code.toNat ≤ 0x0A) := by
  cases r with
  | complete s => exact .inl ⟨rfl, rfl, rfl⟩
  | raised s r => exact .inr ⟨rfl, errorKind_code r.kind⟩

/-- Settles O11: the pseudocode keeps the completion state, so a command leaves what its completion makes of it. -/
theorem everyCommandCompletesOnce : Obligations.EveryCommandCompletesOnce := by
  unfold Obligations.EveryCommandCompletesOnce
  intro i s
  have hrun := keepsCompletionState_runOf i s
  obtain ⟨hover, haccess, hop, herr⟩ := hrun.flags
  obtain ⟨hbusy, hdone, hover', haccess', hop'⟩ := finish_status (runOf i s)
  refine ⟨_, exec_eq i s, hbusy, hdone, hover'.trans hover, haccess'.trans haccess, hop'.trans hop, ?_⟩
  rcases finish_error (runOf i s) with ⟨herr', herror', hpos'⟩ | hraised
  · exact .inl ⟨herr'.trans herr, herror'.trans hrun.error, hpos'.trans hrun.errPos⟩
  · exact .inr hraised

/-! ### A turn of the ENGINE (R124, R128) -/

theorem step_of_no_inputs {s : State} (h : s.inputs = []) : step s = engineTurn s := by
  rw [step, h]

theorem step_of_engine {s : State} {rest : List Input} (h : s.inputs = .engine :: rest) :
    step s = engineTurn { s with inputs := rest } := by
  rw [step, h]

/-- The turn that the schedule names, or that an empty schedule leaves to the ENGINE, as one equation (log entry 3). -/
theorem step_of_engineNext {s : State} {rest : List Input}
    (h : s.inputs = .engine :: rest ∨ s.inputs = [] ∧ rest = []) : step s = engineTurn { s with inputs := rest } := by
  rcases h with h | ⟨h, rfl⟩
  · exact step_of_engine h
  · rw [← h]
    exact step_of_no_inputs h

theorem engineTurn_of_command {s : State} {i : Instr} (hb : s.status.busy = true) (h : decode s.pendingWord = .ok i) :
    engineTurn s = exec i s := by
  rw [engineTurn, if_pos hb, engineStep, h]

/-- Settles O5: the turn of a busy ENGINE runs the command that PENDING_WORD decodes to. -/
theorem stepRunsPendingCommand : Obligations.StepRunsPendingCommand := by
  unfold Obligations.StepRunsPendingCommand
  intro s i rest hb hd _
  refine ⟨fun hin => ?_, fun hin => ?_⟩
  · rw [step_of_no_inputs hin, engineTurn_of_command hb hd]
  · rw [step_of_engine hin]
    exact engineTurn_of_command (s := { s with inputs := rest }) hb hd

theorem opcodeField_eq_setWidth (w : Word) : opcodeField w = w.setWidth 8 :=
  (BitVec.setWidth_eq_extractLsb' (by decide)).symm

theorem illegalCommand_eq (e : IllegalWord) (s : State) :
    illegalCommand e s = endsInError 0x01 (illegalDetail e) (s.pendingWord.setWidth 8) 0 s := by
  rw [← opcodeField_eq_setWidth]
  rfl

theorem engineTurn_of_illegal {s : State} {e : IllegalWord} (hb : s.status.busy = true)
    (h : decode s.pendingWord = .error e) :
    engineTurn s = .next (endsInError 0x01 (illegalDetail e) (s.pendingWord.setWidth 8) 0 s) := by
  rw [engineTurn, if_pos hb, engineStep, h, ← illegalCommand_eq]

/-- Settles O6: the decoder's two rejections are the two ranges of words, and each only completes. -/
theorem illegalWordOnlyCompletes : Obligations.IllegalWordOnlyCompletes := by
  unfold Obligations.IllegalWordOnlyCompletes
  intro s rest hb hin
  obtain ⟨hunknown, hreserved, _⟩ := otherWordsIllegal s.pendingWord
  rw [step_of_engineNext hin]
  refine ⟨fun hop => ?_, fun hop hrsv => ?_⟩
  · exact engineTurn_of_illegal (s := { s with inputs := rest }) hb (hunknown.2 hop)
  · exact engineTurn_of_illegal (s := { s with inputs := rest }) hb (hreserved.2 ⟨hop, hrsv⟩)

/-! ### An accepted issue (R123) -/

theorem issue_idle (v : Word) {s : State} (hb : s.status.busy = false) : issue v s = accept v s :=
  if_neg (by simp [hb])

/-- Settles O9: a write to CMD is an issue, which an idle block accepts. -/
theorem idleCmdWriteIssues : Obligations.IdleCmdWriteIssues := by
  unfold Obligations.IdleCmdWriteIssues
  intro s v rest hb hin
  rw [step_wr32_reg hin (by decide) rfl rfl, hostWriteReg, issue_idle v (s := { s with inputs := rest }) hb, accept,
    opcodeField_eq_setWidth]

/-! ### Errors found before any write (R127, R129) -/

theorem runCount_above_maxIn {s : State} (h : s.caps.maxIn < s.inLen.toNat) :
    runCount s = .raised s (raiseOf .count .lengthRange 1 s.inLen.toNat) := if_pos h

theorem runEncode_above_maxIn {s : State} (h : s.caps.maxIn < s.inLen.toNat) :
    runEncode s = .raised s (raiseOf .count .lengthRange 1 s.inLen.toNat) :=
  runSteps_raised _ _ _ _ _ (runCount_above_maxIn h)

theorem runPack_no_codes {s : State} (h : s.status.codesValid = false) :
    runPack s = .raised s (raiseOf .pack .noCodes 0 0) := if_pos h

theorem runPack_above_maxIn {s : State} (hv : s.status.codesValid = true) (h : s.caps.maxIn < s.inLen.toNat) :
    runPack s = .raised s (raiseOf .pack .lengthRange 1 s.inLen.toNat) :=
  (if_neg (by simp [hv])).trans (if_pos h)

theorem runGenCodes_no_tree {s : State} (h : s.tree = .none) :
    runGenCodes s = .raised s (raiseOf .genCodes .noTree 0 0) := by
  rw [runGenCodes, h]

theorem runSerialize_no_tree {s : State} (h : s.tree = .none) :
    runSerialize s = .raised s (raiseOf .serialize .noTree 0 0) := by
  rw [runSerialize, h]

theorem runUnpack_no_tree {s : State} (h : s.tree = .none) :
    runUnpack s = .raised s (raiseOf .unpack .noTree 0 0) := if_pos h

theorem runUnpack_above_maxPay {s : State} (ht : s.tree ≠ .none) (h : s.caps.maxPay < s.payLen.toNat) :
    runUnpack s = .raised s (raiseOf .unpack .lengthRange 3 s.payLen.toNat) :=
  (if_neg ht).trans (if_pos h)

theorem runDeserialize_above_768 {s : State} (h : 768 < s.treeLen.toNat) :
    runDeserialize s = .raised s (raiseOf .deserialize .lengthRange 2 s.treeLen.toNat) := if_pos h

theorem runDecode_above_768 {s : State} (h : 768 < s.treeLen.toNat) :
    runDecode s = .raised s (raiseOf .deserialize .lengthRange 2 s.treeLen.toNat) :=
  runSteps_raised _ _ _ _ _ (runDeserialize_above_768 h)

/-- Settles O54: each of these errors is raised on the state as the command found it. -/
theorem earlyErrorsChangeNothing : Obligations.EarlyErrorsChangeNothing := by
  unfold Obligations.EarlyErrorsChangeNothing
  intro s
  refine ⟨fun hlen => ⟨?_, ?_, fun hv => ?_⟩, fun ht => ⟨?_, ?_, ?_⟩, fun hlen => ⟨?_, ?_⟩, fun hv => ?_,
    fun ht hlen => ?_⟩
  · exact exec_raised (i := .count) (runCount_above_maxIn hlen)
  · exact exec_raised (i := .encode) (runEncode_above_maxIn hlen)
  · exact exec_raised (i := .pack) (runPack_above_maxIn hv hlen)
  · exact exec_raised (i := .genCodes) (runGenCodes_no_tree ht)
  · exact exec_raised (i := .serialize) (runSerialize_no_tree ht)
  · exact exec_raised (i := .unpack) (runUnpack_no_tree ht)
  · exact exec_raised (i := .deserialize) (runDeserialize_above_768 hlen)
  · exact exec_raised (i := .decode) (runDecode_above_768 hlen)
  · exact exec_raised (i := .pack) (runPack_no_codes hv)
  · exact exec_raised (i := .unpack) (runUnpack_above_maxPay ht hlen)

end Sys2Proof.Machine
end

section
/-! PROOF. The resets and the hazards (70_reset_and_hazards.md): a step always comes (R145, R147), a pending command stays
pending through the host's accesses until it completes (R147, R149, R150), and what the two resets leave (R142 to R144). -/

namespace Sys2Proof.Machine

/-! ### A step always comes (R145, R147) -/

/-- While BUSY a turn of the ENGINE completes the pending command or rejects the pending word (R125, R128). -/
theorem engineTurn_completes {s : State} (hb : s.status.busy = true) :
    ∃ t, engineTurn s = .next t ∧ t.status.busy = false ∧ t.done = true := by
  rcases engineTurn_cases s with ⟨hidle, _⟩ | ⟨_, i, _, he⟩ | ⟨_, e, _, he⟩
  · simp [hb] at hidle
  · obtain ⟨hbusy, hdone, _⟩ := finish_status (runOf i s)
    exact ⟨_, he, hbusy, hdone⟩
  · exact ⟨_, he, rfl, rfl⟩

theorem engineTurn_idle {s : State} (hb : s.status.busy = false) : engineTurn s = .next s :=
  if_neg (by simp [hb])

theorem exists_engineTurn (s : State) : ∃ t, engineTurn s = .next t := by
  cases hb : s.status.busy with
  | false => exact ⟨s, engineTurn_idle hb⟩
  | true =>
    obtain ⟨t, ht, _⟩ := engineTurn_completes hb
    exact ⟨t, ht⟩

/-- Settles O7: each kind of event has a next state, and an idle ENGINE's turn changes nothing. -/
theorem stepNeverStops : Obligations.StepNeverStops := by
  unfold Obligations.StepNeverStops
  refine ⟨fun s => ?_, fun s hb hin => ?_⟩
  · rcases step_event_cases s with ⟨_, rest, hs⟩ | ⟨a, rest, _, hs⟩ | ⟨rest, _, hs⟩ <;> rw [hs]
    · exact exists_engineTurn _
    · exact ⟨_, rfl⟩
    · exact ⟨_, rfl⟩
  · rw [step_of_no_inputs hin, engineTurn_idle hb]

/-! ### A host access while a command is pending (R55, R149, R150) -/

/-- What is pending in `s` is still pending in `t`, with the same schedule before it. -/
structure StaysPending (s t : State) : Prop where
  busy : t.status.busy = true
  pendingWord : t.pendingWord = s.pendingWord
  inputs : t.inputs = s.inputs

theorem issue_busy (v : Word) {s : State} (hb : s.status.busy = true) :
    issue v s = { s with status := { s.status with overrun := true } } := if_pos hb

/-- Settles O10: a write to CMD is an issue, which a busy block answers with OVERRUN. -/
theorem busyCmdWriteDropped : Obligations.BusyCmdWriteDropped := by
  unfold Obligations.BusyCmdWriteDropped
  intro s v rest hb hin
  rw [step_wr32_reg hin (by decide) rfl rfl, hostWriteReg, issue_busy v (s := { s with inputs := rest }) hb]

/-- Of the register writes only a soft reset ends a pending command (R149). -/
theorem staysPending_hostWriteReg (r : Reg) (v : Word) {s : State} (hb : s.status.busy = true)
    (hv : r = .ctrl → v.getLsbD 1 = false) : StaysPending s (hostWriteReg r v s) := by
  rcases hostWriteReg_cases r v s with ⟨hr, h⟩ | ⟨_, h⟩ | ⟨_, h⟩ | ⟨_, _, _, _, h⟩ | ⟨_, _, _, hidle, _⟩
  · rw [h, writeCtrl, hv hr]
    exact ⟨hb, rfl, rfl⟩
  · rw [h, writeIntStatus]
    split <;> exact ⟨hb, rfl, rfl⟩
  · rw [h, issue_busy v hb]
    exact ⟨hb, rfl, rfl⟩
  · rw [h]
    exact ⟨hb, rfl, rfl⟩
  · simp [hb] at hidle

theorem staysPending_hostWriteBuffer (b : Buffer) (i n : Nat) (v : Word) {s : State} (hb : s.status.busy = true) :
    StaysPending s (hostWriteBuffer b i n v s) := by
  rw [hostWriteBuffer, if_pos hb]
  split <;> exact ⟨hb, rfl, rfl⟩

/-- A host write that reaches CTRL with bit 1 set is an event that resets the block (R142). -/
theorem resetsBlock_of_target_ctrl {addr off : Nat} {w : Width} {d : BitVec 64} (hoff : windowOffset addr = some off)
    (ht : target off w = .reg .ctrl) (hd : d.getLsbD 1 = true) :
    resetsBlock (.host { addr := addr, width := w, op := .write d }) := by
  obtain ⟨_, hw, _, hreg⟩ := (target_reg_iff off w .ctrl).1 ht
  have haddr := windowOffset_eq_some hoff
  rw [off_of_regAt_ctrl hreg] at haddr
  exact ⟨d, rfl, hw, haddr, hd⟩

/-- A host access that does not reset the block leaves the pending command pending. -/
theorem staysPending_hostStep (a : BusAccess) {s : State} (hb : s.status.busy = true)
    (hr : ¬ resetsBlock (.host a)) : StaysPending s (hostStep a s) := by
  obtain ⟨addr, w, op⟩ := a
  unfold hostStep
  cases hoff : windowOffset addr with
  | none => exact ⟨hb, rfl, rfl⟩
  | some off =>
    cases op with
    | read => exact ⟨hb, rfl, rfl⟩
    | write d =>
      simp only [windowAccess, hostWrite]
      cases ht : target off w with
      | none => exact ⟨hb, rfl, rfl⟩
      | buffer b i n => exact staysPending_hostWriteBuffer b i n _ hb
      | reg r =>
        refine staysPending_hostWriteReg r _ hb ?_
        rintro rfl
        rw [Bool.eq_false_iff]
        exact fun hd => hr (resetsBlock_of_target_ctrl hoff ht (by simpa using hd))

/-! ### A pending command completes (R147) -/

theorem run_succ_of_step {s u : State} (k : Nat) (h : step s = .next u) :
    Host.Core.run Sys2Proof.core (k + 1) s = Host.Core.run Sys2Proof.core k u := by
  have hcore : Sys2Proof.core.step s = .next u := h
  simp only [Host.Core.run, hcore]

/-- The ENGINE's turn comes after at most the host accesses that the schedule names first. -/
theorem completes_within (l : List Input) {s : State} (hin : s.inputs = l) (hb : s.status.busy = true)
    (hr : ∀ e ∈ l, ¬ resetsBlock e) :
    ∃ k t, k ≤ l.length + 1 ∧ Host.Core.run Sys2Proof.core k s = .next t ∧
      t.status.busy = false ∧ t.done = true := by
  induction l generalizing s with
  | nil =>
    obtain ⟨t, ht, hdone⟩ := engineTurn_completes hb
    exact ⟨1, t, Nat.le_refl 1, run_succ_of_step 0 ((step_of_no_inputs hin).trans ht), hdone⟩
  | cons e rest ih =>
    have hre : ¬ resetsBlock e := hr e List.mem_cons_self
    cases e with
    | engine =>
      obtain ⟨t, ht, hdone⟩ := engineTurn_completes (s := { s with inputs := rest }) hb
      exact ⟨1, t, by simp, run_succ_of_step 0 ((step_of_engine hin).trans ht), hdone⟩
    | powerOn => exact absurd trivial hre
    | host a =>
      obtain ⟨hbusy, _, hinputs⟩ := staysPending_hostStep a (s := { s with inputs := rest }) hb hre
      obtain ⟨k, t, hk, hrun, hdone⟩ := ih hinputs hbusy fun e he => hr e (List.mem_cons_of_mem _ he)
      exact ⟨k + 1, t, by simpa using hk, (run_succ_of_step k (step_host_event hin)).trans hrun, hdone⟩

/-- Settles O8, by induction on the schedule up to the ENGINE's turn. -/
theorem pendingCommandCompletes : Obligations.PendingCommandCompletes := by
  unfold Obligations.PendingCommandCompletes
  exact fun s hb hr => completes_within s.inputs rfl hb hr

/-! ### The two resets (R142, R143, R144) -/

/-- A reset draws buffers anew and puts everything else of the block at its reset value. -/
theorem redrawAll_resetRegisters_frame (bs : List Buffer) (s : State) :
    redrawAll bs (resetRegisters s) =
      { State.reset with
        caps := s.caps
        mem := (redrawAll bs (resetRegisters s)).mem
        draws := (redrawAll bs (resetRegisters s)).draws
        readData := s.readData
        inputs := s.inputs } :=
  redrawAll_frame bs (resetRegisters s)

/-- Each buffer that a reset draws anew has its bytes from one new draw. -/
theorem bufByte_redrawAll_resetRegisters_mem {bs : List Buffer} {b : Buffer} (s : State) (hb : b ∈ bs) :
    ∃ n, s.draws.next ≤ n ∧ ∀ i, i < b.cap s.caps →
      (redrawAll bs (resetRegisters s)).bufByte b i = Config.freeByte n (b.base + i) := by
  obtain ⟨n, hn, hdrawn⟩ := drawnFrom_redrawAll bs (resetRegisters s) b hb
  exact ⟨n, hn, fun i hi => bufByte_of_drawnFrom hdrawn (by simpa using hi)⟩

/-- A buffer that a reset does not draw anew keeps its bytes. -/
theorem bufByte_redrawAll_resetRegisters_notMem {bs : List Buffer} {b : Buffer} {s : State} (hc : s.caps.wf = true)
    (hb : b ∉ bs) (i : Nat) (hi : i < b.cap s.caps) :
    (redrawAll bs (resetRegisters s)).bufByte b i = s.bufByte b i :=
  bufByte_redrawAll_other bs (resetRegisters s) hc b hb i hi

theorem pendingWritesBuffer_iff (s : State) (b : Buffer) :
    pendingWritesBuffer s b = true ↔ ∃ j, decode s.pendingWord = .ok j ∧ b ∈ writtenBuffers j := by
  unfold pendingWritesBuffer pendingInstr
  cases hd : decode s.pendingWord with
  | error e => simp [Except.toOption]
  | ok j => simpa [Except.toOption] using primitives_any_buffer j b

/-- A soft reset draws the buffers of the aborted command's write set, as R126's table lists them (R143). -/
theorem mem_abortedBuffers_iff (s : State) (b : Buffer) :
    b ∈ abortedBuffers s ↔ s.status.busy = true ∧ ∃ j, decode s.pendingWord = .ok j ∧ b ∈ writtenBuffers j := by
  rw [← pendingWritesBuffer_iff, abortedBuffers]
  cases s.status.busy <;> cases b <;> simp

/-- Settles O29: a write of SOFT_RESET draws the aborted command's buffers and no others. -/
theorem softResetEffect : Obligations.SoftResetEffect := by
  unfold Obligations.SoftResetEffect
  intro s v rest hc hv hin
  have hstep : step s = .next (softReset { s with inputs := rest }) := by
    rw [step_wr32_reg hin (by decide) rfl rfl, hostWriteReg, writeCtrl, if_pos hv]
  have haborted := mem_abortedBuffers_iff { s with inputs := rest }
  refine ⟨_, hstep, redrawAll_resetRegisters_frame _ _, fun b i hi hkept => ?_, fun b j hb hd hj => ?_⟩
  · refine bufByte_redrawAll_resetRegisters_notMem (s := { s with inputs := rest }) hc (fun hmem => ?_) i hi
    obtain ⟨hb, j, hd, hj⟩ := (haborted b).1 hmem
    exact hkept hb j hd hj
  · exact bufByte_redrawAll_resetRegisters_mem { s with inputs := rest } ((haborted b).2 ⟨hb, j, hd, hj⟩)

/-- Settles O30: the reset input draws all four buffers. -/
theorem powerOnEffect : Obligations.PowerOnEffect := by
  unfold Obligations.PowerOnEffect
  intro s rest hin
  have hstep : step s = .next (powerOn { s with inputs := rest }) := by rw [step, hin]
  refine ⟨_, hstep, redrawAll_resetRegisters_frame _ _, ?_, fun b => ?_⟩
  · simp [irq, powerOn, State.reset]
  · exact bufByte_redrawAll_resetRegisters_mem { s with inputs := rest } (by cases b <;> decide)

/-! ### The reset state (R144) -/

/-- Settles O14, field by field of the invariant. -/
theorem resetMeetsInvariant : Obligations.ResetMeetsInvariant where
  caps_wf := by decide
  mem_wf := rfl
  tree_small := Nat.zero_le _
  leaf_count := rfl
  node_count := rfl
  none_no_codes := fun _ => rfl
  codes_of_tree := fun hvalid => absurd hvalid (by decide)
  code_length := fun b => (congrArg List.length (tableGet_replicate [] b)).trans_le (Nat.zero_le _)
  freq_total := freqTotal_zero.trans_le (Nat.zero_le _)
  busy_no_err := fun _ => rfl
  no_err_zero := fun _ => ⟨rfl, rfl⟩
  err_code := fun herr => absurd herr (by decide)
  last_op := fun hbusy => absurd hbusy (by decide)
  out_len := Nat.zero_le _
  draws_old := fun b => by cases b <;> decide

/-- The registers that do not read 0 right after reset (R23, R44). -/
def nonzeroAtReset : List Reg := [.id, .version, .capIn, .capPay, .capOut]

/-- The offsets at which they stand (R23). -/
def nonzeroAtResetOffsets : List Nat := [0x000, 0x004, 0x070, 0x074, 0x078]

theorem off_of_regAt_nonzeroAtReset {off : Nat} {r : Reg} (h : regAt off = some r) (hr : r ∈ nonzeroAtReset) :
    off ∈ nonzeroAtResetOffsets := by
  simp only [nonzeroAtReset, nonzeroAtResetOffsets, List.mem_cons, List.not_mem_nil, or_false] at hr ⊢
  rcases hr with rfl | rfl | rfl | rfl | rfl <;>
    simp only [regAt, ite_eq_iff', Option.some.injEq, reduceCtorEq, imp_false, not_not] at h <;> omega

theorem readReg_reset_eq_zero {r : Reg} (h : r ∉ nonzeroAtReset) : readReg State.reset r = 0 := by
  have hcode : selectedCode State.reset = [] := tableGet_replicate [] _
  cases r with
  | id | version | capIn | capPay | capOut => exact absurd (by simp [nonzeroAtReset]) h
  | freq b => exact tableGet_replicate 0 b
  | codeLen => rw [readReg, codeLenWord, hcode]; rfl
  | codeWord k => rw [readReg, codeWord, hcode, List.drop_nil]; rfl
  | _ => rfl

theorem readValue_reset_reg (d : Word) (rest : List Input) (r : Reg) :
    readValue d { State.reset with inputs := rest } (.reg r) = readReg State.reset r := by
  rw [readValue, hostReadReg_inputs, hostReadReg_idle _ _ _ rfl]

/-- Any other offset of the register window reads 0, reserved and unaligned ones included (R23, R61). -/
theorem readValue_reset_eq_zero (d : Word) (rest : List Input) {off : Nat} (ho : off < 0x1000)
    (hoff : off ∉ nonzeroAtResetOffsets) :
    readValue d { State.reset with inputs := rest } (target off .w32) = 0 := by
  by_cases h4 : off % 4 = 0
  · rw [target_reg off ho h4]
    cases hreg : regAt off with
    | none => rfl
    | some r =>
      rw [readValue_reset_reg]
      exact readReg_reset_eq_zero fun hr => hoff (off_of_regAt_nonzeroAtReset hreg hr)
  · rw [target_reg_not_accepted off .w32 ho (.inr h4)]
    rfl

/-- Settles O31: ID, VERSION and the capacities read as R144 has them, and every other offset as 0. -/
theorem resetRegisterReads : Obligations.ResetRegisterReads := by
  unfold Obligations.ResetRegisterReads
  intro off rest ho
  refine ⟨_, step_rd32_eq _ off rest rfl, ?_⟩
  rw [readData_of_step_rd32 (s := { State.reset with inputs := rd32 off :: rest }) rfl (step_rd32_eq _ off rest rfl) ho]
  by_cases hoff : off ∈ nonzeroAtResetOffsets
  · simp only [nonzeroAtResetOffsets, List.mem_cons, List.not_mem_nil, or_false] at hoff
    rcases hoff with rfl | rfl | rfl | rfl | rfl <;> rfl
  · refine (readValue_reset_eq_zero _ rest ho hoff).trans ?_
    simp only [nonzeroAtResetOffsets, List.mem_cons, List.not_mem_nil, or_false, not_or] at hoff
    obtain ⟨h1, h2, h3, h4, h5⟩ := hoff
    simp only [h1, h2, h3, h4, h5, if_false]

end Sys2Proof.Machine
end

section
/-! PROOF. The encoder and the decoder agree (30_encoding.md section 2): on every command (R72, R73), and on the ten words
of the opcode table (R75). -/

namespace Sys2Proof.Machine

/-- Settles O1: the decoder inverts the encoder, and a command has no operand that could be malformed. -/
theorem decodeOfEncode : Obligations.DecodeOfEncode := by
  unfold Obligations.DecodeOfEncode
  exact fun i => ⟨decode_encode i, rfl⟩

/-- Settles O2: each word of the table is the encoder's word of its command, which the decoder gives back. -/
theorem opcodeTableWords : Obligations.OpcodeTableWords := by
  unfold Obligations.OpcodeTableWords
  exact ⟨decode_encode .nop, decode_encode .count, decode_encode .build, decode_encode .genCodes,
    decode_encode .serialize, decode_encode .deserialize, decode_encode .pack, decode_encode .unpack,
    decode_encode .encode, decode_encode .decode⟩

end Sys2Proof.Machine
end
